-- ==== Sys2Proof/Word.lean ====
section
/-! DEFINITION. The word types of the block (spec/00_scope.md R5, R6): operation words of 32 bits (`OPWORD_W`)
and 8-bit bytes, segment patterns and character codes (`PAT_W`). Bits are numbered from 0, the least significant. -/

namespace Sys2Proof

/-- A 32-bit operation word (R48), or the extension word of DSTR (R49). -/
abbrev Word := BitVec 32

/-- An 8-bit byte on the wire, a segment pattern (R75) or a character code (R76). -/
abbrev Byte := BitVec 8

end Sys2Proof
end

