-- ==== Sys2Proof/Syntax.lean ====
section
/-! DEFINITION. The ops of the block: one constructor of `Instr` per row of spec/opcode_table.json, with the operands
of R50 already assembled. An int16 operand is an integer, as R50 says; the range it must have is `Instr.wf`
(WellFormed.lean), the check R55 gives the assembler. -/

namespace Sys2Proof

/-- The two lines (R14, R15). -/
inductive Line where
  | clk
  | dio
  deriving DecidableEq, Repr

/-- The direction of a line (R16, R17): `OUT` or `IN`. -/
inductive Dir where
  | inp
  | out
  deriving DecidableEq, Repr

/-- The ops of R51. -/
inductive Instr where
  /-- SETCLK v (R62). -/
  | setclk (v : Bool)
  /-- SETDIO v (R63). -/
  | setdio (v : Bool)
  /-- SETDIR line, dir (R64). -/
  | setdir (line : Line) (dir : Dir)
  /-- WAIT (R65). -/
  | wait
  /-- SAMPLE (R66). -/
  | sample
  /-- START (R68). -/
  | start
  /-- STOP (R69). -/
  | stop
  /-- WRBYTE byte (R70). -/
  | wrbyte (b : Byte)
  /-- SENDCMD byte (R71). -/
  | sendcmd (b : Byte)
  /-- ENCODE character (R81). -/
  | encode (c : Byte)
  /-- INIT en, brightness (R89). -/
  | init (en : Bool) (bri : Int)
  /-- DSEG pos, pattern (R90). -/
  | dseg (pos pat : Byte)
  /-- DCHAR pos, character (R91). -/
  | dchar (pos c : Byte)
  /-- DCOLON v (R92). -/
  | dcolon (v : Bool)
  /-- DSTR str (R93): the four character lanes of the extension word, lane 0 first. -/
  | dstr (c0 c1 c2 c3 : Byte)
  /-- DINT number (R94). -/
  | dint (n : Int)
  /-- CLEAR (R95). -/
  | clear
  /-- ENABLE v (R96). -/
  | enable (v : Bool)
  /-- SETBRI brightness (R97). -/
  | setbri (v : Int)
  deriving DecidableEq, Repr

/-- The mnemonics of R51, as the table spells them. -/
inductive Mnemonic where
  | SETCLK | SETDIO | SETDIR | WAIT | SAMPLE
  | START | STOP | WRBYTE | SENDCMD
  | ENCODE
  | INIT | DSEG | DCHAR | DCOLON | DSTR | DINT | CLEAR | ENABLE | SETBRI
  deriving DecidableEq, Repr

/-- The families of R51. -/
inductive Family where
  | line
  | transport
  | encoder
  | driver
  deriving DecidableEq, Repr

end Sys2Proof
end

