-- ==== Sys2Proof/WellFormed.lean ====
section
/-! DEFINITION. When an `Instr` is one the encoding admits: every int16 operand is in range (R50, R55). Bits, bytes,
lines and directions fit their fields by their types. -/

namespace Sys2Proof

/-- The range of an int16 operand (R50): -32768 to 32767. -/
def isInt16 (n : Int) : Bool := decide (-32768 ≤ n) && decide (n ≤ 32767)

/-- The check of R55: an immediate that does not fit its field is refused. -/
def Instr.wf : Instr → Bool
  | .setclk _ => true
  | .setdio _ => true
  | .setdir _ _ => true
  | .wait => true
  | .sample => true
  | .start => true
  | .stop => true
  | .wrbyte _ => true
  | .sendcmd _ => true
  | .encode _ => true
  | .init _ bri => isInt16 bri
  | .dseg _ _ => true
  | .dchar _ _ => true
  | .dcolon _ => true
  | .dstr _ _ _ _ => true
  | .dint n => isInt16 n
  | .clear => true
  | .enable _ => true
  | .setbri v => isInt16 v

end Sys2Proof
end

