-- ==== Sys2Proof/Decode.lean ====
section
/-! DEFINITION. The encoding of spec/30_encoding.md: the opcode map of R51, the decoder (total on any list of words,
rejecting by name) and the encoder, both written from that map; and the one pseudo-instruction, TXN (R56). -/

namespace Sys2Proof

/-- One row of the opcode map R51: `pattern` is the spec's "match". -/
structure Row where
  opc : Byte
  family : Family
  pattern : Word
  mask : Word
  words : Nat
  deriving DecidableEq, Repr

/-- The opcode map of R51. -/
def Mnemonic.row : Mnemonic → Row
  | .SETCLK => ⟨0x01, .line, 0x01000000, 0xFFFFFFFE, 1⟩
  | .SETDIO => ⟨0x02, .line, 0x02000000, 0xFFFFFFFE, 1⟩
  | .SETDIR => ⟨0x03, .line, 0x03000000, 0xFFFEFFFE, 1⟩
  | .WAIT => ⟨0x04, .line, 0x04000000, 0xFFFFFFFF, 1⟩
  | .SAMPLE => ⟨0x05, .line, 0x05000000, 0xFFFFFFFF, 1⟩
  | .START => ⟨0x10, .transport, 0x10000000, 0xFFFFFFFF, 1⟩
  | .STOP => ⟨0x11, .transport, 0x11000000, 0xFFFFFFFF, 1⟩
  | .WRBYTE => ⟨0x12, .transport, 0x12000000, 0xFFFFFF00, 1⟩
  | .SENDCMD => ⟨0x13, .transport, 0x13000000, 0xFFFFFF00, 1⟩
  | .ENCODE => ⟨0x20, .encoder, 0x20000000, 0xFFFFFF00, 1⟩
  | .INIT => ⟨0x30, .driver, 0x30000000, 0xFFFE0000, 1⟩
  | .DSEG => ⟨0x31, .driver, 0x31000000, 0xFF00FF00, 1⟩
  | .DCHAR => ⟨0x32, .driver, 0x32000000, 0xFF00FF00, 1⟩
  | .DCOLON => ⟨0x33, .driver, 0x33000000, 0xFFFFFFFE, 1⟩
  | .DSTR => ⟨0x34, .driver, 0x34000000, 0xFFFFFFFF, 2⟩
  | .DINT => ⟨0x35, .driver, 0x35000000, 0xFFFF0000, 1⟩
  | .CLEAR => ⟨0x36, .driver, 0x36000000, 0xFFFFFFFF, 1⟩
  | .ENABLE => ⟨0x37, .driver, 0x37000000, 0xFFFFFFFE, 1⟩
  | .SETBRI => ⟨0x38, .driver, 0x38000000, 0xFFFF0000, 1⟩

/-- The row an operation code selects (R51); every other code is unassigned (R54). -/
def Mnemonic.ofOpc (opc : Byte) : Option Mnemonic :=
  match opc.toNat with
  | 0x01 => some .SETCLK
  | 0x02 => some .SETDIO
  | 0x03 => some .SETDIR
  | 0x04 => some .WAIT
  | 0x05 => some .SAMPLE
  | 0x10 => some .START
  | 0x11 => some .STOP
  | 0x12 => some .WRBYTE
  | 0x13 => some .SENDCMD
  | 0x20 => some .ENCODE
  | 0x30 => some .INIT
  | 0x31 => some .DSEG
  | 0x32 => some .DCHAR
  | 0x33 => some .DCOLON
  | 0x34 => some .DSTR
  | 0x35 => some .DINT
  | 0x36 => some .CLEAR
  | 0x37 => some .ENABLE
  | 0x38 => some .SETBRI
  | _ => none

/-- The row of each op. -/
def Instr.mnemonic : Instr → Mnemonic
  | .setclk _ => .SETCLK
  | .setdio _ => .SETDIO
  | .setdir _ _ => .SETDIR
  | .wait => .WAIT
  | .sample => .SAMPLE
  | .start => .START
  | .stop => .STOP
  | .wrbyte _ => .WRBYTE
  | .sendcmd _ => .SENDCMD
  | .encode _ => .ENCODE
  | .init _ _ => .INIT
  | .dseg _ _ => .DSEG
  | .dchar _ _ => .DCHAR
  | .dcolon _ => .DCOLON
  | .dstr _ _ _ _ => .DSTR
  | .dint _ => .DINT
  | .clear => .CLEAR
  | .enable _ => .ENABLE
  | .setbri _ => .SETBRI

/-- Field `OPC = W[31:24]` (R48). -/
def opcField (w : Word) : Byte := w.extractLsb' 24 8
/-- Field `A = W[23:16]` (R48). -/
def aField (w : Word) : Byte := w.extractLsb' 16 8
/-- Field `B = W[15:0]` (R48). -/
def bField (w : Word) : BitVec 16 := w.extractLsb' 0 16
/-- Operand form `v`, `B[0]` (R50). -/
def bitOperand (w : Word) : Bool := (bField w).getLsbD 0
/-- Operand form `line`, `A[0]`: 0 = CLK, 1 = DIO (R50). -/
def lineOperand (w : Word) : Line := if (aField w).getLsbD 0 then .dio else .clk
/-- Operand form `dir`, `B[0]`: 1 = OUT, 0 = IN (R50). -/
def dirOperand (w : Word) : Dir := if (bField w).getLsbD 0 then .out else .inp
/-- Operand form `byte`, `B[7:0]` (R50). -/
def byteOperand (w : Word) : Byte := (bField w).extractLsb' 0 8
/-- Operand form `pos`, `A[7:0]`, not yet masked (R50). -/
def posOperand (w : Word) : Byte := aField w
/-- Operand form `en`, `A[0]` (R50). -/
def enOperand (w : Word) : Bool := (aField w).getLsbD 0
/-- Operand form `int16`, `sext_16(B[15:0])` as an integer (R50). -/
def int16Operand (w : Word) : Int := (bField w).toInt
/-- Character lane k of the extension word: `E[8k+7:8k]` (R49, R50). -/
def strLane (e : Word) (k : Nat) : Byte := e.extractLsb' (8 * k) 8

/-- The op of a row, its operands assembled from word 0 and, for DSTR, the extension word (R50). -/
def Mnemonic.instr (m : Mnemonic) (w e : Word) : Instr :=
  match m with
  | .SETCLK => .setclk (bitOperand w)
  | .SETDIO => .setdio (bitOperand w)
  | .SETDIR => .setdir (lineOperand w) (dirOperand w)
  | .WAIT => .wait
  | .SAMPLE => .sample
  | .START => .start
  | .STOP => .stop
  | .WRBYTE => .wrbyte (byteOperand w)
  | .SENDCMD => .sendcmd (byteOperand w)
  | .ENCODE => .encode (byteOperand w)
  | .INIT => .init (enOperand w) (int16Operand w)
  | .DSEG => .dseg (posOperand w) (byteOperand w)
  | .DCHAR => .dchar (posOperand w) (byteOperand w)
  | .DCOLON => .dcolon (bitOperand w)
  | .DSTR => .dstr (strLane e 0) (strLane e 1) (strLane e 2) (strLane e 3)
  | .DINT => .dint (int16Operand w)
  | .CLEAR => .clear
  | .ENABLE => .enable (bitOperand w)
  | .SETBRI => .setbri (int16Operand w)

/-- Why a list of words starts with no op: it is empty, its first word is illegal (R53, R54), or it is a DSTR
whose extension word is missing (R52). -/
inductive DecodeError where
  | empty
  | illegal (w : Word)
  | truncated (w : Word)
  deriving DecidableEq, Repr

/-- The row word 0 selects: its OPC is assigned and no reserved bit is set, that is `W & mask == match`
(R51, R53, R54). -/
def selectRow (w : Word) : Option Mnemonic :=
  match Mnemonic.ofOpc (opcField w) with
  | none => none
  | some m => if w &&& m.row.mask = m.row.pattern then some m else none

/-- The op at the head of a list of words, with the words after it, or why there is none. The order of the checks
is that of R61: ILLEGAL_OP, then TRUNCATED. -/
def decode : List Word → Except DecodeError (Instr × List Word)
  | [] => .error .empty
  | w :: rest =>
    match selectRow w with
    | none => .error (.illegal w)
    | some m =>
      if m.row.words = 2 then
        match rest with
        | [] => .error (.truncated w)
        | e :: rest' => .ok (m.instr w e, rest')
      else .ok (m.instr w 0, rest)

/-- The operation word of the three fields of R48. -/
def opWord (opc a : Byte) (b : BitVec 16) : Word := opc ++ a ++ b

/-- A bit operand in a 16-bit `B` field: bits 15 to 1 are zero. -/
def bitB (v : Bool) : BitVec 16 := (0 : BitVec 15) ++ BitVec.ofBool v
/-- A bit operand in an 8-bit `A` field: bits 7 to 1 are zero. -/
def bitA (v : Bool) : Byte := (0 : BitVec 7) ++ BitVec.ofBool v
/-- A byte operand in a 16-bit `B` field: bits 15 to 8 are zero. -/
def byteB (v : Byte) : BitVec 16 := (0 : Byte) ++ v
/-- The bit of a line: 0 = CLK, 1 = DIO (R50). -/
def Line.bit : Line → Bool
  | .clk => false
  | .dio => true
/-- The bit of a direction: 1 = OUT, 0 = IN (R50). -/
def Dir.bit : Dir → Bool
  | .out => true
  | .inp => false

/-- Word 0 of an op (R48, R50, R51). -/
def encodeWord0 : Instr → Word
  | .setclk v => opWord 0x01 0 (bitB v)
  | .setdio v => opWord 0x02 0 (bitB v)
  | .setdir l d => opWord 0x03 (bitA l.bit) (bitB d.bit)
  | .wait => opWord 0x04 0 0
  | .sample => opWord 0x05 0 0
  | .start => opWord 0x10 0 0
  | .stop => opWord 0x11 0 0
  | .wrbyte b => opWord 0x12 0 (byteB b)
  | .sendcmd b => opWord 0x13 0 (byteB b)
  | .encode c => opWord 0x20 0 (byteB c)
  | .init en bri => opWord 0x30 (bitA en) (BitVec.ofInt 16 bri)
  | .dseg pos pat => opWord 0x31 pos (byteB pat)
  | .dchar pos c => opWord 0x32 pos (byteB c)
  | .dcolon v => opWord 0x33 0 (bitB v)
  | .dstr _ _ _ _ => opWord 0x34 0 0
  | .dint n => opWord 0x35 0 (BitVec.ofInt 16 n)
  | .clear => opWord 0x36 0 0
  | .enable v => opWord 0x37 0 (bitB v)
  | .setbri v => opWord 0x38 0 (BitVec.ofInt 16 v)

/-- The extension word of four character lanes (R49). -/
def extWord (c0 c1 c2 c3 : Byte) : Word := c3 ++ c2 ++ c1 ++ c0

/-- The words of an op: DSTR has two (R49), every other op one (R52). -/
def encode : Instr → List Word
  | .dstr c0 c1 c2 c3 => [encodeWord0 (.dstr c0 c1 c2 c3), extWord c0 c1 c2 c3]
  | i => [encodeWord0 i]

/-- TXN b0, ..., bk (R56): START, one WRBYTE per byte, STOP. The first byte is apart, since k >= 0. -/
def txn (b0 : Byte) (bs : List Byte) : List Instr :=
  .start :: ((b0 :: bs).map Instr.wrbyte ++ [.stop])

/-- Words 0 and 1 of an instruction whose bits are `w`, numbered as spec/opcode_table.json numbers them, every bit
above `nbits` zero. -/
def tableWords (nbits w : Nat) : List Word :=
  [BitVec.ofNat 32 (w % 2 ^ nbits), BitVec.ofNat 32 (w % 2 ^ nbits / 2 ^ 32)]

/-- The instruction the decoder reads from those words. -/
def decodeTableWord (nbits w : Nat) : Option Instr :=
  match decode (tableWords nbits w) with
  | .ok (i, _) => some i
  | .error _ => none

end Sys2Proof
end

