-- ==== Sys2Proof/Config.lean ====
section
/-! DEFINITION. What the spec leaves open: the named parameters of R5 (a record the launch of a run fixes, `Launch`),
and the constants that have no body, so that nothing can be proved of their values: the parameters' values at
`State.reset`, the power-on draws of R29 and the draws of R7 (`Draw`). -/

namespace Sys2Proof

/-- The OPEN parameters of spec/00_scope.md R5 and the launch parameter of R103, fixed for a whole run. State carries
them as plain data that no op writes, so that a statement over every state is a statement over every value of every
parameter (assumption log 3). The letter and punctuation patterns are held at 7 bits, because the spec requires bit 7
of each of them to be clear (R78, R79, D9). -/
structure Launch where
  /-- `EXT_PULLUP` (R5, R18): an external pull-up holds DIO high when nothing drives it. -/
  extPullup : Bool
  /-- `IRQ_MASKED_DURING_OPS` (R103): no interrupt agent starts an op while a foreground op runs. -/
  irqMasked : Bool
  /-- `LETTER_PATTERN` (R78): the pattern of each of the 26 letters, bit 7 clear. -/
  letterPattern : Vector (BitVec 7) 26
  /-- `PUNCT_EQ` (R79), bit 7 clear. -/
  punctEq : BitVec 7
  /-- `PUNCT_APOS` (R79), bit 7 clear. -/
  punctApos : BitVec 7
  /-- `PUNCT_COMMA` (R79), bit 7 clear. -/
  punctComma : BitVec 7
  /-- `T_DELAY` (R5, R130), in an unspecified unit of time. -/
  tDelay : Nat
  /-- `T_MIN` (R5, R126), in the same unit. -/
  tMin : Nat
  deriving DecidableEq, Repr

/-- `EXT_PULLUP` of the machine that `State.reset` describes (R5: OPEN). -/
opaque Config.extPullup : Bool
/-- `IRQ_MASKED_DURING_OPS` of the machine that `State.reset` describes (R103: OPEN). -/
opaque Config.irqMasked : Bool
/-- `LETTER_PATTERN` of the machine that `State.reset` describes (R78: OPEN). -/
opaque Config.letterPattern : Vector (BitVec 7) 26
/-- `PUNCT_EQ` (R79: OPEN). -/
opaque Config.punctEq : BitVec 7
/-- `PUNCT_APOS` (R79: OPEN). -/
opaque Config.punctApos : BitVec 7
/-- `PUNCT_COMMA` (R79: OPEN). -/
opaque Config.punctComma : BitVec 7
/-- `T_DELAY` is a positive duration (R5): this is `T_DELAY - 1`. -/
opaque Config.tDelayPred : Nat
/-- `T_MIN` is a positive duration (R5): this is `T_MIN - 1`. -/
opaque Config.tMinPred : Nat

/-- The parameters of the machine that `State.reset` describes. -/
def Config.launch : Launch where
  extPullup := Config.extPullup
  irqMasked := Config.irqMasked
  letterPattern := Config.letterPattern
  punctEq := Config.punctEq
  punctApos := Config.punctApos
  punctComma := Config.punctComma
  tDelay := Config.tDelayPred + 1
  tMin := Config.tMinPred + 1

/-- The power-on draw of `CLK_OUT` (R29: "Draw (any bit)"). -/
opaque Config.powerOnClkOut : Bool
/-- The power-on draw of `DIO_OUT` (R29: "Draw (any bit)"). -/
opaque Config.powerOnDioOut : Bool
/-- The power-on content of `RX_SHIFT` (R29: `UNKNOWN`, every value of the width is possible). -/
opaque Config.powerOnShift : Byte
/-- The power-on content of the part of `CFG_EN` a rule could read while it is `UNWRITTEN` (no run does). -/
opaque Config.unwrittenCfgEn : Bool
/-- The same for `CFG_BRI`. -/
opaque Config.unwrittenCfgBri : BitVec 3
/-- The same for `COLON_CACHE`. -/
opaque Config.unwrittenColon : Byte
/-- What an op stream holds past its end: nothing, so any word (no run reads it). -/
opaque Config.noWord : Word
/-- `Draw(ack)` of R112: whether the receiver acknowledges its n-th byte, where the run's own record of the receiver's
answers (`Rx.ackPlan`) has ended. -/
opaque Config.freeAck : Nat → Bool
/-- `Draw(sample)` of R66: the bit the n-th read of a `FLOAT` or `UNKNOWN` line gives, where the run's own record of
such reads (`State.smpTape`) has ended. -/
opaque Config.freeSample : Nat → Bool

end Sys2Proof
end

