-- ==== Sys2Proof/Machine/State.lean ====
section
/-! DEFINITION. The state of the block (spec/10_state.md, R10 to R29), the receiver's state included, and its value at
power-on. A field of type `Option` is one the spec itself gives a mark to: `none` is `UNWRITTEN` (R11) for a register
of the host side and `UNKNOWN` (R11) for an element of the receiver. -/

namespace Sys2Proof.Machine

/-- A bus level (R11, R18). -/
inductive Level where
  | bit (b : Bool)
  | float
  | unknown
  deriving DecidableEq, Repr

/-- A primitive event of the trace (R7, R8). -/
inductive Event where
  | lat (l : Line) (v : Bool)
  | dir (l : Line) (d : Dir)
  | wait
  | smp (v : Bool)
  deriving DecidableEq, Repr

/-- A derived event of the receiver (R8; the receiver log of spec/95_test_vectors.md). -/
inductive RxEvent where
  /-- A start condition (R111). -/
  | start
  /-- A stop condition, inside a frame or outside one (R111). -/
  | stop
  /-- A completed byte and whether the receiver acknowledged it (R112). -/
  | byte (b : Byte) (acked : Bool)
  /-- A desynchronisation (R114). -/
  | desync
  deriving DecidableEq, Repr

/-- `RX_PHASE` (R28). -/
inductive RxPhase where
  | data
  | ack
  deriving DecidableEq, Repr

/-- `RX_CMD` (R28): the kind of the transaction's first byte. -/
inductive RxCmd where
  | none
  | data
  | addr
  | ctrl
  deriving DecidableEq, Repr

/-- The known values of `RX_MODE` (R28). -/
inductive RxMode where
  | autoinc
  | fixed
  deriving DecidableEq, Repr

/-- How the receiver answers the bytes to come. The acknowledge of each byte is a `Draw` (R112, D30). -/
inductive AckPlan where
  /-- The launch premise `RX_ALWAYS_ACKS`: every draw is true. -/
  | always
  /-- Any answers: these first, and after them draws of which nothing is known (`Config.freeAck`). -/
  | tape (answers : List Bool)
  deriving DecidableEq, Repr

/-- The receiver (R28): an external agent that only the wire changes. The last four fields are the model's own:
its derived events (R8), each with the number of the receiver step that made it, the answers to come, and two counts. -/
structure Rx where
  /-- `RX_SYNC`. -/
  sync : Bool
  /-- `RX_FRAME`. -/
  frame : Bool
  /-- `RX_PHASE`. -/
  phase : RxPhase
  /-- `RX_BITS`, 0 to 8. -/
  bits : Nat
  /-- `RX_SHIFT`. -/
  shift : Byte
  /-- `RX_ACKED`. -/
  acked : Bool
  /-- `RX_DRV`. -/
  drv : Bool
  /-- `RX_NBYTE`. -/
  nbyte : Nat
  /-- `RX_CMD`. -/
  cmd : RxCmd
  /-- `RX_MODE`, or `UNKNOWN`. -/
  mode : Option RxMode
  /-- `RX_PTR`, 0 to 8, or `UNKNOWN`. -/
  ptr : Option Nat
  /-- `DISP[0..3]`, each a pattern or `UNKNOWN`. -/
  disp : Vector (Option Byte) 4
  /-- `DCTRL_EN`, or `UNKNOWN`. -/
  dctrlEn : Option Bool
  /-- `DCTRL_BRI`, or `UNKNOWN`. -/
  dctrlBri : Option (BitVec 3)
  /-- `RX_PCLK`. -/
  pclk : Level
  /-- `RX_PDIO`. -/
  pdio : Level
  /-- The receiver's derived events, newest first, each with the number of the step that made it (`Rx.log` reads them
  in order). -/
  logRev : List (Nat × RxEvent)
  /-- How many steps the receiver has taken: one after each host event (R110). -/
  steps : Nat
  /-- The receiver's answers to the bytes to come. -/
  ackPlan : AckPlan
  /-- How many acknowledges have been drawn. -/
  ackDraws : Nat
  deriving DecidableEq, Repr

/-- A host agent (R103): its op stream (R34) and its `OPIDX` (R13). -/
structure Agent where
  stream : List Word
  opidx : Nat
  deriving DecidableEq, Repr

/-- The fault codes of R99. -/
inductive FaultCode where
  | illegalOp
  | truncated
  | reentrant
  | notInitialised
  | initTwice
  | linesNotOutput
  | unencodable
  deriving DecidableEq, Repr

/-- `FAULT` when it is not `NONE` (R27, R101), with the information R99 says each fault records. -/
structure FaultRecord where
  code : FaultCode
  agent : Nat
  opidx : Nat
  word : Word
  info : Word
  deriving DecidableEq, Repr

/-- One decision of the scheduler (R103): start the next op of agent `g`, or go on without choosing one. -/
inductive Turn where
  | proceed
  | agent (g : Nat)
  deriving DecidableEq, Repr

/-- The state of the machine. The fields up to `traceRev` are the spec's; the last six are the model's own: the
parameters of R5, the agent whose op runs, whether that op has recorded its first event, and the record of what the
spec leaves to the scheduler (R103) and to draws (R66). -/
structure State where
  /-- `CLK_OUT` (R14). -/
  clkOut : Bool
  /-- `DIO_OUT` (R15). -/
  dioOut : Bool
  /-- `CLK_DIR` (R16), or `UNWRITTEN`. -/
  clkDir : Option Dir
  /-- `DIO_DIR` (R17), or `UNWRITTEN`. -/
  dioDir : Option Dir
  /-- `ACK` (R19), or `UNWRITTEN`. -/
  ack : Option Bool
  /-- `SMP` (R20), or `UNWRITTEN`. -/
  smp : Option Bool
  /-- `PAT` (R21), or `UNWRITTEN`. -/
  pat : Option Byte
  /-- `CFG_EN` (R22), or `UNWRITTEN`. -/
  cfgEn : Option Bool
  /-- `CFG_BRI` (R23), or `UNWRITTEN`. -/
  cfgBri : Option (BitVec 3)
  /-- `COLON_CACHE` (R24), or `UNWRITTEN`. -/
  colonCache : Option Byte
  /-- `INITED` (R25). -/
  inited : Bool
  /-- `BUSY` (R26). -/
  busy : Bool
  /-- `FAULT` (R27): `none` is `NONE`. -/
  fault : Option FaultRecord
  /-- The foreground agent (R103), agent 0. -/
  fg : Agent
  /-- The interrupt agents (R103): the k-th of this list is agent k + 1. -/
  irqs : List Agent
  /-- The receiver (R28). -/
  rx : Rx
  /-- The event trace (R8), newest first (`State.trace` reads it in order). -/
  traceRev : List Event
  /-- The parameters of the machine (R5); no op writes them. -/
  launch : Launch
  /-- The agent whose op is running, or ran last: the `g` of R61. -/
  cur : Nat
  /-- The running op has recorded an event, so that what follows is between two micro-steps (R103). -/
  midOp : Bool
  /-- The scheduler's decisions to come (R103); what it decides after them is in assumption log 5. -/
  sched : List Turn
  /-- What the next reads of a floating line give (R66); after them, `Config.freeSample`. -/
  smpTape : List Bool
  /-- How many reads of a floating line have been made. -/
  smpDraws : Nat
  deriving DecidableEq, Repr

/-- Why a step is not taken. Both are the spec's own "no step" (R61, R101, R105); neither is an instruction's. -/
inductive Fault where
  /-- Raised by `step` where `FAULT != NONE`: "While `FAULT != NONE` no agent takes a step" (R27). Safe: the machine
  stops here in the spec too. -/
  | stopped (r : FaultRecord)
  /-- Raised by `step` where every agent's `OPIDX` has reached the length of its stream and `FAULT = NONE`: the
  successful end of the run (R105). Safe: the machine takes no step here in the spec either. -/
  | ended
  deriving DecidableEq, Repr

/-- Why an op has no meaning. -/
inductive Refusal where
  /-- An op this model does not give a meaning. No arm of `exec` answers it. Safe. -/
  | notModelled (mnemonic : String)
  deriving DecidableEq, Repr

/-- The receiver's derived events in the order they happened (R8). -/
def Rx.log (rx : Rx) : List (Nat × RxEvent) := rx.logRev.reverse

/-- The event trace in the order the block performed the events (R8). -/
def State.trace (s : State) : List Event := s.traceRev.reverse

/-- The receiver at power-on (R29). -/
def Rx.reset : Rx where
  sync := false
  frame := false
  phase := .data
  bits := 0
  shift := Config.powerOnShift
  acked := false
  drv := false
  nbyte := 0
  cmd := .none
  mode := none
  ptr := none
  disp := Vector.replicate 4 none
  dctrlEn := none
  dctrlBri := none
  pclk := .unknown
  pdio := .unknown
  logRev := []
  steps := 0
  ackPlan := .tape []
  ackDraws := 0

/-- The machine at power-on (R29, R117): no agent has a stream yet (assumption log 1). -/
def State.reset : State where
  clkOut := Config.powerOnClkOut
  dioOut := Config.powerOnDioOut
  clkDir := none
  dioDir := none
  ack := none
  smp := none
  pat := none
  cfgEn := none
  cfgBri := none
  colonCache := none
  inited := false
  busy := false
  fault := none
  fg := ⟨[], 0⟩
  irqs := []
  rx := Rx.reset
  traceRev := []
  launch := Config.launch
  cur := 0
  midOp := false
  sched := []
  smpTape := []
  smpDraws := 0

end Sys2Proof.Machine
end

