-- ==== Sys2Proof/Machine/Operands.lean ====
section
/-! DEFINITION. What the ops compute from their operands: the encoder table (R75 to R80, R33), brightness clamping
(R83), position masking (R84), integer formatting (R85), the strings of DSTR (R49, R93) and the command bytes of the
device (R57 to R59). -/

namespace Sys2Proof.Machine

/-- `DIGIT_PATTERN` (R77), digit 0 first. -/
def digitPatterns : Vector Byte 10 :=
  #v[0x3F, 0x06, 0x5B, 0x4F, 0x66, 0x6D, 0x7D, 0x07, 0x7F, 0x6F]

/-- A pattern whose bit 7 is clear (R78, R79, D9). -/
def clearBit7 (p : BitVec 7) : Byte := (0 : BitVec 1) ++ p

/-- `LETTER_PATTERN(k)` as a table entry (R78). -/
def letterEntry (l : Launch) (k : Fin 26) : Byte := clearBit7 l.letterPattern[k]

/-- The encoder table `ROM` (R80): `none` is `INVALID`. -/
def rom (l : Launch) (c : Byte) : Option Byte :=
  if h : 0x30 ≤ c.toNat ∧ c.toNat ≤ 0x39 then some (digitPatterns[c.toNat - 0x30]'(by omega))
  else if h : 0x61 ≤ c.toNat ∧ c.toNat ≤ 0x7A then some (letterEntry l ⟨c.toNat - 0x61, by omega⟩)
  else if h : 0x41 ≤ c.toNat ∧ c.toNat ≤ 0x5A then some (letterEntry l ⟨c.toNat - 0x41, by omega⟩)
  else if c = 0x20 then some 0x00
  else if c = 0x2D then some 0x40
  else if c = 0x5F then some 0x08
  else if c = 0x3D then some (clearBit7 l.punctEq)
  else if c = 0x27 then some (clearBit7 l.punctApos)
  else if c = 0x2C then some (clearBit7 l.punctComma)
  else none

/-- `TableRead` for each of a list of characters, in order: the patterns, or the first character whose entry is
`INVALID` (R33, R93). -/
def romAll (l : Launch) : List Byte → Except Byte (List Byte)
  | [] => .ok []
  | c :: cs =>
    match rom l c with
    | none => .error c
    | some p =>
      match romAll l cs with
      | .error e => .error e
      | .ok ps => .ok (p :: ps)

/-- `Clamp` (R83). -/
def clamp (v : Int) : BitVec 3 :=
  if v < 0 then 0 else if v > 7 then 7 else BitVec.ofInt 3 v

/-- `Mask` (R84). -/
def maskPos (pos : Byte) : Byte := pos &&& 0x03

/-- The character of a decimal digit. -/
def digitChar (d : Nat) : Byte := BitVec.ofNat 8 (0x30 + d)

/-- The digit loop of R85 on `m`, with `free` positions still blank at the left: R85's `i` is `free - 1`. The result
is the string and the number of positions left blank. `fuel` bounds the digits; the four of R85 need 4. -/
def formatDigits : (fuel m free : Nat) → List Byte → List Byte × Nat
  | 0, _, free, s => (s, free)
  | fuel + 1, m, free, s =>
    let s' := s.set (free - 1) (digitChar (m % 10))
    if m / 10 = 0 then (s', free - 1) else formatDigits fuel (m / 10) (free - 1) s'

/-- `FormatInt` (R85): four characters, the leftmost first. -/
def formatInt (n : Int) : List Byte :=
  if n > 9999 then [0x45, 0x39, 0x39, 0x39]
  else if n < -999 then [0x45, 0x2D, 0x39, 0x39]
  else
    let r := formatDigits 4 n.natAbs 4 [0x20, 0x20, 0x20, 0x20]
    if n < 0 then r.1.set (r.2 - 1) 0x2D else r.1

/-- The characters DSTR shows (R93): from the first 0x00 on, blanks. -/
def padString : List Byte → List Byte
  | [] => []
  | c :: cs => if c = 0x00 then (c :: cs).map (fun _ => 0x20) else c :: padString cs

/-- `DATA_AUTOINC` (R57). -/
def dataAutoinc : Byte := 0x40

/-- `ADDR(p)` (R58). -/
def addrByte (p : Byte) : Byte := 0xC0 ||| p

/-- `CTRL(e, b)` (R59). -/
def ctrlByte (e : Bool) (b : BitVec 3) : Byte :=
  0x80 ||| ((BitVec.ofBool e).zeroExtend 8 <<< 3) ||| b.zeroExtend 8

/-- The pattern DCHAR sends (R87): at position 1, on the operand before masking, the cached colon bit is merged in. -/
def withColon (pos pat cache : Byte) : Byte := if pos = 1 then pat ||| (cache &&& 0x80) else pat

/-- The cache after DCOLON (R92): bit 7 is the operand, bits 6 to 0 stay. -/
def colonSet (cache : Byte) (on : Bool) : Byte := (cache &&& 0x7F) ||| ((BitVec.ofBool on).zeroExtend 8 <<< 7)

end Sys2Proof.Machine
end

