-- ==== Sys2Proof/Machine/Flags.lean ====
section
/-! DEFINITION. The bus levels (R18) and the two flags the block computes: `ACK` (R19) and the level a read of the
data line gives (R20, R66). The block has no other flag (spec/10_state.md, after R21). -/

namespace Sys2Proof.Machine

/-- `CLK_BUS` (R18). -/
def clkLevel (dir : Option Dir) (out : Bool) : Level :=
  match dir with
  | some .out => .bit out
  | some .inp => .unknown
  | none => .unknown

/-- `DIO_BUS` (R18). -/
def dioLevel (dir : Option Dir) (out drv extPullup : Bool) : Level :=
  match dir with
  | none => .unknown
  | some .out => if drv && out then .float else if drv then .bit false else .bit out
  | some .inp => if drv then .bit false else if out then .bit true else if extPullup then .bit true else .float

/-- `CLK_BUS` of a state. -/
def State.clkBus (s : State) : Level := clkLevel s.clkDir s.clkOut

/-- `DIO_BUS` of a state. -/
def State.dioBus (s : State) : Level := dioLevel s.dioDir s.dioOut s.rx.drv s.launch.extPullup

/-- `ACK <- (s == 0)` (R19). -/
def ackOf (sampled : Bool) : Bool := !sampled

/-- Both lines are outputs: the condition of R61 and R67. -/
def State.linesOut (s : State) : Bool := decide (s.clkDir = some .out) && decide (s.dioDir = some .out)

end Sys2Proof.Machine
end

