-- ==== Sys2Proof/Machine/Receiver.lean ====
section
/-! DEFINITION. The receiving device (spec/60_exceptions.md, R110 to R114): an external agent whose only input is the
bus levels after each host event. -/

namespace Sys2Proof.Machine

/-- Records a derived event (R8) at the receiver's current step. -/
def Rx.note (rx : Rx) (e : RxEvent) : Rx := { rx with logRev := (rx.steps, e) :: rx.logRev }

/-- `RxDesync` (R114). -/
def Rx.desync (rx : Rx) : Rx :=
  { rx.note .desync with
    sync := false, frame := false, phase := .data, bits := 0, nbyte := 0, cmd := .none, drv := false,
    mode := none, ptr := none, disp := Vector.replicate 4 none, dctrlEn := none, dctrlBri := none }

/-- `RxStart` (R111). -/
def Rx.start (rx : Rx) : Rx :=
  { rx.note .start with
    sync := true, frame := true, phase := .data, bits := 0, nbyte := 0, cmd := .none, drv := false }

/-- `RxStop` (R111): outside a frame it does nothing. -/
def Rx.stop (rx : Rx) : Rx :=
  if rx.frame then { rx.note .stop with frame := false, phase := .data, bits := 0, drv := false }
  else rx.note .stop

/-- `RX_SHIFT[k] <- v` (R112): bit k of the byte being received. -/
def setShiftBit (shift : Byte) (k : Nat) (v : Bool) : Byte :=
  (shift &&& ~~~((1 : Byte) <<< k)) ||| ((BitVec.ofBool v).zeroExtend 8 <<< k)

/-- `RxRise` (R112): a data bit is taken at the rising clock edge, least significant first. -/
def Rx.rise (rx : Rx) (dio : Level) : Rx :=
  if rx.frame && decide (rx.phase = .data) && decide (rx.bits < 8) then
    match dio with
    | .bit b => { rx with shift := setShiftBit rx.shift rx.bits b, bits := rx.bits + 1 }
    | .float => rx.desync
    | .unknown => rx.desync
  else rx

/-- `Draw(ack)` (R112): the receiver's answer to its n-th byte. -/
def AckPlan.answer (p : AckPlan) (n : Nat) : Bool :=
  match p with
  | .always => true
  | .tape (a :: _) => a
  | .tape [] => Config.freeAck n

/-- Whether the receiver acknowledges this byte (R112). -/
def Rx.ackDraw (rx : Rx) : Bool := rx.ackPlan.answer rx.ackDraws

/-- The receiver's answers after one draw. -/
def AckPlan.rest : AckPlan → AckPlan
  | .always => .always
  | .tape (_ :: as) => .tape as
  | .tape [] => .tape []

/-- `RxByte`, the command byte of a frame (R113). -/
def Rx.commandByte (rx : Rx) (b : Byte) : Rx :=
  if b = 0x40 then { rx with mode := some .autoinc, cmd := .data, nbyte := rx.nbyte + 1 }
  else if b = 0x44 then { rx with mode := some .fixed, cmd := .data, nbyte := rx.nbyte + 1 }
  else if b &&& 0xF8 = 0xC0 then
    match rx.mode with
    | none => rx.desync
    | some _ => { rx with ptr := some (b &&& 0x07).toNat, cmd := .addr, nbyte := rx.nbyte + 1 }
  else if b &&& 0xF0 = 0x80 then
    { rx with dctrlEn := some (b.getLsbD 3), dctrlBri := some (b.extractLsb' 0 3), cmd := .ctrl,
              nbyte := rx.nbyte + 1 }
  else rx.desync

/-- The pointer after a data byte at `p` (R113). -/
def Rx.nextPtr (rx : Rx) (p : Nat) : Nat := if rx.mode = some .autoinc then p + 1 else p

/-- `RxByte`, a data byte of a frame (R113): positions 0 to 3 take it, 4 and 5 exist and show nothing. -/
def Rx.dataByte (rx : Rx) (b : Byte) : Rx :=
  if rx.cmd = .addr then
    match rx.ptr with
    | none => rx.desync
    | some p =>
      if h : p < 4 then
        { rx with disp := rx.disp.set p (some b), ptr := some (rx.nextPtr p), nbyte := rx.nbyte + 1 }
      else if p ≤ 5 then { rx with ptr := some (rx.nextPtr p), nbyte := rx.nbyte + 1 }
      else rx.desync
  else rx.desync

/-- `RxByte` (R113): what a complete byte does. -/
def Rx.byte (rx : Rx) (b : Byte) (acked : Bool) : Rx :=
  if acked then (if rx.nbyte = 0 then rx.commandByte b else rx.dataByte b) else rx.desync

/-- `RxFall` (R112): the acknowledge is driven from the falling edge after the eighth bit to the falling edge of the
ninth clock, at which the byte is interpreted. -/
def Rx.fall (rx : Rx) : Rx :=
  if rx.frame && decide (rx.phase = .data) && decide (rx.bits = 8) then
    { rx with acked := rx.ackDraw, drv := rx.ackDraw, phase := .ack,
              ackPlan := rx.ackPlan.rest, ackDraws := rx.ackDraws + 1 }
  else if rx.frame && decide (rx.phase = .ack) then
    Rx.byte ({ rx with drv := false, bits := 0, phase := .data }.note (.byte rx.shift rx.acked)) rx.shift rx.acked
  else rx

/-- The part of `RxLevels` (R111) for a synchronised receiver, after the checks for `FLOAT` and `UNKNOWN`. -/
def Rx.edges (rx : Rx) (clk dio : Level) : Rx :=
  if rx.pclk = .bit true ∧ clk = .bit true then
    if rx.pdio = .bit true ∧ dio = .bit false then rx.start
    else if rx.pdio = .bit false ∧ dio = .bit true then rx.stop
    else rx
  else if clk = .bit true then rx.rise dio
  else if rx.pclk = .bit true ∧ clk = .bit false then rx.fall
  else rx

/-- `RxLevels` (R111). -/
def Rx.levels (rx : Rx) (clk dio : Level) : Rx :=
  if clk = .unknown then rx.desync
  else if rx.sync = false then
    if rx.pclk = .bit true ∧ clk = .bit true ∧ rx.pdio = .bit true ∧ dio = .bit false then rx.start else rx
  else if clk = .bit true ∧ (dio = .float ∨ dio = .unknown) then rx.desync
  else rx.edges clk dio

/-- `RxStep` (R110): one step of the receiver on the bus levels after a host event. `RX_PDIO` takes the level
after `RX_DRV` may have changed. -/
def rxStep (s : State) : State :=
  let rx := { s.rx with steps := s.rx.steps + 1 }.levels s.clkBus s.dioBus
  { s with rx := { rx with pclk := s.clkBus, pdio := dioLevel s.dioDir s.dioOut rx.drv s.launch.extPullup } }

end Sys2Proof.Machine
end

