-- ==== Sys2Proof/Machine/Ops.lean ====
section
/-! DEFINITION. The operations every op shares: the agents and their op streams (R13, R34, R103), raising a fault
(R101), the five primitive events (R62 to R66), the micro-steps a sequence is made of and what an interrupt agent may
do between two of them (R61, R103), and the op cycle (R61). -/

namespace Sys2Proof.Machine

/-! ### Agents -/

/-- Agent g: 0 is the foreground, k + 1 the k-th interrupt agent (R103). -/
def State.agent? (s : State) (g : Nat) : Option Agent :=
  match g with
  | 0 => some s.fg
  | k + 1 => s.irqs[k]?

/-- `OPIDX` of agent g (R13). -/
def State.opidxOf (s : State) (g : Nat) : Nat :=
  match s.agent? g with
  | some a => a.opidx
  | none => 0

/-- The words of agent g's stream from its `OPIDX` on (R34). -/
def State.wordsOf (s : State) (g : Nat) : List Word :=
  match s.agent? g with
  | some a => a.stream.drop a.opidx
  | none => []

/-- The first word of agent g's next op: `S[OPIDX]` (R101). -/
def State.wordOf (s : State) (g : Nat) : Word := (s.wordsOf g).headD Config.noWord

/-- Agent g has a next op: its `OPIDX` is before the end of its stream (R61, R105). -/
def State.hasNext (s : State) (g : Nat) : Bool := !(s.wordsOf g).isEmpty

/-- `OPIDX <- OPIDX + n` of one agent (R13). -/
def Agent.advance (a : Agent) (n : Nat) : Agent := { a with opidx := a.opidx + n }

/-- `OPIDX <- OPIDX + n` of agent g (R13). -/
def State.advance (s : State) (g n : Nat) : State :=
  match g with
  | 0 => { s with fg := s.fg.advance n }
  | k + 1 => { s with irqs := s.irqs.modify k (·.advance n) }

/-! ### Faults -/

/-- `raise Fault(code, info)` by agent g (R101), where `busy0` is the value `BUSY` had when the faulting op began. -/
def State.raise (s : State) (code : FaultCode) (info : Word) (g : Nat) (busy0 : Bool) : State :=
  { s with
    fault := some { code := code, agent := g, opidx := s.opidxOf g, word := s.wordOf g, info := info }
    busy := busy0 }

/-- The machine has stopped: `FAULT != NONE` (R61). -/
def State.isFaulted (s : State) : Bool := s.fault.isSome

/-! ### Primitive events -/

/-- Adds an event to the trace (R8). -/
def State.record (s : State) (e : Event) : State := { s with traceRev := e :: s.traceRev }

/-- `SetLatch(line, v)` (R62, R63). -/
def setLatch (l : Line) (v : Bool) (s : State) : State :=
  match l with
  | .clk => rxStep ({ s with clkOut := v }.record (.lat .clk v))
  | .dio => rxStep ({ s with dioOut := v }.record (.lat .dio v))

/-- `SetDir(line, dir)` (R64): the latch is not changed. -/
def setDir (l : Line) (d : Dir) (s : State) : State :=
  match l with
  | .clk => rxStep ({ s with clkDir := some d }.record (.dir .clk d))
  | .dio => rxStep ({ s with dioDir := some d }.record (.dir .dio d))

/-- `Wait()` (R65). -/
def waitEvent (s : State) : State := rxStep (s.record .wait)

/-- `Draw(sample)` (R66): what a read of a floating line gives. -/
def State.smpDraw (s : State) : Bool := s.smpTape.headD (Config.freeSample s.smpDraws)

/-- The level a read of the data line gives (R20, R66). -/
def State.readLevel (s : State) : Bool :=
  match s.dioBus with
  | .bit b => b
  | .float => s.smpDraw
  | .unknown => s.smpDraw

/-- Uses up a draw when the line floats, and none otherwise (R66). -/
def State.useDraw (s : State) : State :=
  match s.dioBus with
  | .bit _ => s
  | .float => { s with smpTape := s.smpTape.tail, smpDraws := s.smpDraws + 1 }
  | .unknown => { s with smpTape := s.smpTape.tail, smpDraws := s.smpDraws + 1 }

/-- `Sample()` (R66): the line is read whatever its direction. -/
def sampleEvent (s : State) : State :=
  rxStep ({ s.useDraw with smp := some s.readLevel }.record (.smp s.readLevel))

/-! ### What another agent may do while an op runs -/

/-- ENCODE by agent g (R81): it neither tests nor sets `BUSY`, records no event, and may run anywhere (R103). -/
def encodeBy (g : Nat) (c : Byte) (s : State) : State :=
  match rom s.launch c with
  | none => s.raise .unencodable (c.zeroExtend 32) g s.busy
  | some p => { s with pat := some p }.advance g 1

/-- The op of an interrupt agent that starts while a transport or driver op runs (R103). `BUSY` is 1, so every op but
ENCODE faults, in the order of R61. -/
def preemptingOp (g : Nat) (s : State) : State :=
  match decode (s.wordsOf g) with
  | .error .empty => s
  | .error (.illegal w) => s.raise .illegalOp w g s.busy
  | .error (.truncated w) => s.raise .truncated w g s.busy
  | .ok (.encode c, _) => encodeBy g c s
  | .ok (_, _) => s.raise .reentrant (s.wordOf g) g s.busy

/-- No interrupt agent can start an op between two micro-steps of the running op (R103): the scheduler decides
nothing more, there is no interrupt agent, the running op is itself an interrupt agent's, which runs to completion, or
the parameter `IRQ_MASKED_DURING_OPS` masks them. -/
def noPreemption (sched : List Turn) (irqs : List Agent) (cur : Nat) (irqMasked : Bool) : Bool :=
  sched.isEmpty || irqs.isEmpty || decide (cur ≠ 0) || irqMasked

/-- `noPreemption` of a state. -/
def State.quiet (s : State) : Bool := noPreemption s.sched s.irqs s.cur s.launch.irqMasked

/-- The decisions of the scheduler at one point between two micro-steps: interrupt agents start ops, one after
another, until it decides to go on. -/
def runGap : List Turn → State → State
  | [], s => { s with sched := [] }
  | .proceed :: rest, s => { s with sched := rest }
  | .agent g :: rest, s =>
    if decide (g ≠ 0) && s.hasNext g then
      let s' := preemptingOp g s
      if s'.isFaulted then { s' with sched := rest } else runGap rest s'
    else { s with sched := rest }

/-- A point between two micro-steps of the running op (R103). -/
def gap (s : State) : State := if s.quiet then s else runGap s.sched s

/-! ### Micro-steps -/

/-- The parts a transport sequence is made of: the primitive events, and the two steps of R70 that depend on the
sampled level: "hold low" and the write of `ACK`. -/
inductive Micro where
  | lat (l : Line) (v : Bool)
  | dir (l : Line) (d : Dir)
  | wait
  | sample
  | holdLow
  | setAck
  deriving DecidableEq, Repr

/-- A primitive event as a micro-step (R61): unless it is the op's first, another agent may act before it; nothing
happens once a fault has stopped the machine (R101). -/
def event (f : State → State) (s : State) : State :=
  let s' := if s.midOp then gap s else s
  if s'.isFaulted then s' else f { s' with midOp := true }

/-- `if s == 0: SetLatch(DIO, 0)` (R70). -/
def holdLow (s : State) : State := if s.smp = some false then event (setLatch .dio false) s else s

/-- `ACK <- (s == 0)` (R70), where s is the level `SMP` holds. -/
def writeAck (s : State) : State := { s with ack := s.smp.map ackOf }

/-- One micro-step. -/
def microStep (m : Micro) (s : State) : State :=
  if s.isFaulted then s
  else match m with
    | .lat l v => event (setLatch l v) s
    | .dir l d => event (setDir l d) s
    | .wait => event waitEvent s
    | .sample => event sampleEvent s
    | .holdLow => holdLow s
    | .setAck => writeAck s

/-- The micro-steps of a sequence, in order (R43). -/
def run : List Micro → State → State
  | [], s => s
  | m :: ms, s => run ms (microStep m s)

/-- A write of the pseudocode that is no event: it is not made once a fault has stopped the machine (R101). -/
def assign (f : State → State) (s : State) : State := if s.isFaulted then s else f s

/-! ### The op cycle -/

/-- The checks of R61 that come after decoding, in its order: the first that fails names its fault. -/
def entryFault (m : Mnemonic) (s : State) : Option FaultCode :=
  if m.row.family ≠ .encoder ∧ s.busy = true then some .reentrant
  else if m.row.family = .driver ∧ m ≠ .INIT ∧ s.inited = false then some .notInitialised
  else if m = .INIT ∧ s.inited = true then some .initTwice
  else if (m.row.family = .transport ∨ m.row.family = .driver) ∧ m ≠ .INIT ∧ s.linesOut = false then
    some .linesNotOutput
  else none

/-- The op begins: `BUSY <- 1` for the transport and driver families (R61). No event of it has been recorded. -/
def enter (m : Mnemonic) (s : State) : State :=
  match m.row.family with
  | .line => { s with midOp := false }
  | .encoder => { s with midOp := false }
  | .transport => { s with busy := true, midOp := false }
  | .driver => { s with busy := true, midOp := false }

/-- The op completes without fault: `BUSY <- 0` for the transport and driver families, and `OPIDX` moves past its
words (R61, R13). -/
def complete (m : Mnemonic) (s : State) : State :=
  if s.isFaulted then s
  else
    match m.row.family with
    | .line => { s with midOp := false }.advance s.cur m.row.words
    | .encoder => { s with midOp := false }.advance s.cur m.row.words
    | .transport => { s with busy := false, midOp := false }.advance s.cur m.row.words
    | .driver => { s with busy := false, midOp := false }.advance s.cur m.row.words

/-- The op cycle (R61) of an op of the line, transport or driver family, from the checks after decoding on. -/
def opCycle (m : Mnemonic) (body : State → State) (s : State) : Host.Outcome State Fault Refusal :=
  match entryFault m s with
  | some code => .next (s.raise code (s.wordOf s.cur) s.cur s.busy)
  | none => .next (complete m (body (enter m s)))

/-! ### The choice of the next op -/

/-- The lowest-numbered agent that has a next op. -/
def State.firstReady (s : State) : Option Nat := (List.range (s.irqs.length + 1)).find? s.hasNext

/-- The scheduler's choice between two ops (R103): the agent whose op runs next, and the decisions left. Where it
names no agent that has a next op, the lowest-numbered agent that has one goes (assumption log 5). -/
def pick (s : State) : Option (Nat × List Turn) :=
  match s.sched with
  | [] => s.firstReady.map (·, [])
  | .proceed :: rest => s.firstReady.map (·, rest)
  | .agent g :: rest => if s.hasNext g then some (g, rest) else s.firstReady.map (·, rest)

/-- The state in which agent g's next op runs. -/
def State.dispatched (s : State) (g : Nat) (rest : List Turn) : State := { s with cur := g, sched := rest }

/-! ### Placing an instruction -/

/-- A stream with two words placed at index i. -/
def placeWords (stream : List Word) (i : Nat) (w0 w1 : Word) : List Word :=
  (stream ++ List.replicate (i - stream.length) 0).take i ++ w0 :: w1 :: stream.drop (i + 2)

end Sys2Proof.Machine
end

