-- ==== Sys2Proof/Machine/Transport.lean ====
section
/-! DEFINITION. The protocol transport (spec/41_transport.md): the sequences the driver shares, as lists of
micro-steps, and the four ops that run them. The check `RequireLinesOut` at the head of each sequence restates the op
cycle's and cannot fail after it (R67), so it is made in the op cycle alone. -/

namespace Sys2Proof.Machine

/-- `StartSeq` (R68). -/
def startSeq : List Micro := [.lat .dio true, .lat .clk true, .wait, .lat .dio false]

/-- `StopSeq` (R69). -/
def stopSeq : List Micro :=
  [.lat .clk false, .wait, .lat .dio false, .wait, .lat .clk true, .wait, .lat .dio true]

/-- One data bit of `WriteByteSeq` (R70). -/
def bitSeq (b : Bool) : List Micro := [.lat .clk false, .wait, .lat .dio b, .lat .clk true, .wait]

/-- The eight data bits of `WriteByteSeq`, least significant first (R70). -/
def dataBitsSeq (v : Byte) : List Micro :=
  bitSeq (v.getLsbD 0) ++ bitSeq (v.getLsbD 1) ++ bitSeq (v.getLsbD 2) ++ bitSeq (v.getLsbD 3) ++
  bitSeq (v.getLsbD 4) ++ bitSeq (v.getLsbD 5) ++ bitSeq (v.getLsbD 6) ++ bitSeq (v.getLsbD 7)

/-- The acknowledge bit of `WriteByteSeq` (R70). -/
def ackSeq : List Micro :=
  [.lat .clk false, .dir .dio .inp, .lat .dio true, .wait, .sample, .holdLow, .wait, .lat .clk true, .wait,
   .lat .clk false, .wait, .dir .dio .out, .setAck]

/-- `WriteByteSeq` (R70). -/
def writeByteSeq (v : Byte) : List Micro := dataBitsSeq v ++ ackSeq

/-- `SendCmdSeq` (R71). -/
def sendCmdSeq (v : Byte) : List Micro := startSeq ++ writeByteSeq v ++ stopSeq

/-- START (R68). -/
def execStart (s : State) : Host.Outcome State Fault Refusal :=
  opCycle .START (run startSeq) s

/-- STOP (R69). -/
def execStop (s : State) : Host.Outcome State Fault Refusal :=
  opCycle .STOP (run stopSeq) s

/-- WRBYTE (R70). A missing acknowledge has no other effect (R72). -/
def execWrbyte (b : Byte) (s : State) : Host.Outcome State Fault Refusal :=
  opCycle .WRBYTE (run (writeByteSeq b)) s

/-- SENDCMD (R71). -/
def execSendcmd (b : Byte) (s : State) : Host.Outcome State Fault Refusal :=
  opCycle .SENDCMD (run (sendCmdSeq b)) s

end Sys2Proof.Machine
end

