-- ==== Sys2Proof/Machine/Driver.lean ====
section
/-! DEFINITION. The display driver's ops (spec/45_driver.md), written over the transport's sequences. -/

namespace Sys2Proof.Machine

/-- The value a rule reads from `CFG_EN` (R22): every run has written it by then (R29, U21). -/
def State.cfgEnValue (s : State) : Bool := s.cfgEn.getD Config.unwrittenCfgEn

/-- The value a rule reads from `CFG_BRI` (R23). -/
def State.cfgBriValue (s : State) : BitVec 3 := s.cfgBri.getD Config.unwrittenCfgBri

/-- The value a rule reads from `COLON_CACHE` (R24). -/
def State.colonValue (s : State) : Byte := s.colonCache.getD Config.unwrittenColon

/-- `DSegSeq` (R86). -/
def dsegSeq (pos pat : Byte) : List Micro :=
  sendCmdSeq dataAutoinc ++ startSeq ++ writeByteSeq (addrByte (maskPos pos)) ++ writeByteSeq pat ++ stopSeq

/-- `DCharSeq` (R87) after its table read, which gave `pat`. -/
def dcharSeq (pos pat : Byte) (s : State) : State :=
  let sent := withColon pos pat s.colonValue
  let s' := run (dsegSeq pos sent) s
  if pos = 1 then assign (fun t => { t with colonCache := some sent }) s' else s'

/-- `DCharSeq` for consecutive positions from k on, one pattern each (R93, R94). -/
def dcharsFrom : (k : Nat) → List Byte → State → State
  | _, [], s => s
  | k, p :: ps, s => dcharsFrom (k + 1) ps (dcharSeq (BitVec.ofNat 8 k) p s)

/-- `CtrlSeq` (R88): it reads both cached fields. -/
def ctrlSeq (s : State) : State := run (sendCmdSeq (ctrlByte s.cfgEnValue s.cfgBriValue)) s

/-- The first four events of INIT (R89). -/
def initLines : List Micro := [.dir .clk .out, .dir .dio .out, .lat .clk false, .lat .dio false]

/-- The register writes of INIT before it sends the configuration (R89). -/
def initRegs (en : Bool) (bri : Int) (s : State) : State :=
  { s with colonCache := some 0x00, cfgEn := some en, cfgBri := some (clamp bri) }

/-- INIT (R89). -/
def execInit (en : Bool) (bri : Int) (s : State) : Host.Outcome State Fault Refusal :=
  opCycle .INIT (fun s0 =>
    let s1 := run initLines s0
    let s2 := assign (initRegs en bri) s1
    let s3 := ctrlSeq s2
    assign (fun t => { t with inited := true }) s3) s

/-- DSEG (R90): `COLON_CACHE` is neither read nor written. -/
def execDseg (pos pat : Byte) (s : State) : Host.Outcome State Fault Refusal :=
  opCycle .DSEG (run (dsegSeq pos pat)) s

/-- DCHAR (R91): an unencodable character faults before any event, with `BUSY` as it was when the op began (R101). -/
def execDchar (pos c : Byte) (s : State) : Host.Outcome State Fault Refusal :=
  match rom s.launch c with
  | none => opCycle .DCHAR (fun t => t.raise .unencodable (c.zeroExtend 32) t.cur s.busy) s
  | some pat => opCycle .DCHAR (dcharSeq pos pat) s

/-- DCOLON (R92). -/
def execDcolon (on : Bool) (s : State) : Host.Outcome State Fault Refusal :=
  opCycle .DCOLON (fun s0 =>
    let cache := colonSet s0.colonValue on
    run (dsegSeq 1 cache) { s0 with colonCache := some cache }) s

/-- DSTR (R93): all four characters are validated before the first write. -/
def execDstr (c0 c1 c2 c3 : Byte) (s : State) : Host.Outcome State Fault Refusal :=
  match romAll s.launch (padString [c0, c1, c2, c3]) with
  | .error c => opCycle .DSTR (fun t => t.raise .unencodable (c.zeroExtend 32) t.cur s.busy) s
  | .ok pats => opCycle .DSTR (dcharsFrom 0 pats) s

/-- DINT (R94). Every character `FormatInt` yields is in the table, so the fault is never raised. -/
def execDint (n : Int) (s : State) : Host.Outcome State Fault Refusal :=
  match romAll s.launch (formatInt n) with
  | .error c => opCycle .DINT (fun t => t.raise .unencodable (c.zeroExtend 32) t.cur s.busy) s
  | .ok pats => opCycle .DINT (dcharsFrom 0 pats) s

/-- CLEAR (R95): `COLON_CACHE` is not changed. -/
def execClear (s : State) : Host.Outcome State Fault Refusal :=
  opCycle .CLEAR (run (dsegSeq 0 0x00 ++ dsegSeq 1 0x00 ++ dsegSeq 2 0x00 ++ dsegSeq 3 0x00)) s

/-- ENABLE (R96). -/
def execEnable (on : Bool) (s : State) : Host.Outcome State Fault Refusal :=
  opCycle .ENABLE (fun s0 => ctrlSeq { s0 with cfgEn := some on }) s

/-- SETBRI (R97). -/
def execSetbri (v : Int) (s : State) : Host.Outcome State Fault Refusal :=
  opCycle .SETBRI (fun s0 => ctrlSeq { s0 with cfgBri := some (clamp v) }) s

end Sys2Proof.Machine
end

