-- ==== Sys2Proof/Machine/Encoder.lean ====
section
/-! DEFINITION. The segment encoder's op (spec/42_encoder.md). -/

namespace Sys2Proof.Machine

/-- ENCODE (R81): no check of the op cycle after decoding concerns it (R61), and it records no event. -/
def execEncode (c : Byte) (s : State) : Host.Outcome State Fault Refusal :=
  .next (encodeBy s.cur c s)

end Sys2Proof.Machine
end

