-- ==== Sys2Proof/Machine/Line.lean ====
section
/-! DEFINITION. The line primitives (spec/40_line_primitives.md): each is one micro-step; none sets `BUSY` and none
needs `INITED`. -/

namespace Sys2Proof.Machine

/-- SETCLK (R62). -/
def execSetclk (v : Bool) (s : State) : Host.Outcome State Fault Refusal :=
  opCycle .SETCLK (run [.lat .clk v]) s

/-- SETDIO (R63). -/
def execSetdio (v : Bool) (s : State) : Host.Outcome State Fault Refusal :=
  opCycle .SETDIO (run [.lat .dio v]) s

/-- SETDIR (R64). -/
def execSetdir (l : Line) (d : Dir) (s : State) : Host.Outcome State Fault Refusal :=
  opCycle .SETDIR (run [.dir l d]) s

/-- WAIT (R65). -/
def execWait (s : State) : Host.Outcome State Fault Refusal :=
  opCycle .WAIT (run [.wait]) s

/-- SAMPLE (R66). -/
def execSample (s : State) : Host.Outcome State Fault Refusal :=
  opCycle .SAMPLE (run [.sample]) s

end Sys2Proof.Machine
end

