-- ==== Sys2Proof/Machine/Dispatch.lean ====
section
/-! DEFINITION. The meaning of every op, one arm per constructor of `Instr`. -/

namespace Sys2Proof.Machine

def exec (i : Instr) (s : State) : Host.Outcome State Fault Refusal :=
  match i with
  | .setclk v => Sys2Proof.Machine.execSetclk v s
  | .setdio v => Sys2Proof.Machine.execSetdio v s
  | .setdir l d => Sys2Proof.Machine.execSetdir l d s
  | .wait => Sys2Proof.Machine.execWait s
  | .sample => Sys2Proof.Machine.execSample s
  | .start => Sys2Proof.Machine.execStart s
  | .stop => Sys2Proof.Machine.execStop s
  | .wrbyte b => Sys2Proof.Machine.execWrbyte b s
  | .sendcmd b => Sys2Proof.Machine.execSendcmd b s
  | .encode c => Sys2Proof.Machine.execEncode c s
  | .init en bri => Sys2Proof.Machine.execInit en bri s
  | .dseg pos pat => Sys2Proof.Machine.execDseg pos pat s
  | .dchar pos c => Sys2Proof.Machine.execDchar pos c s
  | .dcolon v => Sys2Proof.Machine.execDcolon v s
  | .dstr c0 c1 c2 c3 => Sys2Proof.Machine.execDstr c0 c1 c2 c3 s
  | .dint n => Sys2Proof.Machine.execDint n s
  | .clear => Sys2Proof.Machine.execClear s
  | .enable v => Sys2Proof.Machine.execEnable v s
  | .setbri v => Sys2Proof.Machine.execSetbri v s

end Sys2Proof.Machine
end

