-- ==== Sys2Proof/Machine/Step.lean ====
section
/-! DEFINITION. One step of the machine: the scheduler chooses an agent (R103), and that agent's next op runs (R61).
The ops that interrupt agents start while it runs are part of the same step. -/

namespace Sys2Proof.Machine

/-- The op cycle (R61) of the agent whose turn it is, from its fetch on. -/
def stepAgent (s : State) : Host.Outcome State Fault Refusal :=
  match decode (s.wordsOf s.cur) with
  | .error .empty => .fault .ended
  | .error (.illegal w) => .next (s.raise .illegalOp w s.cur s.busy)
  | .error (.truncated w) => .next (s.raise .truncated w s.cur s.busy)
  | .ok (i, _) => exec i s

/-- One step: none when a fault has stopped the machine (R101) or every agent has finished (R105). -/
def step (s : State) : Host.Outcome State Fault Refusal :=
  match s.fault with
  | some r => .fault (.stopped r)
  | none =>
    match pick s with
    | none => .fault .ended
    | some (g, rest) => stepAgent (s.dispatched g rest)

/-- `s` with the instruction whose bits are `w` at the foreground agent's `OPIDX`, and the foreground chosen to run
next. -/
def State.withFetchWord (s : State) (nbits w : Nat) : State :=
  { s with
    fg := { s.fg with
      stream := placeWords s.fg.stream s.fg.opidx ((tableWords nbits w).headD 0) ((tableWords nbits w).getLastD 0) }
    sched := .agent 0 :: s.sched }

end Sys2Proof.Machine
end

