-- ==== Sys2Proof/Machine/Display.lean ====
section
/-! DEFINITION. What claims read from the receiver's state, changing nothing: its derived events (R8) and what the
display shows (R115). -/

namespace Sys2Proof.Machine

/-- The receiver's derived events, newest first, without the numbers of the steps that made them. -/
def Rx.eventsRev (rx : Rx) : List RxEvent := rx.logRev.map (·.2)

/-- The receiver's derived events in the order they happened (R8). -/
def Rx.events (rx : Rx) : List RxEvent := rx.eventsRev.reverse

/-- The byte of a derived event, and whether it was acknowledged. -/
def RxEvent.byte? : RxEvent → Option (Byte × Bool)
  | .start => none
  | .stop => none
  | .byte b a => some (b, a)
  | .desync => none

/-- The complete bytes the receiver has seen, newest first, each with its acknowledge (R112). -/
def Rx.receivedRev (rx : Rx) : List (Byte × Bool) := rx.eventsRev.filterMap RxEvent.byte?

/-- The complete bytes the receiver has seen, in order, each with its acknowledge (R112). -/
def Rx.received (rx : Rx) : List (Byte × Bool) := rx.receivedRev.reverse

/-- `DISP[p]` (R28): `none` is `UNKNOWN`, and also the answer for a p that is no position. -/
def Rx.dispAt (rx : Rx) (p : Nat) : Option Byte := (rx.disp[p]?).join

/-- The glyph bits of position p, `DISP[p] & 0x7F` (R115), where they are known. -/
def Rx.glyphAt (rx : Rx) (p : Nat) : Option Byte := (rx.dispAt p).map (· &&& 0x7F)

/-- Position p renders character ch: `DISP[p] & 0x7F == ROM[ch]` (R115). A position whose content is `UNKNOWN` renders
nothing a claim may name. -/
def renders (l : Launch) (rx : Rx) (p : Nat) (ch : Byte) : Bool :=
  match rx.glyphAt p, rom l ch with
  | some g, some e => decide (g = e)
  | some _, none => false
  | none, some _ => false
  | none, none => false

/-- The colon bit `DISP[1][7]`, which the receiver keeps whether the display is on or off. `none`: not known. -/
def Rx.colonBit (rx : Rx) : Option Bool := (rx.dispAt 1).map (·.getLsbD 7)

/-- The display is on: `DCTRL_EN = 1` (R115). `none`: not known. -/
def Rx.displayOn (rx : Rx) : Option Bool := rx.dctrlEn

/-- What the display lights of something `DISP` holds (R115): that thing when it is on, `dark` when it is off. Where it is
not known to be on or off, only what is dark in both cases is known. -/
def Rx.lit {α : Type} [DecidableEq α] (rx : Rx) (dark : α) (held : Option α) : Option α :=
  match rx.displayOn with
  | some false => some dark
  | some true => held
  | none => if held = some dark then held else none

/-- The colon is lit: `DISP[1][7] = 1` and the display is on (R115). `none`: not known. -/
def Rx.colonLit (rx : Rx) : Option Bool := rx.lit false rx.colonBit

/-- The segments position p lights (R75, R115): those of `DISP[p][6:0]`, and none of them when the display is off,
whatever `DISP` holds. `none`: not known. -/
def Rx.litSegments (rx : Rx) (p : Nat) : Option (BitVec 7) := rx.lit 0 ((rx.dispAt p).map (·.extractLsb' 0 7))

/-- The brightness level the display is on at, `DCTRL_BRI` (R115). `none`: it is off, or not known. -/
def Rx.shownBrightness (rx : Rx) : Option (BitVec 3) := if rx.displayOn = some true then rx.dctrlBri else none

/-- The inverse of the encoder on the patterns integer formatting writes (R82, last item): the characters '0' to '9',
'-' and ' ', read from the glyph bits. -/
def glyphChar (g : Byte) : Option Byte :=
  if g = 0x00 then some 0x20
  else if g = 0x40 then some 0x2D
  else (digitPatterns.toList.findIdx? (· = g)).map digitChar

/-- Reads decimal digits, most significant first, into `acc`. -/
def readDigits : (acc : Nat) → List Byte → Option Nat
  | acc, [] => some acc
  | acc, c :: cs =>
    if 0x30 ≤ c.toNat ∧ c.toNat ≤ 0x39 then readDigits (acc * 10 + (c.toNat - 0x30)) cs else none

/-- Reads a natural number with at least one digit and no leading zero but for zero itself. -/
def readNat : List Byte → Option Nat
  | [] => none
  | [c] => readDigits 0 [c]
  | c :: c' :: cs => if c = 0x30 then none else readDigits 0 (c :: c' :: cs)

/-- Reads a right-justified decimal integer: blanks, then '-' for a negative number, then its digits. It is the
inverse that §8's first property (spec/95_test_vectors.md L1.1) speaks of. -/
def readInteger : List Byte → Option Int
  | [] => none
  | c :: cs =>
    if c = 0x20 then readInteger cs
    else if c = 0x2D then
      match readNat cs with
      | some 0 => none
      | some (m + 1) => some (-((m : Int) + 1))
      | none => none
    else (readNat (c :: cs)).map Int.ofNat

end Sys2Proof.Machine
end

