-- ==== Sys2Proof/Safety.lean ====
section
/-! DEFINITION. The terms claims use: how a run ends (R105), the launch premises (R112, R126), the invariant every
step keeps, and what a wire sequence leaves alone. -/

namespace Sys2Proof.Machine

/-! ### Runs -/

/-- Agent `a` has finished: its `OPIDX` has reached the length of its stream (R105). -/
def Agent.done (a : Agent) : Bool := decide (a.stream.length ≤ a.opidx)

/-- Every host agent has finished and `FAULT = NONE`: the successful end of a run (R105). -/
def State.succeeded (s : State) : Bool := s.fg.done && s.irqs.all Agent.done && !s.isFaulted

/-- The number of words an agent has not passed yet. -/
def Agent.left (a : Agent) : Nat := a.stream.length - a.opidx

/-- The number of words all agents have not passed yet: what makes every run finite (R105). -/
def State.wordsLeft (s : State) : Nat := s.fg.left + (s.irqs.map Agent.left).sum

/-- A lower bound on how long the run so far took (R130). -/
def State.durationAtLeast (s : State) : Nat := s.trace.count .wait * s.launch.tDelay

/-- The parameters are ones the spec admits: both durations are positive (R5). -/
def Launch.admitted (l : Launch) : Bool := decide (0 < l.tDelay) && decide (0 < l.tMin)

/-- The launch premises of a claim about a working receiver: `RX_ALWAYS_ACKS` (R112) and `T_DELAY >= T_MIN` (R126). -/
def State.workingReceiver (s : State) : Prop := s.rx.ackPlan = .always ∧ s.launch.tMin ≤ s.launch.tDelay

/-! ### States an op can start in -/

/-- No fault, no op running, and no interrupt agent can act while the next op of agent `cur` runs. -/
def State.restful (s : State) : Prop := s.fault = none ∧ s.busy = false ∧ s.quiet = true

/-- A transport op passes the checks of R61: a restful state whose lines are outputs. -/
def State.transportReady (s : State) : Prop := s.restful ∧ s.clkDir = some .out ∧ s.dioDir = some .out

/-- A driver op but INIT passes the checks of R61. -/
def State.driverReady (s : State) : Prop := s.transportReady ∧ s.inited = true

/-- INIT passes the checks of R61. -/
def State.initReady (s : State) : Prop := s.restful ∧ s.inited = false

/-- The idle state of the lines: both outputs, both high (R69). -/
def State.linesIdle (s : State) : Prop :=
  s.clkDir = some .out ∧ s.dioDir = some .out ∧ s.clkOut = true ∧ s.dioOut = true

/-- The receiver is synchronised and outside a frame, as a stop condition leaves it (R111). -/
def Rx.between (rx : Rx) : Prop := rx.sync = true ∧ rx.frame = false ∧ rx.phase = .data ∧ rx.bits = 0 ∧ rx.drv = false

/-! ### The invariant -/

/-- What holds of the receiver between events: its ranges (R28), a pulled line only in the acknowledge bit of a frame
(R112, G14), and nothing known after a desynchronisation (R114). -/
structure Rx.Inv (rx : Rx) : Prop where
  bits_le : rx.bits ≤ 8
  frame_sync : rx.frame = true → rx.sync = true
  drv_ack : rx.drv = true → rx.frame = true ∧ rx.phase = .ack ∧ rx.acked = true
  ack_bits : rx.phase = .ack → rx.frame = true ∧ rx.bits = 8
  ack_drv : rx.phase = .ack → rx.drv = rx.acked
  noFrame_bits : rx.frame = false → rx.bits = 0
  ptr_le : ∀ p, rx.ptr = some p → p ≤ 8
  addr_known : rx.cmd = .addr → rx.ptr.isSome = true ∧ rx.mode.isSome = true
  desynced : rx.sync = false → rx.nbyte = 0 ∧ rx.cmd = .none ∧ rx.mode = none ∧ rx.ptr = none ∧
    rx.disp = Vector.replicate 4 none ∧ rx.dctrlEn = none ∧ rx.dctrlBri = none

/-- What holds of the wire: the receiver's invariant, its record of the bus levels after the last event (R110), and one
step of it per recorded event (R110). -/
structure State.WireInv (s : State) : Prop where
  rx : s.rx.Inv
  pclk : s.rx.pclk = s.clkBus
  pdio : s.rx.pdio = s.dioBus
  steps : s.rx.steps = s.traceRev.length
  /-- An unknown clock desynchronises the receiver (R111). -/
  clkUnknown : s.clkBus = .unknown → s.rx.sync = false
  /-- So does a floating or unknown data line while the clock is high (R111). -/
  dioUnknown : s.clkBus = .bit true → (∀ b, s.dioBus ≠ .bit b) → s.rx.sync = false

/-- The invariant of the machine between two steps. -/
structure State.Inv (s : State) : Prop where
  wire : s.WireInv
  /-- Every register a driver op reads has been written (R29, U21). -/
  written : s.inited = true → s.cfgEn.isSome = true ∧ s.cfgBri.isSome = true ∧ s.colonCache.isSome = true
  /-- No op is running (R26). -/
  idle : s.fault = none → s.busy = false ∧ s.midOp = false
  /-- `OPIDX` is at most the length of the stream (R13, R105). -/
  opidx_le : ∀ g a, s.agent? g = some a → a.opidx ≤ a.stream.length
  /-- A fault leaves `OPIDX` at the faulting op, whose first word it records (R13, R101). -/
  faultPlace : ∀ r, s.fault = some r →
    ∃ a, s.agent? r.agent = some a ∧ a.opidx = r.opidx ∧ a.stream[r.opidx]? = some r.word
  /-- `BUSY` stays 1 after a fault only where another agent's op was running (R101). -/
  faultBusy : ∀ r, s.fault = some r → s.busy = true → r.agent ≠ 0

/-! ### What a wire sequence leaves alone -/

/-- `t` differs from `s` at most in the lines, `ACK`, `SMP`, the trace, the receiver, and the model's own record of
draws and of the running op's first event. -/
def SameButWire (s t : State) : Prop :=
  t = { s with
    clkOut := t.clkOut, dioOut := t.dioOut, clkDir := t.clkDir, dioDir := t.dioDir, ack := t.ack, smp := t.smp,
    rx := t.rx, traceRev := t.traceRev, midOp := t.midOp, smpTape := t.smpTape, smpDraws := t.smpDraws }

/-- Every character the op looks up has an entry in the encoder table (R33): no `UNENCODABLE`. The characters of DINT
always have one (R94). -/
def encodable (l : Launch) : Instr → Bool
  | .dchar _ c => (rom l c).isSome
  | .dstr c0 c1 c2 c3 => (padString [c0, c1, c2, c3]).all fun c => (rom l c).isSome
  | .encode c => (rom l c).isSome
  | .setclk _ | .setdio _ | .setdir _ _ | .wait | .sample | .start | .stop | .wrbyte _ | .sendcmd _ | .init _ _
  | .dseg _ _ | .dcolon _ | .dint _ | .clear | .enable _ | .setbri _ => true

/-- `t` is `u` with the lines idle, the last acknowledge a in `ACK` and `SMP`, the op's events added to the trace, the
receiver where the wire took it, and `OPIDX` of the running agent past n words: all else is as in `u`. -/
def SentFrom (u : State) (n : Nat) (a : Bool) (t : State) : Prop :=
  (∃ ev, t.traceRev = ev ++ u.traceRev) ∧
  t = { u with
    clkOut := true, dioOut := true, ack := some a, smp := some (!a), midOp := false,
    rx := t.rx, traceRev := t.traceRev }.advance u.cur n

/-- The ops of a list, one after another, each completing without fault: the state after them. -/
def runOps : List Instr → State → Option State
  | [], s => some s
  | i :: is, s =>
    match exec i s with
    | .next t => if t.isFaulted then none else runOps is t
    | .fault _ => none
    | .refused _ => none

/-- A power-on state (R29, R117): what R29 calls a draw, the parameters, the streams, the scheduler and the draws to
come are free. -/
def State.atPowerOn (s : State) : Prop :=
  s = { State.reset with
    clkOut := s.clkOut, dioOut := s.dioOut, launch := s.launch, fg := s.fg, irqs := s.irqs, sched := s.sched,
    smpTape := s.smpTape,
    rx := { Rx.reset with shift := s.rx.shift, ackPlan := s.rx.ackPlan } } ∧
  s.fg.opidx = 0 ∧ ∀ a ∈ s.irqs, a.opidx = 0

/-! ### The events of the sequences, oldest first -/

/-- The events of START (R68). -/
def startEvents : List Event := [.lat .dio true, .lat .clk true, .wait, .lat .dio false]

/-- The events of STOP (R69). -/
def stopEvents : List Event :=
  [.lat .clk false, .wait, .lat .dio false, .wait, .lat .clk true, .wait, .lat .dio true]

/-- The events of the eight data bits (R70), least significant first. -/
def dataEvents (v : Byte) : List Event :=
  (List.range 8).flatMap fun i => [.lat .clk false, .wait, .lat .dio (v.getLsbD i), .lat .clk true, .wait]

/-- The events of the acknowledge bit (R70): `a` is whether the byte was acknowledged. -/
def ackEvents (a : Bool) : List Event :=
  [.lat .clk false, .dir .dio .inp, .lat .dio true, .wait, .smp (!a)] ++ (if a then [.lat .dio false] else []) ++
  [.wait, .lat .clk true, .wait, .lat .clk false, .wait, .dir .dio .out]

end Sys2Proof.Machine
end

