-- ==== Sys2Proof/Certificates/Slice0/Obligations.lean ====
section
/-! DEFINITION. The statements for the provers. A statement about an op says, for the states and operands it names, the
whole next state: what the record update does not name is unchanged. `midOp`, `cur` and `sched` are the model's own
fields (assumption log 6), and so are the records of draws `ackPlan` and `smpTape` (logs 7 and 8) and the form of the
receiver's log that `events`, `received`, `logRev` and `steps` read (log 12). A statement about what the receiver holds
has the launch premises of R112 and R126 (`State.workingReceiver`). -/

open Sys2Proof Sys2Proof.Machine

/-! ### Encoding -/

/-- R48 to R52: no bit of an encoding is dropped. Decoding the words of a well-formed op gives it back, and leaves the
words after it. -/
def Obligations.DecodeInvertsEncode : Prop :=
  ∀ (i : Instr) (rest : List Word), i.wf = true → decode (encode i ++ rest) = .ok (i, rest)

/-- R48 to R54: words that decode are the encoding of a well-formed op, so each op has one encoding. -/
def Obligations.EncodeInvertsDecode : Prop :=
  ∀ (ws rest : List Word) (i : Instr), decode ws = .ok (i, rest) → i.wf = true ∧ encode i ++ rest = ws

/-- R51, R53, R54: "a word W selects the row when `W & mask == match`", at most one row, and no row where the OPC is
not one of the table's; R52: only OPC 0x34 is two words long. -/
def Obligations.WordSelectsAtMostOneRow : Prop :=
  (∀ (w : Word) (m : Mnemonic), selectRow w = some m ↔ w &&& m.row.mask = m.row.pattern) ∧
  (∀ (w : Word) (m m' : Mnemonic), w &&& m.row.mask = m.row.pattern → w &&& m'.row.mask = m'.row.pattern → m = m') ∧
  (∀ w : Word, selectRow w ≠ none → (opcField w).toNat ∈
    [0x01, 0x02, 0x03, 0x04, 0x05, 0x10, 0x11, 0x12, 0x13, 0x20, 0x30, 0x31, 0x32, 0x33, 0x34, 0x35, 0x36, 0x37,
     0x38]) ∧
  (∀ (w : Word) (m : Mnemonic), selectRow w = some m → m.row.words = if opcField w = 0x34 then 2 else 1)

/-- R55, R56 and the vectors of L2: words written out in the spec decode to the op it gives them. -/
def Obligations.SpecWordsDecode : Prop :=
  decode [0x03010000] = .ok (.setdir .dio .inp, []) ∧
  decode [0x01000001] = .ok (.setclk true, []) ∧
  decode [0x12000040] = .ok (.wrbyte 0x40, []) ∧
  decode [0x1300008F] = .ok (.sendcmd 0x8F, []) ∧
  decode [0x20000037] = .ok (.encode 0x37, []) ∧
  decode [0x30010007] = .ok (.init true 7, []) ∧
  decode [0x32010035] = .ok (.dchar 1 0x35, []) ∧
  decode [0x3500FFD6] = .ok (.dint (-42), []) ∧
  decode [0x34000000, 0x00006261] = .ok (.dstr 0x61 0x62 0 0, []) ∧
  txn 0xC0 [0x3F] = [.start, .wrbyte 0xC0, .wrbyte 0x3F, .stop]

/-! ### The op cycle -/

/-- R61, R103: an agent whose next words decode to an op runs it: a step is `exec` of the op, in the same state but for
the model's record of whose turn it is. The agent is the one the scheduler names, or the only one there is; that the
scheduler's decisions are listed in `sched`, and what it does after them, is the model's choice (logs 5 and 6). -/
def Obligations.StepRunsDecodedOp : Prop :=
  ∀ (s : State) (g : Nat) (i : Instr) (ws : List Word),
    s.fault = none → decode (s.wordsOf g) = .ok (i, ws) →
    (∀ rest, s.sched = .agent g :: rest → step s = exec i { s with cur := g, sched := rest }) ∧
    (s.irqs = [] → g = 0 → step s = exec i { s with cur := 0, sched := s.sched.tail })

/-- R53, R54, R52, R61: a word that is no op faults `ILLEGAL_OP` with the word as its information, and a DSTR without its
extension word faults `TRUNCATED`, in every state, before anything else is checked; nothing else changes. -/
def Obligations.UndecodableWordsFault : Prop :=
  ∀ (s : State) (g : Nat) (sch : List Turn) (w : Word) (ws : List Word),
    s.fault = none → s.sched = .agent g :: sch → s.wordsOf g = w :: ws →
    (selectRow w = none →
      step s = .next { s with cur := g, sched := sch, fault := some ⟨.illegalOp, g, s.opidxOf g, w, w⟩ }) ∧
    (w = 0x34000000 → ws = [] →
      step s = .next { s with cur := g, sched := sch, fault := some ⟨.truncated, g, s.opidxOf g, w, w⟩ })

/-- R61, R99, R100: the checks after decoding, in the spec's order; the first that fails raises its fault with the op's
word, and nothing but `FAULT` changes. -/
def Obligations.EntryChecksFaultInOrder : Prop :=
  ∀ (i : Instr) (s : State),
    (i.mnemonic.row.family ≠ .encoder → s.busy = true →
      exec i s = .next { s with fault := some ⟨.reentrant, s.cur, s.opidxOf s.cur, s.wordOf s.cur, s.wordOf s.cur⟩ }) ∧
    (s.busy = false → i.mnemonic.row.family = .driver → i.mnemonic ≠ .INIT → s.inited = false →
      exec i s = .next
        { s with fault := some ⟨.notInitialised, s.cur, s.opidxOf s.cur, s.wordOf s.cur, s.wordOf s.cur⟩ }) ∧
    (s.busy = false → i.mnemonic = .INIT → s.inited = true →
      exec i s = .next { s with fault := some ⟨.initTwice, s.cur, s.opidxOf s.cur, s.wordOf s.cur, s.wordOf s.cur⟩ }) ∧
    (s.busy = false → (i.mnemonic.row.family = .transport ∨
        (i.mnemonic.row.family = .driver ∧ i.mnemonic ≠ .INIT ∧ s.inited = true)) →
      (s.clkDir ≠ some .out ∨ s.dioDir ≠ some .out) →
      exec i s = .next
        { s with fault := some ⟨.linesNotOutput, s.cur, s.opidxOf s.cur, s.wordOf s.cur, s.wordOf s.cur⟩ })

/-- R33, R81, R87, R91, R93, R99, R101: a character without a table entry faults `UNENCODABLE` with the character code,
before any event; DSTR names the first of its four. `BUSY` is as it was when the op began. -/
def Obligations.UnencodableCharacterFaults : Prop :=
  (∀ (s : State) (c : Byte), rom s.launch c = none →
    exec (.encode c) s = .next
      { s with fault := some ⟨.unencodable, s.cur, s.opidxOf s.cur, s.wordOf s.cur, c.zeroExtend 32⟩ }) ∧
  (∀ (s : State) (pos c : Byte), s.driverReady → rom s.launch c = none →
    exec (.dchar pos c) s = .next
      { s with
        fault := some ⟨.unencodable, s.cur, s.opidxOf s.cur, s.wordOf s.cur, c.zeroExtend 32⟩, midOp := false }) ∧
  (∀ (s : State) (c0 c1 c2 c3 : Byte) (before after : List Byte) (c : Byte), s.driverReady →
    padString [c0, c1, c2, c3] = before ++ c :: after → (∀ b ∈ before, (rom s.launch b).isSome = true) →
    rom s.launch c = none →
    exec (.dstr c0 c1 c2 c3) s = .next
      { s with
        fault := some ⟨.unencodable, s.cur, s.opidxOf s.cur, s.wordOf s.cur, c.zeroExtend 32⟩, midOp := false })

/-- R101: faults are precise. A fault of the agent whose op the step ran leaves everything but `FAULT` as it was, records
that agent, its `OPIDX` and the word there, and leaves its `OPIDX` at the faulting op (R13). -/
def Obligations.FaultsArePrecise : Prop :=
  ∀ (s t : State) (r : FaultRecord), s.midOp = false → step s = .next t → t.fault = some r → r.agent = t.cur →
    t = { s with cur := t.cur, sched := t.sched, fault := some r } ∧
    ∃ a, s.agent? r.agent = some a ∧ r.opidx = a.opidx ∧ a.stream[r.opidx]? = some r.word

/-- R27, R101, R102: a stopped machine takes no step, and a step that is taken starts with `FAULT = NONE`: `FAULT` is
written once. -/
def Obligations.FaultIsFinal : Prop :=
  (∀ (s : State) (r : FaultRecord), s.fault = some r → step s = .fault (.stopped r)) ∧
  (∀ (s t : State), step s = .next t → s.fault = none)

/-- R103, R61, R99, R100: at a point between two micro-steps of a foreground op, an interrupt agent the scheduler picks
runs ENCODE to completion; a character without an entry, a word that is no op and a DSTR without its extension word fault
`UNENCODABLE`, `ILLEGAL_OP` and `TRUNCATED` in its name; and an op of any other family finds `BUSY = 1` and faults
`REENTRANT`. A fault changes nothing but `FAULT`: `BUSY` stays 1. That the free scheduler's decisions are read from
`sched` is the model's choice (log 6). -/
def Obligations.InterruptAgentAtAGap : Prop :=
  ∀ (s : State) (k : Nat) (a : Agent) (w : Word) (ws : List Word) (rest : List Turn),
    s.fault = none → s.busy = true → s.cur = 0 → s.launch.irqMasked = false → s.irqs[k]? = some a →
    a.stream.drop a.opidx = w :: ws →
    (∀ c p rest', decode (w :: ws) = .ok (.encode c, ws) → rom s.launch c = some p →
      s.sched = .agent (k + 1) :: .proceed :: rest' →
      gap s = { s with pat := some p, irqs := s.irqs.modify k (·.advance 1), sched := rest' }) ∧
    (s.sched = .agent (k + 1) :: rest →
      (∀ c, decode (w :: ws) = .ok (.encode c, ws) → rom s.launch c = none →
        gap s = { s with fault := some ⟨.unencodable, k + 1, a.opidx, w, c.zeroExtend 32⟩, sched := rest }) ∧
      (∀ i left, decode (w :: ws) = .ok (i, left) → i.mnemonic ≠ .ENCODE →
        gap s = { s with fault := some ⟨.reentrant, k + 1, a.opidx, w, w⟩, sched := rest }) ∧
      (selectRow w = none →
        gap s = { s with fault := some ⟨.illegalOp, k + 1, a.opidx, w, w⟩, sched := rest }) ∧
      (w = 0x34000000 → ws = [] →
        gap s = { s with fault := some ⟨.truncated, k + 1, a.opidx, w, w⟩, sched := rest }))

/-- R123, R101: an op of an interrupt agent that starts after the first event of a foreground op of the transport or
driver family ends the run there: `FAULT` names the interrupt agent, `BUSY` shows that an op was running, no `OPIDX` has
moved, and the foreground op has recorded its first event and no other. That the points between two micro-steps begin
after the op's first event is the model's reading (log 9). -/
def Obligations.PreemptedOpStops : Prop :=
  ∀ (i j : Instr) (s : State) (k : Nat) (a : Agent) (w : Word) (ws : List Word) (rest : List Turn),
    s.fault = none → s.busy = false → s.cur = 0 → s.launch.irqMasked = false →
    (i.mnemonic.row.family = .transport ∨ i.mnemonic.row.family = .driver) → encodable s.launch i = true →
    (if i.mnemonic = .INIT then s.inited = false
      else s.clkDir = some .out ∧ s.dioDir = some .out ∧ (i.mnemonic.row.family = .driver → s.inited = true)) →
    s.irqs[k]? = some a → decode (a.stream.drop a.opidx) = .ok (j, ws) → j.mnemonic ≠ .ENCODE →
    a.stream[a.opidx]? = some w → s.sched = .agent (k + 1) :: rest →
    ∃ e t, exec i s = .next t ∧ t.fault = some ⟨.reentrant, k + 1, a.opidx, w, w⟩ ∧ t.busy = true ∧
      t.traceRev = e :: s.traceRev ∧ t.fg = s.fg ∧ t.irqs = s.irqs ∧ t.inited = s.inited

/-- R103, R122: with `IRQ_MASKED_DURING_OPS` every fault of a step is the fault of the agent whose op it ran. -/
def Obligations.MaskedStepFaultsOnlyForItself : Prop :=
  ∀ (s t : State) (r : FaultRecord), s.launch.irqMasked = true → step s = .next t → t.fault = some r →
    r.agent = t.cur

/-- R105: every run is finite. After at most one step for each word not yet passed, and one more, the machine has
stopped, by a fault or because every agent has finished. The bound of one step an op is the model's (log 9): what an
interrupt agent does inside an op is part of the op's step. -/
def Obligations.RunsAreFinite : Prop :=
  ∀ s : State, ∃ n f, n ≤ s.wordsLeft + 1 ∧ Sys2Proof.core.run n s = .fault f

/-- R105: the run ends successfully exactly when every agent's `OPIDX` has reached the length of its stream and
`FAULT = NONE`. That a finished machine answers `ended` is the model's form (log 11). -/
def Obligations.RunEndsWhenAllStreamsEnd : Prop :=
  ∀ s : State, step s = .fault .ended ↔ s.succeeded = true

/-- R46, R34, R32: no op writes an op stream or the encoder table: a step leaves every stream, every entry of the table and
every parameter as it was. That the parameters stand in State is the model's choice (log 3). -/
def Obligations.StreamsAndTableNeverWritten : Prop :=
  ∀ s t : State, step s = .next t →
    t.fg.stream = s.fg.stream ∧ t.irqs.map Agent.stream = s.irqs.map Agent.stream ∧
    (∀ c, rom t.launch c = rom s.launch c) ∧ t.launch = s.launch

/-- R8, R110: the trace only grows, and the receiver takes exactly one step after each event. -/
def Obligations.OneReceiverStepPerEvent : Prop :=
  ∀ s t : State, step s = .next t →
    ∃ ev, t.traceRev = ev ++ s.traceRev ∧ t.rx.steps = s.rx.steps + ev.length

/-! ### Power-on and the invariant -/

/-- R29, R117: the power-on values the spec gives, and the bus levels they make unknown. What R29 calls a draw, and the
agents' streams, are not among them. -/
def Obligations.PowerOnValues : Prop :=
  let s := State.reset
  s.clkDir = none ∧ s.dioDir = none ∧ s.ack = none ∧ s.smp = none ∧ s.pat = none ∧ s.cfgEn = none ∧
  s.cfgBri = none ∧ s.colonCache = none ∧ s.inited = false ∧ s.busy = false ∧ s.fault = none ∧ s.fg.opidx = 0 ∧
  s.traceRev = [] ∧ s.rx.sync = false ∧ s.rx.frame = false ∧ s.rx.drv = false ∧ s.rx.acked = false ∧
  s.rx.phase = .data ∧ s.rx.bits = 0 ∧ s.rx.nbyte = 0 ∧ s.rx.cmd = .none ∧ s.rx.mode = none ∧ s.rx.ptr = none ∧
  (∀ p, s.rx.dispAt p = none) ∧ s.rx.dctrlEn = none ∧ s.rx.dctrlBri = none ∧ s.rx.pclk = .unknown ∧
  s.rx.pdio = .unknown ∧ s.clkBus = .unknown ∧ s.dioBus = .unknown

/-- The invariant holds at power-on, whatever is drawn or loaded. -/
def Obligations.InvariantAtPowerOn : Prop :=
  State.reset.Inv ∧ ∀ s : State, s.atPowerOn → s.Inv

/-- The invariant is kept by every step: the receiver's ranges and what it may know (R28, R114), its record of the bus
(R110), one receiver step per event, what is written once `INITED` is 1 (R29), `BUSY` 0 between ops (R26), `OPIDX` within
its stream (R13), and where a fault leaves it (R101). -/
def Obligations.StepKeepsInvariant : Prop :=
  ∀ s t : State, s.Inv → step s = .next t → t.Inv

/-! ### Bus levels and line primitives -/

/-- R18: the levels of the two lines for each direction: the clock is known only as an output; the data line as an output
is what the host drives unless the receiver pulls it, which a high drive makes float; as an input it is low when pulled,
high with either pull-up, and floats with neither. -/
def Obligations.BusLevels : Prop :=
  (∀ s : State, s.clkBus = if s.clkDir = some .out then .bit s.clkOut else .unknown) ∧
  (∀ s : State, s.dioDir = none → s.dioBus = .unknown) ∧
  (∀ s : State, s.dioDir = some .out →
    s.dioBus = if s.rx.drv = true then (if s.dioOut = true then .float else .bit false) else .bit s.dioOut) ∧
  (∀ s : State, s.dioDir = some .inp →
    s.dioBus = if s.rx.drv = true then .bit false else if s.dioOut = true then .bit true
      else if s.launch.extPullup = true then .bit true else .float)

/-- R62 to R65: SETCLK, SETDIO, SETDIR and WAIT complete in every restful state, initialised or not and whatever the
directions; each adds its event, writes its own latch or direction and nothing else of the block, and is followed by one
step of the receiver on the new bus levels (R110). -/
def Obligations.LinePrimitivesComplete : Prop :=
  ∀ s : State, s.restful →
    (∀ v, ∃ rx', exec (.setclk v) s = .next ({ s with
        clkOut := v, traceRev := .lat .clk v :: s.traceRev, rx := rx', midOp := false }.advance s.cur 1) ∧
      rx'.pclk = clkLevel s.clkDir v ∧ rx'.pdio = dioLevel s.dioDir s.dioOut rx'.drv s.launch.extPullup ∧
      rx'.steps = s.rx.steps + 1) ∧
    (∀ v, ∃ rx', exec (.setdio v) s = .next ({ s with
        dioOut := v, traceRev := .lat .dio v :: s.traceRev, rx := rx', midOp := false }.advance s.cur 1) ∧
      rx'.pclk = clkLevel s.clkDir s.clkOut ∧ rx'.pdio = dioLevel s.dioDir v rx'.drv s.launch.extPullup ∧
      rx'.steps = s.rx.steps + 1) ∧
    (∀ d, ∃ rx', exec (.setdir .clk d) s = .next ({ s with
        clkDir := some d, traceRev := .dir .clk d :: s.traceRev, rx := rx', midOp := false }.advance s.cur 1) ∧
      rx'.pclk = clkLevel (some d) s.clkOut ∧ rx'.pdio = dioLevel s.dioDir s.dioOut rx'.drv s.launch.extPullup ∧
      rx'.steps = s.rx.steps + 1) ∧
    (∀ d, ∃ rx', exec (.setdir .dio d) s = .next ({ s with
        dioDir := some d, traceRev := .dir .dio d :: s.traceRev, rx := rx', midOp := false }.advance s.cur 1) ∧
      rx'.pclk = clkLevel s.clkDir s.clkOut ∧ rx'.pdio = dioLevel (some d) s.dioOut rx'.drv s.launch.extPullup ∧
      rx'.steps = s.rx.steps + 1) ∧
    (∃ rx', exec .wait s = .next ({ s with
        traceRev := .wait :: s.traceRev, rx := rx', midOp := false }.advance s.cur 1) ∧
      rx'.pclk = s.clkBus ∧ rx'.pdio = dioLevel s.dioDir s.dioOut rx'.drv s.launch.extPullup ∧
      rx'.steps = s.rx.steps + 1)

/-- R66, R20: SAMPLE completes in every restful state. It puts one level in `SMP` and in its event: the bus level where
the line has one, and otherwise a draw, one of the model's record being used up (log 8); nothing else of the block
changes. The bus levels are unchanged by it (R40), so of the receiver only the count of its steps changes, and where the
clock's level is known it adds no derived event either (log 12). -/
def Obligations.SampleReadsTheDataLine : Prop :=
  ∀ s : State, s.restful → ∃ v rx' tape n,
    exec .sample s = .next ({ s with
      smp := some v, traceRev := .smp v :: s.traceRev, rx := rx', smpTape := tape, smpDraws := n,
      midOp := false }.advance s.cur 1) ∧
    (∀ b, s.dioBus = .bit b → v = b ∧ tape = s.smpTape ∧ n = s.smpDraws) ∧
    ((∀ b, s.dioBus ≠ .bit b) → tape = s.smpTape.tail ∧ n = s.smpDraws + 1 ∧ (∀ d ds, s.smpTape = d :: ds → v = d)) ∧
    (s.WireInv → rx' = { s.rx with steps := s.rx.steps + 1, logRev := rx'.logRev } ∧
      (s.clkBus ≠ .unknown → rx'.logRev = s.rx.logRev))

/-- R65, R40: the bus levels are unchanged by WAIT, so the receiver does nothing: of its state only the count of its steps
changes, and where the clock's level is known it adds no derived event either (what the receiver's log notes: log 12). -/
def Obligations.WaitChangesNoState : Prop :=
  ∀ s : State, s.restful → s.WireInv → ∃ t, exec .wait s = .next t ∧
    t.rx = { s.rx with steps := s.rx.steps + 1, logRev := t.rx.logRev } ∧
    (s.clkBus ≠ .unknown → t.rx.logRev = s.rx.logRev)

/-- R111, R125, R63: a SETDIO while the clock is high is a start condition when it makes the line fall and, to a
synchronised receiver, a stop condition when it makes it rise; an unsynchronised receiver ignores a rise; one that leaves
the level as it is changes nothing of the receiver but the count of its steps. What the receiver holds stays in every
case. That its log notes a stop outside a frame too, where R111 says no more than that it does nothing, is the model's
choice (log 12). -/
def Obligations.RawDataEdgesFrameTheReceiver : Prop :=
  ∀ s : State, s.restful → s.WireInv → s.clkDir = some .out → s.dioDir = some .out → s.clkOut = true →
    s.rx.drv = false →
    (s.dioOut = true → ∃ t, exec (.setdio false) s = .next t ∧ t.rx = { s.rx with
      sync := true, frame := true, phase := .data, bits := 0, nbyte := 0, cmd := .none, pdio := .bit false,
      steps := s.rx.steps + 1, logRev := (s.rx.steps + 1, .start) :: s.rx.logRev }) ∧
    (s.dioOut = false → s.rx.sync = true → ∃ t, exec (.setdio true) s = .next t ∧ t.rx = { s.rx with
      frame := false, phase := .data, bits := 0, pdio := .bit true,
      steps := s.rx.steps + 1, logRev := (s.rx.steps + 1, .stop) :: s.rx.logRev }) ∧
    (s.dioOut = false → s.rx.sync = false → ∃ t, exec (.setdio true) s = .next t ∧ t.rx = { s.rx with
      pdio := .bit true, steps := s.rx.steps + 1 }) ∧
    (∃ t, exec (.setdio s.dioOut) s = .next t ∧ t.rx = { s.rx with steps := s.rx.steps + 1 })

/-- R112, R36, R62: in a frame, SETCLK 1 on a low clock gives the receiver one data bit, in the place the bits before it
leave next, the other bits of the byte staying; SETCLK 0 after the eighth bit begins the acknowledge bit, in which the
receiver pulls the line exactly when it acknowledges; and SETCLK 0 in the acknowledge bit ends it, the line released and
the byte counted among those seen. -/
def Obligations.RawClockEdgesClockBits : Prop :=
  ∀ s : State, s.restful → s.WireInv → s.clkDir = some .out → s.dioDir = some .out → s.rx.frame = true →
    (s.clkOut = false → s.rx.phase = .data → s.rx.bits < 8 → ∃ t, exec (.setclk true) s = .next t ∧
      t.rx = { s.rx with
        shift := t.rx.shift, bits := s.rx.bits + 1, pclk := .bit true, steps := s.rx.steps + 1 } ∧
      (∀ k, k < 8 → t.rx.shift.getLsbD k = if k = s.rx.bits then s.dioOut else s.rx.shift.getLsbD k)) ∧
    (s.clkOut = true → s.rx.phase = .data → s.rx.bits = 8 → ∃ a t, exec (.setclk false) s = .next t ∧
      t.rx.phase = .ack ∧ t.rx.acked = a ∧ t.rx.drv = a ∧ t.rx.received = s.rx.received ∧ t.rx.disp = s.rx.disp ∧
      (s.rx.ackPlan = .always → a = true)) ∧
    (s.clkOut = true → s.rx.phase = .ack → ∃ t, exec (.setclk false) s = .next t ∧
      t.rx.drv = false ∧ t.rx.phase = .data ∧ t.rx.bits = 0 ∧
      t.rx.received = s.rx.received ++ [(s.rx.shift, s.rx.acked)] ∧
      (s.rx.acked = false → t.rx.sync = false ∧ t.rx.disp = Vector.replicate 4 none))

/-- R64, R111, R114, R125: a clock line made an input is unknown to the receiver, which loses synchronisation and
everything it held. -/
def Obligations.ClockInputDesynchronises : Prop :=
  ∀ s : State, s.restful → ∃ t, exec (.setdir .clk .inp) s = .next t ∧ t.clkBus = .unknown ∧
    t.rx.sync = false ∧ t.rx.frame = false ∧ t.rx.drv = false ∧ t.rx.cmd = .none ∧ t.rx.mode = none ∧
    t.rx.ptr = none ∧ (∀ p, t.rx.dispAt p = none) ∧ t.rx.dctrlEn = none ∧ t.rx.dctrlBri = none

/-- R114: what a desynchronisation leaves, and that a later start condition resynchronises the receiver
without its positions and configuration. That its log notes every desynchronisation, one of a receiver that is not
synchronised included, is the model's choice (log 12). -/
def Obligations.DesynchronisedReceiver : Prop :=
  ∀ rx : Rx,
    rx.desync = { rx with
      sync := false, frame := false, phase := .data, bits := 0, nbyte := 0, cmd := .none, drv := false, mode := none,
      ptr := none, disp := Vector.replicate 4 none, dctrlEn := none, dctrlBri := none,
      logRev := (rx.steps, .desync) :: rx.logRev } ∧
    rx.desync.start.sync = true ∧ rx.desync.start.frame = true ∧ rx.desync.start.disp = rx.desync.disp ∧
    rx.desync.start.dctrlEn = none ∧ rx.desync.start.dctrlBri = none ∧
    (∀ p, Rx.reset.dispAt p = rx.desync.dispAt p)

/-! ### Transport -/

/-- R68: START completes from every state that passes the checks, whatever the receiver does: CLK high, DIO low, its four
events, no other change of the block; and it opens a frame at the receiver (R111), which keeps what it holds if it was not
pulling the line. -/
def Obligations.StartOpensAFrame : Prop :=
  ∀ s : State, s.transportReady → s.WireInv → ∃ rx', exec .start s = .next ({ s with
      clkOut := true, dioOut := false, traceRev := startEvents.reverse ++ s.traceRev, rx := rx',
      midOp := false }.advance s.cur 1) ∧
    rx'.sync = true ∧ rx'.frame = true ∧ rx'.phase = .data ∧ rx'.bits = 0 ∧ rx'.nbyte = 0 ∧ rx'.cmd = .none ∧
    rx'.drv = false ∧ rx'.received = s.rx.received ∧
    (s.rx.drv = false → rx'.mode = s.rx.mode ∧ rx'.ptr = s.rx.ptr ∧ rx'.disp = s.rx.disp ∧
      rx'.dctrlEn = s.rx.dctrlEn ∧ rx'.dctrlBri = s.rx.dctrlBri)

/-- R69: STOP completes from every state that passes the checks, whatever the receiver does: the idle state, its seven
events, no other change of the block. Where the receiver is outside a frame or in one with an incomplete byte, it closes
the frame (R111), keeps what it holds and has seen no further byte. -/
def Obligations.StopClosesTheFrame : Prop :=
  ∀ s : State, s.transportReady → ∃ rx', exec .stop s = .next ({ s with
      clkOut := true, dioOut := true, traceRev := stopEvents.reverse ++ s.traceRev, rx := rx',
      midOp := false }.advance s.cur 1) ∧
    (s.WireInv → s.rx.drv = false → s.rx.phase = .data → s.rx.bits < 8 →
      rx'.sync = s.rx.sync ∧ rx'.frame = false ∧ rx'.bits = 0 ∧ rx'.drv = false ∧ rx'.received = s.rx.received ∧
      rx'.mode = s.rx.mode ∧ rx'.ptr = s.rx.ptr ∧ rx'.disp = s.rx.disp ∧ rx'.dctrlEn = s.rx.dctrlEn ∧
      rx'.dctrlBri = s.rx.dctrlBri)

/-- R70, R72, R19, L1.7: WRBYTE completes from every state that passes the checks, whatever the receiver does. Its first
40 events are the byte's bits and do not depend on the answer; `ACK` and `SMP` hold the one answer; 52 events with an
acknowledge, 51 without, and no other change of the block. -/
def Obligations.WrbyteShiftsOutTheByte : Prop :=
  ∀ (s : State) (v : Byte), s.transportReady → ∃ a rx', exec (.wrbyte v) s = .next ({ s with
      clkOut := false, dioOut := !a, smp := some (!a), ack := some a,
      traceRev := (dataEvents v ++ ackEvents a).reverse ++ s.traceRev, rx := rx', midOp := false }.advance s.cur 1) ∧
    (dataEvents v).length = 40 ∧ (dataEvents v ++ ackEvents a).length = (if a = true then 52 else 51) ∧
    (dataEvents v ++ ackEvents a).count .wait = 20

/-- R112, R113, R72: in a frame, between bytes, the receiver sees exactly the byte WRBYTE sends, with the answer `ACK`
holds; a receiver that acknowledges every byte gives `ACK = 1`; a byte it refuses desynchronises it and faults nothing. -/
def Obligations.WrbyteReachesTheReceiver : Prop :=
  ∀ (s : State) (v : Byte), s.transportReady → s.WireInv → s.rx.frame = true → s.rx.phase = .data → s.rx.bits = 0 →
    ∃ a t, exec (.wrbyte v) s = .next t ∧ t.ack = some a ∧ t.smp = some (!a) ∧ t.fault = none ∧
      t.rx.received = s.rx.received ++ [(v, a)] ∧ t.rx.drv = false ∧ t.rx.phase = .data ∧ t.rx.bits = 0 ∧
      (s.rx.ackPlan = .always → a = true) ∧
      (a = false → t.rx.sync = false ∧ (∀ p, t.rx.dispAt p = none) ∧ t.rx.dctrlEn = none ∧ t.rx.dctrlBri = none)

/-- R74: a WRBYTE outside a frame is not refused by the block and is ignored by the receiver: no acknowledge, and of the
receiver only its record of the bus and its steps change. -/
def Obligations.WrbyteOutsideAFrameIsIgnored : Prop :=
  ∀ (s : State) (v : Byte), s.transportReady → s.WireInv → s.rx.frame = false →
    ∃ t, exec (.wrbyte v) s = .next t ∧ t.ack = some false ∧ t.smp = some true ∧ t.dioOut = true ∧ t.fault = none ∧
      t.rx = { s.rx with pclk := .bit false, pdio := .bit true, steps := s.rx.steps + 51 }

/-- R113, the command byte of a frame, with a working receiver: the data commands set the address mode, an address command
sets the pointer where the mode is known, the display-control command sets the configuration, and every other byte
desynchronises. What a command does not set stays. -/
def Obligations.CommandByteInterpreted : Prop :=
  ∀ (s : State) (v : Byte), s.transportReady → s.WireInv → s.workingReceiver → s.rx.frame = true →
    s.rx.phase = .data → s.rx.bits = 0 → s.rx.nbyte = 0 →
    ∃ t, exec (.wrbyte v) s = .next t ∧ t.ack = some true ∧
      (v = 0x40 ∨ v = 0x44 → t.rx.sync = true ∧ t.rx.cmd = .data ∧ t.rx.nbyte = 1 ∧
        t.rx.mode = some (if v = 0x40 then .autoinc else .fixed) ∧ t.rx.ptr = s.rx.ptr ∧ t.rx.disp = s.rx.disp ∧
        t.rx.dctrlEn = s.rx.dctrlEn ∧ t.rx.dctrlBri = s.rx.dctrlBri) ∧
      (0xC0 ≤ v.toNat → v.toNat ≤ 0xC7 → s.rx.mode ≠ none → t.rx.sync = true ∧ t.rx.cmd = .addr ∧ t.rx.nbyte = 1 ∧
        t.rx.ptr = some (v.toNat - 0xC0) ∧ t.rx.mode = s.rx.mode ∧ t.rx.disp = s.rx.disp ∧
        t.rx.dctrlEn = s.rx.dctrlEn ∧ t.rx.dctrlBri = s.rx.dctrlBri) ∧
      (∀ e b, v = ctrlByte e b → t.rx.sync = true ∧ t.rx.cmd = .ctrl ∧ t.rx.nbyte = 1 ∧ t.rx.dctrlEn = some e ∧
        t.rx.dctrlBri = some b ∧ t.rx.mode = s.rx.mode ∧ t.rx.ptr = s.rx.ptr ∧ t.rx.disp = s.rx.disp) ∧
      ((v ≠ 0x40 ∧ v ≠ 0x44 ∧ (v.toNat < 0xC0 ∨ 0xC7 < v.toNat ∨ s.rx.mode = none) ∧ (∀ e b, v ≠ ctrlByte e b)) →
        t.rx.sync = false ∧ (∀ p, t.rx.dispAt p = none) ∧ t.rx.dctrlEn = none ∧ t.rx.dctrlBri = none)

/-- R113, R35, a data byte of a frame, with a working receiver: at addresses 0 to 3 it becomes the position's pattern,
addresses 4 and 5 take it and show nothing, 6 and above desynchronise, and so does a data byte that follows no address
command; in auto-increment mode the pointer moves on, in the other it stays. -/
def Obligations.DataByteInterpreted : Prop :=
  ∀ (s : State) (v : Byte), s.transportReady → s.WireInv → s.workingReceiver → s.rx.frame = true →
    s.rx.phase = .data → s.rx.bits = 0 → s.rx.nbyte ≠ 0 →
    ∃ t, exec (.wrbyte v) s = .next t ∧ t.ack = some true ∧
      (∀ p, s.rx.cmd = .addr → s.rx.ptr = some p → p ≤ 5 → t.rx.sync = true ∧ t.rx.nbyte = s.rx.nbyte + 1 ∧
        t.rx.cmd = .addr ∧ t.rx.mode = s.rx.mode ∧
        t.rx.ptr = some (if s.rx.mode = some .autoinc then p + 1 else p) ∧
        (∀ q, q < 4 → t.rx.dispAt q = if q = p then some v else s.rx.dispAt q) ∧
        t.rx.dctrlEn = s.rx.dctrlEn ∧ t.rx.dctrlBri = s.rx.dctrlBri) ∧
      ((s.rx.cmd ≠ .addr ∨ ∃ p, s.rx.ptr = some p ∧ 6 ≤ p) →
        t.rx.sync = false ∧ (∀ p, t.rx.dispAt p = none) ∧ t.rx.dctrlEn = none ∧ t.rx.dctrlBri = none)

/-- R71, R72, R131: SENDCMD completes from every state that passes the checks, whatever the receiver does: one START, the
byte, one STOP, the lines idle, `ACK` the answer, and no other change of the block. -/
def Obligations.SendcmdSendsOneTransaction : Prop :=
  ∀ (s : State) (v : Byte), s.transportReady → ∃ a t, exec (.sendcmd v) s = .next t ∧ SentFrom s 1 a t ∧
    t.trace = s.trace ++ startEvents ++ dataEvents v ++ ackEvents a ++ stopEvents ∧
    (s.WireInv → s.workingReceiver → a = true ∧ t.rx.received = s.rx.received ++ [(v, true)] ∧ t.rx.frame = false)

/-- R73, R111: in a transaction from a state whose DIO latch is high whenever CLK is, the working receiver sees exactly one
start condition, at its beginning, and exactly one stop condition, at its end: the data line moves under a high clock
nowhere else. For SENDCMD of each command byte of the device (R60; an address command where the address mode is known,
R113), and for DSEG, which is two transactions (R86). The
receiver's log, in which this is read, notes a stop outside a frame too (log 12). -/
def Obligations.DataLineMovesOnlyAtStartAndStop : Prop :=
  ∀ s : State, s.transportReady → s.WireInv → s.workingReceiver → s.rx.drv = false →
    (s.clkOut = true → s.dioOut = true) →
    (∀ v, v = 0x40 ∨ v = 0x44 ∨ (∃ e b, v = ctrlByte e b) ∨
        (0xC0 ≤ v.toNat ∧ v.toNat ≤ 0xC7 ∧ s.rx.mode ≠ none) → ∃ t, exec (.sendcmd v) s = .next t ∧
      t.rx.events = s.rx.events ++ [.start, .byte v true, .stop]) ∧
    (∀ pos pat, s.inited = true → ∃ t, exec (.dseg pos pat) s = .next t ∧
      t.rx.events = s.rx.events ++ [.start, .byte 0x40 true, .stop, .start, .byte (addrByte (maskPos pos)) true,
        .byte pat true, .stop])

/-- R56, R71, R26: the ops of `TXN b` one after another have the same events and effects as `SENDCMD b`, whatever the
receiver does, but that they are three ops and move `OPIDX` by three. -/
def Obligations.TxnOpsEqualSendcmd : Prop :=
  ∀ (s : State) (b : Byte), s.transportReady → ∃ t, exec (.sendcmd b) s = .next t ∧
    runOps (txn b []) s = some (t.advance s.cur 2)

/-- R58: the address command byte: `ADDR(p) = 0xC0 | p`, `0b110000pp`, for each position. -/
def Obligations.AddressCommandByte : Prop :=
  ∀ p : BitVec 2, addrByte (p.zeroExtend 8) = 0xC0 ||| p.zeroExtend 8 ∧
    addrByte (p.zeroExtend 8) = (0b110000 : BitVec 6) ++ p

/-- R57, R59: the data command byte, and the display-control byte `CTRL(e, b) = 0x80 | (e << 3) | b`, `0b1000ebbb`. -/
def Obligations.ConfigurationCommandBytes : Prop :=
  dataAutoinc = 0x40 ∧
  ∀ (e : Bool) (b : BitVec 3), ctrlByte e b = (0b1000 : BitVec 4) ++ BitVec.ofBool e ++ b ∧
    (ctrlByte e b).toNat = 0x80 + 8 * e.toNat + b.toNat

/-! ### Encoder -/

/-- R81, R33, R61: ENCODE completes in every state, a running op or not, initialised or not: `PAT` is the table's entry,
no event is recorded, and nothing else changes. -/
def Obligations.EncodeWritesThePattern : Prop :=
  ∀ (s : State) (c p : Byte), rom s.launch c = some p →
    exec (.encode c) s = .next ({ s with pat := some p }.advance s.cur 1)

/-- R80, R76 to R79: the table's entry for every code, and that exactly 68 codes have one. -/
def Obligations.EncoderTable : Prop :=
  ∀ l : Launch,
    [0x30, 0x31, 0x32, 0x33, 0x34, 0x35, 0x36, 0x37, 0x38, 0x39].map (rom l) =
      [0x3F, 0x06, 0x5B, 0x4F, 0x66, 0x6D, 0x7D, 0x07, 0x7F, 0x6F].map some ∧
    (∀ k : Fin 26, rom l (BitVec.ofNat 8 (0x61 + k)) = some ((0 : BitVec 1) ++ l.letterPattern[k]) ∧
      rom l (BitVec.ofNat 8 (0x41 + k)) = some ((0 : BitVec 1) ++ l.letterPattern[k])) ∧
    rom l 0x20 = some 0x00 ∧ rom l 0x2D = some 0x40 ∧ rom l 0x5F = some 0x08 ∧
    rom l 0x3D = some ((0 : BitVec 1) ++ l.punctEq) ∧ rom l 0x27 = some ((0 : BitVec 1) ++ l.punctApos) ∧
    rom l 0x2C = some ((0 : BitVec 1) ++ l.punctComma) ∧
    ((List.range 256).countP fun n => (rom l (BitVec.ofNat 8 n)).isSome) = 68

/-- R82: the properties every model must keep, whatever its parameters: ENCODE's result depends on the character alone; the
ten digit patterns are distinct, and with those of '-' and ' ' still are; bit 7 of every pattern is clear; the blank is
0x00. -/
def Obligations.EncoderProperties : Prop :=
  ∀ l : Launch,
    (∀ (s s' : State) (c : Byte), s.launch = l → s'.launch = l → ∀ t t', exec (.encode c) s = .next t →
      exec (.encode c) s' = .next t' → t.fault = none → t'.fault = none → t.pat = t'.pat) ∧
    ([0x30, 0x31, 0x32, 0x33, 0x34, 0x35, 0x36, 0x37, 0x38, 0x39].map (rom l)).Nodup ∧
    (∀ c p, rom l c = some p → p.getLsbD 7 = false) ∧
    rom l 0x20 = some 0x00 ∧
    ([0x30, 0x31, 0x32, 0x33, 0x34, 0x35, 0x36, 0x37, 0x38, 0x39, 0x2D, 0x20].map (rom l)).Nodup

/-! ### Driver -/

/-- R83: `Clamp(v) = 0 if v < 0; 7 if v > 7; v otherwise`, and the spec's examples. -/
def Obligations.BrightnessClamp : Prop :=
  ∀ v : Int, ((clamp v).toNat : Int) = (if v < 0 then 0 else if v > 7 then 7 else v) ∧
    clamp 9 = 7 ∧ clamp 7 = 7 ∧ clamp 0 = 0 ∧ clamp (-1) = 0 ∧ clamp (-32768) = 0

/-- R84: `Mask(pos) = pos & 0x03`, and the spec's examples. -/
def Obligations.PositionMask : Prop :=
  ∀ pos : Byte, maskPos pos = pos &&& 0x03 ∧ (maskPos pos).toNat = pos.toNat % 4 ∧
    maskPos 0 = 0 ∧ maskPos 3 = 3 ∧ maskPos 4 = 0 ∧ maskPos 5 = 1 ∧ maskPos 0xFF = 3

/-- R85: `FormatInt` gives four characters; in range, they read back as the integer, right-justified, a leading '-' for a
negative one; out of range, the two sentinels. -/
def Obligations.FormattedIntegerReadsBack : Prop :=
  ∀ n : Int, (formatInt n).length = 4 ∧
    (-999 ≤ n → n ≤ 9999 → readInteger (formatInt n) = some n ∧
      ∀ c ∈ formatInt n, (0x30 ≤ c.toNat ∧ c.toNat ≤ 0x39) ∨ c = 0x2D ∨ c = 0x20) ∧
    (9999 < n → formatInt n = [0x45, 0x39, 0x39, 0x39]) ∧
    (n < -999 → formatInt n = [0x45, 0x2D, 0x39, 0x39])

/-- R89, R88, R131: INIT completes from every restful state that is not initialised, whatever the receiver does and
whatever the lines: both lines outputs and idle, the configuration cached with the brightness clamped, the colon cleared,
`INITED` 1, and one configuration byte sent; between 66 and 67 events, 24 of them `WAIT`. -/
def Obligations.InitConfigures : Prop :=
  ∀ (s : State) (en : Bool) (bri : Int), s.initReady → ∃ a t, exec (.init en bri) s = .next t ∧
    SentFrom { s with
      clkDir := some .out, dioDir := some .out, colonCache := some 0x00, cfgEn := some en, cfgBri := some (clamp bri),
      inited := true } 1 a t ∧
    t.trace = s.trace ++ [.dir .clk .out, .dir .dio .out, .lat .clk false, .lat .dio false] ++ startEvents ++
      dataEvents (ctrlByte en (clamp bri)) ++ ackEvents a ++ stopEvents ∧
    (s.WireInv → s.workingReceiver → a = true ∧ t.rx.sync = true ∧ t.rx.frame = false ∧ t.rx.dctrlEn = some en ∧
      t.rx.dctrlBri = some (clamp bri))

/-- R89, R121: from a receiver that is not synchronised, as at power-on, INIT synchronises it and writes no position:
positions, address mode and pointer stay unknown. -/
def Obligations.InitWritesNoPosition : Prop :=
  ∀ (s : State) (en : Bool) (bri : Int), s.initReady → s.WireInv → s.workingReceiver → s.rx.sync = false →
    ∃ t, exec (.init en bri) s = .next t ∧ t.rx.between ∧ (∀ p, t.rx.dispAt p = none) ∧ t.rx.mode = none ∧
      t.rx.ptr = none ∧ t.rx.received = s.rx.received ++ [(ctrlByte en (clamp bri), true)]

/-- R90, R86: DSEG with a working receiver: the masked position holds the raw pattern, every other position and the
configuration stay, the pointer stands after the position; the bytes sent are the three of R86; 178 events, 68 of them
`WAIT`; of the block only the lines' last levels, `ACK` and `SMP` change. -/
def Obligations.DsegWritesThePosition : Prop :=
  ∀ (s : State) (pos pat : Byte), s.driverReady → s.WireInv → s.workingReceiver → s.rx.drv = false →
    ∃ t, exec (.dseg pos pat) s = .next t ∧ SentFrom s 1 true t ∧ t.rx.between ∧
      (∀ p, p < 4 → t.rx.dispAt p = if p = pos.toNat % 4 then some pat else s.rx.dispAt p) ∧
      t.rx.mode = some .autoinc ∧ t.rx.ptr = some (pos.toNat % 4 + 1) ∧
      t.rx.dctrlEn = s.rx.dctrlEn ∧ t.rx.dctrlBri = s.rx.dctrlBri ∧
      t.rx.received = s.rx.received ++ [(0x40, true), (addrByte (maskPos pos), true), (pat, true)] ∧
      t.trace.length = s.trace.length + 178 ∧ t.trace.count .wait = s.trace.count .wait + 68

/-- R86: the two-transaction write is the ops of two `TXN`s run one after another, whatever the receiver does, but that
it is one op: the data command alone, then the address command followed by the pattern. -/
def Obligations.DsegIsTwoTransactions : Prop :=
  ∀ (s : State) (pos pat : Byte), s.driverReady → ∃ t, exec (.dseg pos pat) s = .next t ∧
    runOps (txn 0x40 [] ++ txn (addrByte (maskPos pos)) [pat]) s = some (t.advance s.cur 6)

/-- R91, R87, R24: DCHAR with a working receiver: the character's pattern at the masked position; at operand 1, before
masking, the cached colon bit is kept and the pattern sent is cached; at every other operand the cache stays. -/
def Obligations.DcharWritesTheCharacter : Prop :=
  ∀ (s : State) (pos c pat cache : Byte), s.driverReady → s.WireInv → s.workingReceiver → s.rx.drv = false →
    rom s.launch c = some pat → s.colonCache = some cache →
    ∃ t sent, exec (.dchar pos c) s = .next t ∧
      sent = (if pos = 1 then pat ||| (cache &&& 0x80) else pat) ∧
      SentFrom { s with colonCache := some (if pos = 1 then sent else cache) } 1 true t ∧ t.rx.between ∧
      (∀ p, p < 4 → t.rx.dispAt p = if p = pos.toNat % 4 then some sent else s.rx.dispAt p) ∧
      renders s.launch t.rx (pos.toNat % 4) c = true ∧
      t.rx.dctrlEn = s.rx.dctrlEn ∧ t.rx.dctrlBri = s.rx.dctrlBri ∧
      t.rx.received = s.rx.received ++ [(0x40, true), (addrByte (maskPos pos), true), (sent, true)] ∧
      t.trace.length = s.trace.length + 178

/-- R92, R24: DCOLON with a working receiver: bit 7 of the cache is the operand, bits 6 to 0 stay, and the cache is
written to position 1: the glyph stays the cached one, and the colon is lit exactly when the operand is 1 and the
display is on (R115). -/
def Obligations.DcolonSetsTheColon : Prop :=
  ∀ (s : State) (v : Bool) (cache : Byte), s.driverReady → s.WireInv → s.workingReceiver → s.rx.drv = false →
    s.colonCache = some cache →
    ∃ t new, exec (.dcolon v) s = .next t ∧ SentFrom { s with colonCache := some new } 1 true t ∧
      (∀ k, k < 7 → new.getLsbD k = cache.getLsbD k) ∧ new.getLsbD 7 = v ∧ t.rx.between ∧
      (∀ p, p < 4 → t.rx.dispAt p = if p = 1 then some new else s.rx.dispAt p) ∧ t.rx.colonBit = some v ∧
      (∀ on, s.rx.dctrlEn = some on → t.rx.colonLit = some (on && v)) ∧
      t.rx.dctrlEn = s.rx.dctrlEn ∧ t.rx.dctrlBri = s.rx.dctrlBri ∧
      t.rx.received = s.rx.received ++ [(0x40, true), (0xC1, true), (new, true)] ∧
      t.trace.length = s.trace.length + 178

/-- R93, R49, L1.5: DSTR with a working receiver, all of its characters having a table entry: each position renders its
character, and a blank from the first 0x00 on; position 1 keeps the colon; 712 events; `OPIDX` moves by two. -/
def Obligations.DstrShowsTheString : Prop :=
  ∀ (s : State) (c0 c1 c2 c3 cache : Byte), s.driverReady → s.WireInv → s.workingReceiver → s.rx.drv = false →
    encodable s.launch (.dstr c0 c1 c2 c3) = true → s.colonCache = some cache →
    ∃ t sent, exec (.dstr c0 c1 c2 c3) s = .next t ∧ SentFrom { s with colonCache := some sent } 2 true t ∧
      t.rx.between ∧
      renders s.launch t.rx 0 (if c0 = 0 then 0x20 else c0) = true ∧
      renders s.launch t.rx 1 (if c0 = 0 ∨ c1 = 0 then 0x20 else c1) = true ∧
      renders s.launch t.rx 2 (if c0 = 0 ∨ c1 = 0 ∨ c2 = 0 then 0x20 else c2) = true ∧
      renders s.launch t.rx 3 (if c0 = 0 ∨ c1 = 0 ∨ c2 = 0 ∨ c3 = 0 then 0x20 else c3) = true ∧
      t.rx.dispAt 1 = some sent ∧ sent.getLsbD 7 = cache.getLsbD 7 ∧
      (∀ p, p ≠ 1 → ∀ d, t.rx.dispAt p = some d → d.getLsbD 7 = false) ∧
      t.rx.mode = some .autoinc ∧ t.rx.ptr = some 4 ∧ t.rx.dctrlEn = s.rx.dctrlEn ∧ t.rx.dctrlBri = s.rx.dctrlBri ∧
      t.trace.length = s.trace.length + 712

/-- R94, R85, L1.1, L1.2: with a working receiver DINT completes for every integer, so it never faults `UNENCODABLE`: an
integer in -999 to 9999 is read back from the four positions by the inverse of the encoder, a larger one renders "E999"
and a smaller one "E-99"; the colon stays; 712 events. -/
def Obligations.DintShowsTheInteger : Prop :=
  ∀ (s : State) (n : Int) (cache : Byte), s.driverReady → s.WireInv → s.workingReceiver → s.rx.drv = false →
    s.colonCache = some cache →
    ∃ t sent, exec (.dint n) s = .next t ∧ SentFrom { s with colonCache := some sent } 1 true t ∧ t.rx.between ∧
      t.rx.dispAt 1 = some sent ∧ t.rx.colonBit = some (cache.getLsbD 7) ∧
      (-999 ≤ n → n ≤ 9999 →
        ((List.range 4).mapM fun p => (t.rx.glyphAt p).bind glyphChar) = some (formatInt n) ∧
        readInteger (formatInt n) = some n) ∧
      (9999 < n → renders s.launch t.rx 0 0x45 = true ∧ renders s.launch t.rx 1 0x39 = true ∧
        renders s.launch t.rx 2 0x39 = true ∧ renders s.launch t.rx 3 0x39 = true) ∧
      (n < -999 → renders s.launch t.rx 0 0x45 = true ∧ renders s.launch t.rx 1 0x2D = true ∧
        renders s.launch t.rx 2 0x39 = true ∧ renders s.launch t.rx 3 0x39 = true) ∧
      t.rx.mode = some .autoinc ∧ t.rx.ptr = some 4 ∧ t.rx.dctrlEn = s.rx.dctrlEn ∧ t.rx.dctrlBri = s.rx.dctrlBri ∧
      t.trace.length = s.trace.length + 712

/-- R95, R115: CLEAR with a working receiver: every position 0x00, so that no segment and no colon is lit whether the display
is on or off; the cache unchanged; 712 events. -/
def Obligations.ClearBlanksEveryPosition : Prop :=
  ∀ s : State, s.driverReady → s.WireInv → s.workingReceiver → s.rx.drv = false →
    ∃ t, exec .clear s = .next t ∧ SentFrom s 1 true t ∧ t.rx.between ∧
      (∀ p, p < 4 → t.rx.dispAt p = some 0x00 ∧ t.rx.litSegments p = some 0) ∧ t.rx.colonBit = some false ∧
      t.rx.colonLit = some false ∧
      t.rx.mode = some .autoinc ∧ t.rx.ptr = some 4 ∧ t.rx.dctrlEn = s.rx.dctrlEn ∧ t.rx.dctrlBri = s.rx.dctrlBri ∧
      t.trace.length = s.trace.length + 712

/-- R96, R97, R88, R115: ENABLE and SETBRI with a working receiver: each writes its own cached field, the brightness clamped,
keeps the other, sends the one byte of both, and the receiver's configuration is the cached one; positions, mode and
pointer stay; 63 events. After ENABLE 1 the display lights what the positions hold, at the cached brightness; after ENABLE 0
no segment and no colon is lit. -/
def Obligations.EnableAndSetbriConfigure : Prop :=
  ∀ (s : State) (e0 : Bool) (b0 : BitVec 3), s.driverReady → s.WireInv → s.workingReceiver → s.rx.drv = false →
    s.cfgEn = some e0 → s.cfgBri = some b0 →
    (∀ on, ∃ t, exec (.enable on) s = .next t ∧ SentFrom { s with cfgEn := some on } 1 true t ∧ t.rx.between ∧
      t.rx.dctrlEn = some on ∧ t.rx.dctrlBri = some b0 ∧ t.rx.displayOn = some on ∧
      (∀ p, t.rx.litSegments p = if on = true then (s.rx.dispAt p).map (·.extractLsb' 0 7) else some 0) ∧
      t.rx.colonLit = (if on = true then s.rx.colonBit else some false) ∧
      t.rx.shownBrightness = (if on = true then some b0 else none) ∧
      t.rx.mode = s.rx.mode ∧ t.rx.ptr = s.rx.ptr ∧ t.rx.disp = s.rx.disp ∧
      t.rx.received = s.rx.received ++ [(ctrlByte on b0, true)] ∧ t.trace.length = s.trace.length + 63) ∧
    (∀ v, ∃ t, exec (.setbri v) s = .next t ∧ SentFrom { s with cfgBri := some (clamp v) } 1 true t ∧ t.rx.between ∧
      t.rx.dctrlEn = some e0 ∧ t.rx.dctrlBri = some (clamp v) ∧
      t.rx.mode = s.rx.mode ∧ t.rx.ptr = s.rx.ptr ∧ t.rx.disp = s.rx.disp ∧
      t.rx.received = s.rx.received ++ [(ctrlByte e0 (clamp v), true)] ∧ t.trace.length = s.trace.length + 63)

/-- R72, R131: every driver op but INIT whose characters have table entries completes from every state that passes the
checks, whatever the receiver does: no fault, `BUSY` 0, the lines idle, `ACK` and `SMP` the last answer, the directions,
`PAT` and `INITED` unchanged, and between the counts of R131 less one event for each byte. What it leaves in `CFG_EN`
(R96), `CFG_BRI` (R97) and `COLON_CACHE` (R87, R92 to R95) does not depend on the answers either. -/
def Obligations.DriverOpsCompleteWithAnyReceiver : Prop :=
  ∀ (s : State) (i : Instr), s.driverReady → i.mnemonic.row.family = .driver → i.mnemonic ≠ .INIT →
    encodable s.launch i = true →
    ∃ a t, exec i s = .next t ∧
      SentFrom { s with cfgEn := t.cfgEn, cfgBri := t.cfgBri, colonCache := t.colonCache } i.mnemonic.row.words a t ∧
      (∀ on, i = .enable on → t.cfgEn = some on) ∧ (i.mnemonic ≠ .ENABLE → t.cfgEn = s.cfgEn) ∧
      (∀ v, i = .setbri v → t.cfgBri = some (clamp v)) ∧ (i.mnemonic ≠ .SETBRI → t.cfgBri = s.cfgBri) ∧
      (∀ cache, s.colonCache = some cache →
        (∀ v, i = .dcolon v → ∃ new, t.colonCache = some new ∧ (∀ k, k < 7 → new.getLsbD k = cache.getLsbD k) ∧
          new.getLsbD 7 = v) ∧
        (∀ pos c pat, i = .dchar pos c → rom s.launch c = some pat →
          t.colonCache = some (if pos = 1 then pat ||| (cache &&& 0x80) else cache)) ∧
        (∀ c0 c1 c2 c3 pat, i = .dstr c0 c1 c2 c3 →
          rom s.launch (if c0 = 0 ∨ c1 = 0 then 0x20 else c1) = some pat →
          t.colonCache = some (pat ||| (cache &&& 0x80))) ∧
        (∀ n c pat, i = .dint n → (formatInt n)[1]? = some c → rom s.launch c = some pat →
          t.colonCache = some (pat ||| (cache &&& 0x80)))) ∧
      (i.mnemonic = .DSEG ∨ i.mnemonic = .CLEAR ∨ i.mnemonic = .ENABLE ∨ i.mnemonic = .SETBRI →
        t.colonCache = s.colonCache) ∧
      (i.mnemonic = .DSEG ∨ i.mnemonic = .DCHAR ∨ i.mnemonic = .DCOLON →
        s.trace.length + 175 ≤ t.trace.length ∧ t.trace.length ≤ s.trace.length + 178 ∧
        t.trace.count .wait = s.trace.count .wait + 68) ∧
      (i.mnemonic = .DSTR ∨ i.mnemonic = .DINT ∨ i.mnemonic = .CLEAR →
        s.trace.length + 700 ≤ t.trace.length ∧ t.trace.length ≤ s.trace.length + 712 ∧
        t.trace.count .wait = s.trace.count .wait + 272) ∧
      (i.mnemonic = .ENABLE ∨ i.mnemonic = .SETBRI →
        s.trace.length + 62 ≤ t.trace.length ∧ t.trace.length ≤ s.trace.length + 63 ∧
        t.trace.count .wait = s.trace.count .wait + 24)

/-- R98: the two fields of the configuration are independent: one ENABLE and one SETBRI, in either order, reach every
combination from every other, at the block and at a working receiver. -/
def Obligations.ConfigurationFieldsIndependent : Prop :=
  ∀ (s : State) (e0 on : Bool) (b0 : BitVec 3) (v : Int), s.driverReady → s.WireInv → s.workingReceiver →
    s.rx.drv = false → s.cfgEn = some e0 → s.cfgBri = some b0 →
    ∃ t u, runOps [.enable on, .setbri v] s = some t ∧ runOps [.setbri v, .enable on] s = some u ∧
      t.cfgEn = some on ∧ t.cfgBri = some (clamp v) ∧ u.cfgEn = some on ∧ u.cfgBri = some (clamp v) ∧
      t.rx.dctrlEn = some on ∧ t.rx.dctrlBri = some (clamp v) ∧ u.rx.dctrlEn = some on ∧
      u.rx.dctrlBri = some (clamp v) ∧
      t.rx.received = s.rx.received ++ [(ctrlByte on b0, true), (ctrlByte on (clamp v), true)] ∧
      u.rx.received = s.rx.received ++ [(ctrlByte e0 (clamp v), true), (ctrlByte on (clamp v), true)]

/-- L1.4, R91, R92, R95: the colon survives any character written to position 1, and comes back with the next one after a
CLEAR has made it dark. -/
def Obligations.ColonSurvivesCharacterWrites : Prop :=
  ∀ (s : State) (v : Bool) (c pat cache : Byte), s.driverReady → s.WireInv → s.workingReceiver → s.rx.drv = false →
    rom s.launch c = some pat → s.colonCache = some cache →
    ∃ t u w, runOps [.dcolon v, .dchar 1 c] s = some t ∧ t.rx.colonBit = some v ∧
      renders s.launch t.rx 1 c = true ∧ t.colonCache = t.rx.dispAt 1 ∧
      runOps [.dcolon v, .clear] s = some u ∧ u.rx.colonBit = some false ∧ u.rx.colonLit = some false ∧
      runOps [.dcolon v, .clear, .dchar 1 c] s = some w ∧ w.rx.colonBit = some v ∧ renders s.launch w.rx 1 c = true

/-- R120, R121, R115, L1.3: from power-on, with any latch draws and any parameters and with a working receiver, INIT, DCOLON
and DINT reach a known display: the configuration at the receiver, the colon as set, lit when the display is on too, and
the integer read back from the four positions. The premise `sched = []` is the scheduler that decides nothing more (log 5):
no other agent's op runs among the three. -/
def Obligations.BootReachesAKnownDisplay : Prop :=
  ∀ (s : State) (en v : Bool) (bri n : Int), s.atPowerOn → s.workingReceiver → s.sched = [] → -999 ≤ n → n ≤ 9999 →
    ∃ t, runOps [.init en bri, .dcolon v, .dint n] s = some t ∧ t.linesIdle ∧ t.inited = true ∧
      t.cfgEn = some en ∧ t.cfgBri = some (clamp bri) ∧ t.rx.dctrlEn = some en ∧ t.rx.dctrlBri = some (clamp bri) ∧
      t.rx.colonBit = some v ∧ t.rx.colonLit = some (en && v) ∧
      ((List.range 4).mapM fun p => (t.rx.glyphAt p).bind glyphChar) = some (formatInt n) ∧
      readInteger (formatInt n) = some n ∧ t.trace.length = 67 + 178 + 712
end

