-- ==== Sys2Proof/Laws/State.lean ====
section
/-! SUPPORT. One lemma per field for each named update of the state and of the receiver: what `record`, `raise`,
`advance`, `dispatched`, `enter`, `Rx.note` and `rxStep` leave in every field. All are true by unfolding once, so that
no later proof unfolds them. -/

namespace Sys2Proof.Machine

@[simp] theorem record_clkOut (s : State) (e : Event) : (s.record e).clkOut = s.clkOut := rfl
@[simp] theorem record_dioOut (s : State) (e : Event) : (s.record e).dioOut = s.dioOut := rfl
@[simp] theorem record_clkDir (s : State) (e : Event) : (s.record e).clkDir = s.clkDir := rfl
@[simp] theorem record_dioDir (s : State) (e : Event) : (s.record e).dioDir = s.dioDir := rfl
@[simp] theorem record_ack (s : State) (e : Event) : (s.record e).ack = s.ack := rfl
@[simp] theorem record_smp (s : State) (e : Event) : (s.record e).smp = s.smp := rfl
@[simp] theorem record_pat (s : State) (e : Event) : (s.record e).pat = s.pat := rfl
@[simp] theorem record_cfgEn (s : State) (e : Event) : (s.record e).cfgEn = s.cfgEn := rfl
@[simp] theorem record_cfgBri (s : State) (e : Event) : (s.record e).cfgBri = s.cfgBri := rfl
@[simp] theorem record_colonCache (s : State) (e : Event) : (s.record e).colonCache = s.colonCache := rfl
@[simp] theorem record_inited (s : State) (e : Event) : (s.record e).inited = s.inited := rfl
@[simp] theorem record_busy (s : State) (e : Event) : (s.record e).busy = s.busy := rfl
@[simp] theorem record_fault (s : State) (e : Event) : (s.record e).fault = s.fault := rfl
@[simp] theorem record_fg (s : State) (e : Event) : (s.record e).fg = s.fg := rfl
@[simp] theorem record_irqs (s : State) (e : Event) : (s.record e).irqs = s.irqs := rfl
@[simp] theorem record_rx (s : State) (e : Event) : (s.record e).rx = s.rx := rfl
@[simp] theorem record_traceRev (s : State) (e : Event) : (s.record e).traceRev = e :: s.traceRev := rfl
@[simp] theorem record_launch (s : State) (e : Event) : (s.record e).launch = s.launch := rfl
@[simp] theorem record_cur (s : State) (e : Event) : (s.record e).cur = s.cur := rfl
@[simp] theorem record_midOp (s : State) (e : Event) : (s.record e).midOp = s.midOp := rfl
@[simp] theorem record_sched (s : State) (e : Event) : (s.record e).sched = s.sched := rfl
@[simp] theorem record_smpTape (s : State) (e : Event) : (s.record e).smpTape = s.smpTape := rfl
@[simp] theorem record_smpDraws (s : State) (e : Event) : (s.record e).smpDraws = s.smpDraws := rfl

@[simp] theorem raise_clkOut (s : State) (c : FaultCode) (w : Word) (g : Nat) (b : Bool) : (s.raise c w g b).clkOut = s.clkOut := rfl
@[simp] theorem raise_dioOut (s : State) (c : FaultCode) (w : Word) (g : Nat) (b : Bool) : (s.raise c w g b).dioOut = s.dioOut := rfl
@[simp] theorem raise_clkDir (s : State) (c : FaultCode) (w : Word) (g : Nat) (b : Bool) : (s.raise c w g b).clkDir = s.clkDir := rfl
@[simp] theorem raise_dioDir (s : State) (c : FaultCode) (w : Word) (g : Nat) (b : Bool) : (s.raise c w g b).dioDir = s.dioDir := rfl
@[simp] theorem raise_ack (s : State) (c : FaultCode) (w : Word) (g : Nat) (b : Bool) : (s.raise c w g b).ack = s.ack := rfl
@[simp] theorem raise_smp (s : State) (c : FaultCode) (w : Word) (g : Nat) (b : Bool) : (s.raise c w g b).smp = s.smp := rfl
@[simp] theorem raise_pat (s : State) (c : FaultCode) (w : Word) (g : Nat) (b : Bool) : (s.raise c w g b).pat = s.pat := rfl
@[simp] theorem raise_cfgEn (s : State) (c : FaultCode) (w : Word) (g : Nat) (b : Bool) : (s.raise c w g b).cfgEn = s.cfgEn := rfl
@[simp] theorem raise_cfgBri (s : State) (c : FaultCode) (w : Word) (g : Nat) (b : Bool) : (s.raise c w g b).cfgBri = s.cfgBri := rfl
@[simp] theorem raise_colonCache (s : State) (c : FaultCode) (w : Word) (g : Nat) (b : Bool) : (s.raise c w g b).colonCache = s.colonCache := rfl
@[simp] theorem raise_inited (s : State) (c : FaultCode) (w : Word) (g : Nat) (b : Bool) : (s.raise c w g b).inited = s.inited := rfl
@[simp] theorem raise_busy (s : State) (c : FaultCode) (w : Word) (g : Nat) (b : Bool) : (s.raise c w g b).busy = b := rfl
@[simp] theorem raise_fault (s : State) (c : FaultCode) (w : Word) (g : Nat) (b : Bool) : (s.raise c w g b).fault = some ⟨c, g, s.opidxOf g, s.wordOf g, w⟩ := rfl
@[simp] theorem raise_fg (s : State) (c : FaultCode) (w : Word) (g : Nat) (b : Bool) : (s.raise c w g b).fg = s.fg := rfl
@[simp] theorem raise_irqs (s : State) (c : FaultCode) (w : Word) (g : Nat) (b : Bool) : (s.raise c w g b).irqs = s.irqs := rfl
@[simp] theorem raise_rx (s : State) (c : FaultCode) (w : Word) (g : Nat) (b : Bool) : (s.raise c w g b).rx = s.rx := rfl
@[simp] theorem raise_traceRev (s : State) (c : FaultCode) (w : Word) (g : Nat) (b : Bool) : (s.raise c w g b).traceRev = s.traceRev := rfl
@[simp] theorem raise_launch (s : State) (c : FaultCode) (w : Word) (g : Nat) (b : Bool) : (s.raise c w g b).launch = s.launch := rfl
@[simp] theorem raise_cur (s : State) (c : FaultCode) (w : Word) (g : Nat) (b : Bool) : (s.raise c w g b).cur = s.cur := rfl
@[simp] theorem raise_midOp (s : State) (c : FaultCode) (w : Word) (g : Nat) (b : Bool) : (s.raise c w g b).midOp = s.midOp := rfl
@[simp] theorem raise_sched (s : State) (c : FaultCode) (w : Word) (g : Nat) (b : Bool) : (s.raise c w g b).sched = s.sched := rfl
@[simp] theorem raise_smpTape (s : State) (c : FaultCode) (w : Word) (g : Nat) (b : Bool) : (s.raise c w g b).smpTape = s.smpTape := rfl
@[simp] theorem raise_smpDraws (s : State) (c : FaultCode) (w : Word) (g : Nat) (b : Bool) : (s.raise c w g b).smpDraws = s.smpDraws := rfl

@[simp] theorem advance_clkOut (s : State) (g n : Nat) : (s.advance g n).clkOut = s.clkOut := by cases g <;> rfl
@[simp] theorem advance_dioOut (s : State) (g n : Nat) : (s.advance g n).dioOut = s.dioOut := by cases g <;> rfl
@[simp] theorem advance_clkDir (s : State) (g n : Nat) : (s.advance g n).clkDir = s.clkDir := by cases g <;> rfl
@[simp] theorem advance_dioDir (s : State) (g n : Nat) : (s.advance g n).dioDir = s.dioDir := by cases g <;> rfl
@[simp] theorem advance_ack (s : State) (g n : Nat) : (s.advance g n).ack = s.ack := by cases g <;> rfl
@[simp] theorem advance_smp (s : State) (g n : Nat) : (s.advance g n).smp = s.smp := by cases g <;> rfl
@[simp] theorem advance_pat (s : State) (g n : Nat) : (s.advance g n).pat = s.pat := by cases g <;> rfl
@[simp] theorem advance_cfgEn (s : State) (g n : Nat) : (s.advance g n).cfgEn = s.cfgEn := by cases g <;> rfl
@[simp] theorem advance_cfgBri (s : State) (g n : Nat) : (s.advance g n).cfgBri = s.cfgBri := by cases g <;> rfl
@[simp] theorem advance_colonCache (s : State) (g n : Nat) : (s.advance g n).colonCache = s.colonCache := by cases g <;> rfl
@[simp] theorem advance_inited (s : State) (g n : Nat) : (s.advance g n).inited = s.inited := by cases g <;> rfl
@[simp] theorem advance_busy (s : State) (g n : Nat) : (s.advance g n).busy = s.busy := by cases g <;> rfl
@[simp] theorem advance_fault (s : State) (g n : Nat) : (s.advance g n).fault = s.fault := by cases g <;> rfl
@[simp] theorem advance_rx (s : State) (g n : Nat) : (s.advance g n).rx = s.rx := by cases g <;> rfl
@[simp] theorem advance_traceRev (s : State) (g n : Nat) : (s.advance g n).traceRev = s.traceRev := by cases g <;> rfl
@[simp] theorem advance_launch (s : State) (g n : Nat) : (s.advance g n).launch = s.launch := by cases g <;> rfl
@[simp] theorem advance_cur (s : State) (g n : Nat) : (s.advance g n).cur = s.cur := by cases g <;> rfl
@[simp] theorem advance_midOp (s : State) (g n : Nat) : (s.advance g n).midOp = s.midOp := by cases g <;> rfl
@[simp] theorem advance_sched (s : State) (g n : Nat) : (s.advance g n).sched = s.sched := by cases g <;> rfl
@[simp] theorem advance_smpTape (s : State) (g n : Nat) : (s.advance g n).smpTape = s.smpTape := by cases g <;> rfl
@[simp] theorem advance_smpDraws (s : State) (g n : Nat) : (s.advance g n).smpDraws = s.smpDraws := by cases g <;> rfl
@[simp] theorem advance_zero (s : State) (n : Nat) : s.advance 0 n = { s with fg := s.fg.advance n } := rfl
@[simp] theorem advance_succ (s : State) (k n : Nat) : s.advance (k + 1) n = { s with irqs := s.irqs.modify k (·.advance n) } := rfl

@[simp] theorem dispatched_clkOut (s : State) (g : Nat) (l : List Turn) : (s.dispatched g l).clkOut = s.clkOut := rfl
@[simp] theorem dispatched_dioOut (s : State) (g : Nat) (l : List Turn) : (s.dispatched g l).dioOut = s.dioOut := rfl
@[simp] theorem dispatched_clkDir (s : State) (g : Nat) (l : List Turn) : (s.dispatched g l).clkDir = s.clkDir := rfl
@[simp] theorem dispatched_dioDir (s : State) (g : Nat) (l : List Turn) : (s.dispatched g l).dioDir = s.dioDir := rfl
@[simp] theorem dispatched_ack (s : State) (g : Nat) (l : List Turn) : (s.dispatched g l).ack = s.ack := rfl
@[simp] theorem dispatched_smp (s : State) (g : Nat) (l : List Turn) : (s.dispatched g l).smp = s.smp := rfl
@[simp] theorem dispatched_pat (s : State) (g : Nat) (l : List Turn) : (s.dispatched g l).pat = s.pat := rfl
@[simp] theorem dispatched_cfgEn (s : State) (g : Nat) (l : List Turn) : (s.dispatched g l).cfgEn = s.cfgEn := rfl
@[simp] theorem dispatched_cfgBri (s : State) (g : Nat) (l : List Turn) : (s.dispatched g l).cfgBri = s.cfgBri := rfl
@[simp] theorem dispatched_colonCache (s : State) (g : Nat) (l : List Turn) : (s.dispatched g l).colonCache = s.colonCache := rfl
@[simp] theorem dispatched_inited (s : State) (g : Nat) (l : List Turn) : (s.dispatched g l).inited = s.inited := rfl
@[simp] theorem dispatched_busy (s : State) (g : Nat) (l : List Turn) : (s.dispatched g l).busy = s.busy := rfl
@[simp] theorem dispatched_fault (s : State) (g : Nat) (l : List Turn) : (s.dispatched g l).fault = s.fault := rfl
@[simp] theorem dispatched_fg (s : State) (g : Nat) (l : List Turn) : (s.dispatched g l).fg = s.fg := rfl
@[simp] theorem dispatched_irqs (s : State) (g : Nat) (l : List Turn) : (s.dispatched g l).irqs = s.irqs := rfl
@[simp] theorem dispatched_rx (s : State) (g : Nat) (l : List Turn) : (s.dispatched g l).rx = s.rx := rfl
@[simp] theorem dispatched_traceRev (s : State) (g : Nat) (l : List Turn) : (s.dispatched g l).traceRev = s.traceRev := rfl
@[simp] theorem dispatched_launch (s : State) (g : Nat) (l : List Turn) : (s.dispatched g l).launch = s.launch := rfl
@[simp] theorem dispatched_cur (s : State) (g : Nat) (l : List Turn) : (s.dispatched g l).cur = g := rfl
@[simp] theorem dispatched_midOp (s : State) (g : Nat) (l : List Turn) : (s.dispatched g l).midOp = s.midOp := rfl
@[simp] theorem dispatched_sched (s : State) (g : Nat) (l : List Turn) : (s.dispatched g l).sched = l := rfl
@[simp] theorem dispatched_smpTape (s : State) (g : Nat) (l : List Turn) : (s.dispatched g l).smpTape = s.smpTape := rfl
@[simp] theorem dispatched_smpDraws (s : State) (g : Nat) (l : List Turn) : (s.dispatched g l).smpDraws = s.smpDraws := rfl

@[simp] theorem enter_clkOut (m : Mnemonic) (s : State) : (enter m s).clkOut = s.clkOut := by cases m <;> rfl
@[simp] theorem enter_dioOut (m : Mnemonic) (s : State) : (enter m s).dioOut = s.dioOut := by cases m <;> rfl
@[simp] theorem enter_clkDir (m : Mnemonic) (s : State) : (enter m s).clkDir = s.clkDir := by cases m <;> rfl
@[simp] theorem enter_dioDir (m : Mnemonic) (s : State) : (enter m s).dioDir = s.dioDir := by cases m <;> rfl
@[simp] theorem enter_ack (m : Mnemonic) (s : State) : (enter m s).ack = s.ack := by cases m <;> rfl
@[simp] theorem enter_smp (m : Mnemonic) (s : State) : (enter m s).smp = s.smp := by cases m <;> rfl
@[simp] theorem enter_pat (m : Mnemonic) (s : State) : (enter m s).pat = s.pat := by cases m <;> rfl
@[simp] theorem enter_cfgEn (m : Mnemonic) (s : State) : (enter m s).cfgEn = s.cfgEn := by cases m <;> rfl
@[simp] theorem enter_cfgBri (m : Mnemonic) (s : State) : (enter m s).cfgBri = s.cfgBri := by cases m <;> rfl
@[simp] theorem enter_colonCache (m : Mnemonic) (s : State) : (enter m s).colonCache = s.colonCache := by cases m <;> rfl
@[simp] theorem enter_inited (m : Mnemonic) (s : State) : (enter m s).inited = s.inited := by cases m <;> rfl
@[simp] theorem enter_busy (m : Mnemonic) (s : State) : (enter m s).busy = (decide (m.row.family = .transport ∨ m.row.family = .driver) || s.busy) := by cases m <;> rfl
@[simp] theorem enter_fault (m : Mnemonic) (s : State) : (enter m s).fault = s.fault := by cases m <;> rfl
@[simp] theorem enter_fg (m : Mnemonic) (s : State) : (enter m s).fg = s.fg := by cases m <;> rfl
@[simp] theorem enter_irqs (m : Mnemonic) (s : State) : (enter m s).irqs = s.irqs := by cases m <;> rfl
@[simp] theorem enter_rx (m : Mnemonic) (s : State) : (enter m s).rx = s.rx := by cases m <;> rfl
@[simp] theorem enter_traceRev (m : Mnemonic) (s : State) : (enter m s).traceRev = s.traceRev := by cases m <;> rfl
@[simp] theorem enter_launch (m : Mnemonic) (s : State) : (enter m s).launch = s.launch := by cases m <;> rfl
@[simp] theorem enter_cur (m : Mnemonic) (s : State) : (enter m s).cur = s.cur := by cases m <;> rfl
@[simp] theorem enter_midOp (m : Mnemonic) (s : State) : (enter m s).midOp = false := by cases m <;> rfl
@[simp] theorem enter_sched (m : Mnemonic) (s : State) : (enter m s).sched = s.sched := by cases m <;> rfl
@[simp] theorem enter_smpTape (m : Mnemonic) (s : State) : (enter m s).smpTape = s.smpTape := by cases m <;> rfl
@[simp] theorem enter_smpDraws (m : Mnemonic) (s : State) : (enter m s).smpDraws = s.smpDraws := by cases m <;> rfl

@[simp] theorem rxStep_clkOut (s : State) : (rxStep s).clkOut = s.clkOut := rfl
@[simp] theorem rxStep_dioOut (s : State) : (rxStep s).dioOut = s.dioOut := rfl
@[simp] theorem rxStep_clkDir (s : State) : (rxStep s).clkDir = s.clkDir := rfl
@[simp] theorem rxStep_dioDir (s : State) : (rxStep s).dioDir = s.dioDir := rfl
@[simp] theorem rxStep_ack (s : State) : (rxStep s).ack = s.ack := rfl
@[simp] theorem rxStep_smp (s : State) : (rxStep s).smp = s.smp := rfl
@[simp] theorem rxStep_pat (s : State) : (rxStep s).pat = s.pat := rfl
@[simp] theorem rxStep_cfgEn (s : State) : (rxStep s).cfgEn = s.cfgEn := rfl
@[simp] theorem rxStep_cfgBri (s : State) : (rxStep s).cfgBri = s.cfgBri := rfl
@[simp] theorem rxStep_colonCache (s : State) : (rxStep s).colonCache = s.colonCache := rfl
@[simp] theorem rxStep_inited (s : State) : (rxStep s).inited = s.inited := rfl
@[simp] theorem rxStep_busy (s : State) : (rxStep s).busy = s.busy := rfl
@[simp] theorem rxStep_fault (s : State) : (rxStep s).fault = s.fault := rfl
@[simp] theorem rxStep_fg (s : State) : (rxStep s).fg = s.fg := rfl
@[simp] theorem rxStep_irqs (s : State) : (rxStep s).irqs = s.irqs := rfl
@[simp] theorem rxStep_traceRev (s : State) : (rxStep s).traceRev = s.traceRev := rfl
@[simp] theorem rxStep_launch (s : State) : (rxStep s).launch = s.launch := rfl
@[simp] theorem rxStep_cur (s : State) : (rxStep s).cur = s.cur := rfl
@[simp] theorem rxStep_midOp (s : State) : (rxStep s).midOp = s.midOp := rfl
@[simp] theorem rxStep_sched (s : State) : (rxStep s).sched = s.sched := rfl
@[simp] theorem rxStep_smpTape (s : State) : (rxStep s).smpTape = s.smpTape := rfl
@[simp] theorem rxStep_smpDraws (s : State) : (rxStep s).smpDraws = s.smpDraws := rfl

@[simp] theorem note_sync (rx : Rx) (e : RxEvent) : (rx.note e).sync = rx.sync := rfl
@[simp] theorem note_frame (rx : Rx) (e : RxEvent) : (rx.note e).frame = rx.frame := rfl
@[simp] theorem note_phase (rx : Rx) (e : RxEvent) : (rx.note e).phase = rx.phase := rfl
@[simp] theorem note_bits (rx : Rx) (e : RxEvent) : (rx.note e).bits = rx.bits := rfl
@[simp] theorem note_shift (rx : Rx) (e : RxEvent) : (rx.note e).shift = rx.shift := rfl
@[simp] theorem note_acked (rx : Rx) (e : RxEvent) : (rx.note e).acked = rx.acked := rfl
@[simp] theorem note_drv (rx : Rx) (e : RxEvent) : (rx.note e).drv = rx.drv := rfl
@[simp] theorem note_nbyte (rx : Rx) (e : RxEvent) : (rx.note e).nbyte = rx.nbyte := rfl
@[simp] theorem note_cmd (rx : Rx) (e : RxEvent) : (rx.note e).cmd = rx.cmd := rfl
@[simp] theorem note_mode (rx : Rx) (e : RxEvent) : (rx.note e).mode = rx.mode := rfl
@[simp] theorem note_ptr (rx : Rx) (e : RxEvent) : (rx.note e).ptr = rx.ptr := rfl
@[simp] theorem note_disp (rx : Rx) (e : RxEvent) : (rx.note e).disp = rx.disp := rfl
@[simp] theorem note_dctrlEn (rx : Rx) (e : RxEvent) : (rx.note e).dctrlEn = rx.dctrlEn := rfl
@[simp] theorem note_dctrlBri (rx : Rx) (e : RxEvent) : (rx.note e).dctrlBri = rx.dctrlBri := rfl
@[simp] theorem note_pclk (rx : Rx) (e : RxEvent) : (rx.note e).pclk = rx.pclk := rfl
@[simp] theorem note_pdio (rx : Rx) (e : RxEvent) : (rx.note e).pdio = rx.pdio := rfl
@[simp] theorem note_logRev (rx : Rx) (e : RxEvent) : (rx.note e).logRev = (rx.steps, e) :: rx.logRev := rfl
@[simp] theorem note_steps (rx : Rx) (e : RxEvent) : (rx.note e).steps = rx.steps := rfl
@[simp] theorem note_ackPlan (rx : Rx) (e : RxEvent) : (rx.note e).ackPlan = rx.ackPlan := rfl
@[simp] theorem note_ackDraws (rx : Rx) (e : RxEvent) : (rx.note e).ackDraws = rx.ackDraws := rfl

@[simp] theorem useDraw_clkOut (s : State) : s.useDraw.clkOut = s.clkOut := by unfold State.useDraw; split <;> rfl
@[simp] theorem useDraw_dioOut (s : State) : s.useDraw.dioOut = s.dioOut := by unfold State.useDraw; split <;> rfl
@[simp] theorem useDraw_clkDir (s : State) : s.useDraw.clkDir = s.clkDir := by unfold State.useDraw; split <;> rfl
@[simp] theorem useDraw_dioDir (s : State) : s.useDraw.dioDir = s.dioDir := by unfold State.useDraw; split <;> rfl
@[simp] theorem useDraw_ack (s : State) : s.useDraw.ack = s.ack := by unfold State.useDraw; split <;> rfl
@[simp] theorem useDraw_smp (s : State) : s.useDraw.smp = s.smp := by unfold State.useDraw; split <;> rfl
@[simp] theorem useDraw_pat (s : State) : s.useDraw.pat = s.pat := by unfold State.useDraw; split <;> rfl
@[simp] theorem useDraw_cfgEn (s : State) : s.useDraw.cfgEn = s.cfgEn := by unfold State.useDraw; split <;> rfl
@[simp] theorem useDraw_cfgBri (s : State) : s.useDraw.cfgBri = s.cfgBri := by unfold State.useDraw; split <;> rfl
@[simp] theorem useDraw_colonCache (s : State) : s.useDraw.colonCache = s.colonCache := by unfold State.useDraw; split <;> rfl
@[simp] theorem useDraw_inited (s : State) : s.useDraw.inited = s.inited := by unfold State.useDraw; split <;> rfl
@[simp] theorem useDraw_busy (s : State) : s.useDraw.busy = s.busy := by unfold State.useDraw; split <;> rfl
@[simp] theorem useDraw_fault (s : State) : s.useDraw.fault = s.fault := by unfold State.useDraw; split <;> rfl
@[simp] theorem useDraw_fg (s : State) : s.useDraw.fg = s.fg := by unfold State.useDraw; split <;> rfl
@[simp] theorem useDraw_irqs (s : State) : s.useDraw.irqs = s.irqs := by unfold State.useDraw; split <;> rfl
@[simp] theorem useDraw_rx (s : State) : s.useDraw.rx = s.rx := by unfold State.useDraw; split <;> rfl
@[simp] theorem useDraw_traceRev (s : State) : s.useDraw.traceRev = s.traceRev := by unfold State.useDraw; split <;> rfl
@[simp] theorem useDraw_launch (s : State) : s.useDraw.launch = s.launch := by unfold State.useDraw; split <;> rfl
@[simp] theorem useDraw_cur (s : State) : s.useDraw.cur = s.cur := by unfold State.useDraw; split <;> rfl
@[simp] theorem useDraw_midOp (s : State) : s.useDraw.midOp = s.midOp := by unfold State.useDraw; split <;> rfl
@[simp] theorem useDraw_sched (s : State) : s.useDraw.sched = s.sched := by unfold State.useDraw; split <;> rfl

end Sys2Proof.Machine
end

