-- ==== Sys2Proof/Laws/Receiver.lean ====
section
/-! SUPPORT. What one step of the receiver does: it keeps `Rx.Inv`, and on a line the receiver follows bit by bit it
holds, shifts or starts (R110 to R114). -/

namespace Sys2Proof.Machine

/-! ### The invariant -/

theorem Rx.Inv.phase_data {rx : Rx} (h : rx.Inv) (hf : rx.frame = false) : rx.phase = .data := by
  cases hp : rx.phase with
  | data => rfl
  | ack => simp [(h.ack_bits hp).1] at hf

theorem Rx.Inv.drv_off {rx : Rx} (h : rx.Inv) (hs : rx.sync = false) : rx.drv = false := by
  cases hd : rx.drv with
  | false => rfl
  | true => simp [h.frame_sync (h.drv_ack hd).1] at hs

theorem desync_inv (rx : Rx) : rx.desync.Inv := by
  constructor <;> simp [Rx.desync]

theorem start_inv {rx : Rx} (h : rx.Inv) : rx.start.Inv := by
  constructor <;> simp [Rx.start]
  exact h.ptr_le

theorem stop_inv {rx : Rx} (h : rx.Inv) : rx.stop.Inv := by
  unfold Rx.stop
  split
  · rename_i hf
    have hs := h.frame_sync hf
    constructor <;> simp [hs]
    · exact h.ptr_le
    · exact h.addr_known
  · obtain ⟨h1, h2, h3, h4, h5, h6, h7, h8, h9⟩ := h
    constructor <;> simpa

theorem rise_inv {rx : Rx} (h : rx.Inv) (dio : Level) : (rx.rise dio).Inv := by
  unfold Rx.rise
  split
  · rename_i hc
    simp only [Bool.and_eq_true, decide_eq_true_eq] at hc
    obtain ⟨⟨hf, hp⟩, hb⟩ := hc
    have hs := h.frame_sync hf
    have hd : rx.drv = false := by
      cases hd : rx.drv with
      | false => rfl
      | true => simp [(h.drv_ack hd).2.1] at hp
    cases dio with
    | bit b =>
      constructor <;> simp [hp, hs, hf, hd]
      · omega
      · exact h.ptr_le
      · exact h.addr_known
    | float => exact desync_inv rx
    | unknown => exact desync_inv rx
  · exact h

theorem byte_inv {rx : Rx} (hs : rx.sync = true) (hb : rx.bits ≤ 8) (hp : rx.phase = .data) (hd : rx.drv = false)
    (hf : rx.frame = true) (h1 : ∀ p, rx.ptr = some p → p ≤ 8)
    (h2 : rx.cmd = .addr → rx.ptr.isSome = true ∧ rx.mode.isSome = true) (b : Byte) (acked : Bool) :
    (rx.byte b acked).Inv := by
  unfold Rx.byte
  split
  · split
    · unfold Rx.commandByte
      split_ifs
      · constructor <;> simp [hs, hb, hp, hd, hf]
        exact h1
      · constructor <;> simp [hs, hb, hp, hd, hf]
        exact h1
      · split
        · exact desync_inv rx
        · rename_i m hm
          constructor <;> simp [hs, hb, hp, hd, hf, hm]
          have h7 : (7 : BitVec 8).toNat = 7 := rfl
          exact (Nat.and_le_right (n := b.toNat) (m := 7)).trans (by omega)
      · constructor <;> simp [hs, hb, hp, hd, hf]
        exact h1
      · exact desync_inv rx
    · unfold Rx.dataByte
      split
      · rename_i hc
        split
        · exact desync_inv rx
        · rename_i p hp'
          have hle := h1 p hp'
          have hm := (h2 hc).2
          split_ifs with hlt h5
          · constructor <;> simp [hs, hb, hp, hd, hf, hm, Rx.nextPtr]
            split <;> omega
          · constructor <;> simp [hs, hb, hp, hd, hf, hm, Rx.nextPtr]
            split <;> omega
          · exact desync_inv rx
      · exact desync_inv rx
  · exact desync_inv rx

theorem fall_inv {rx : Rx} (h : rx.Inv) : rx.fall.Inv := by
  unfold Rx.fall
  split
  · rename_i hc
    simp only [Bool.and_eq_true, decide_eq_true_eq] at hc
    obtain ⟨⟨hf, hp⟩, hb⟩ := hc
    have hs := h.frame_sync hf
    constructor <;> simp [hf, hs, hb]
    · exact h.ptr_le
    · exact h.addr_known
  · split
    · rename_i hc
      simp only [Bool.and_eq_true, decide_eq_true_eq] at hc
      have hs := h.frame_sync hc.1
      exact byte_inv (by simpa using hs) (by simp) rfl rfl (by simpa using hc.1) (by simpa using h.ptr_le)
        (by simpa using h.addr_known) _ _
    · exact h

theorem edges_inv {rx : Rx} (h : rx.Inv) (clk dio : Level) : (rx.edges clk dio).Inv := by
  unfold Rx.edges
  split_ifs
  · exact start_inv h
  · exact stop_inv h
  · exact h
  · exact rise_inv h dio
  · exact fall_inv h
  · exact h

theorem levels_inv {rx : Rx} (h : rx.Inv) (clk dio : Level) : (rx.levels clk dio).Inv := by
  unfold Rx.levels
  split_ifs
  · exact desync_inv rx
  · exact start_inv h
  · exact h
  · exact desync_inv rx
  · exact edges_inv h clk dio

/-! ### One event as the receiver sees it -/

/-- What one host event does to the receiver (R110), given the bus levels' sources. -/
def Rx.see (rx : Rx) (clk : Level) (dir : Option Dir) (out ext : Bool) : Rx :=
  let r := { rx with steps := rx.steps + 1 }.levels clk (dioLevel dir out rx.drv ext)
  { r with pclk := clk, pdio := dioLevel dir out r.drv ext }

theorem rxStep_eq (s : State) :
    rxStep s = { s with rx := s.rx.see s.clkBus s.dioDir s.dioOut s.launch.extPullup } := rfl

theorem Rx.Inv.of_eq {rx rx' : Rx} (h : rx.Inv) (he : rx' = { rx with
    shift := rx'.shift, pclk := rx'.pclk, pdio := rx'.pdio, logRev := rx'.logRev, steps := rx'.steps,
    ackPlan := rx'.ackPlan, ackDraws := rx'.ackDraws }) : rx'.Inv := by
  obtain ⟨h1, h2, h3, h4, h5, h6, h7, h8, h9⟩ := h
  rw [he]
  constructor <;> assumption

theorem see_inv {rx : Rx} (h : rx.Inv) (clk : Level) (dir : Option Dir) (out ext : Bool) :
    (rx.see clk dir out ext).Inv := by
  have h0 : ({ rx with steps := rx.steps + 1 } : Rx).Inv := h.of_eq rfl
  exact (levels_inv h0 clk _).of_eq rfl

@[simp] theorem see_pclk (rx : Rx) (clk : Level) (dir : Option Dir) (out ext : Bool) :
    (rx.see clk dir out ext).pclk = clk := rfl

theorem see_pdio (rx : Rx) (clk : Level) (dir : Option Dir) (out ext : Bool) :
    (rx.see clk dir out ext).pdio = dioLevel dir out (rx.see clk dir out ext).drv ext := rfl

@[simp] theorem desync_steps (rx : Rx) : rx.desync.steps = rx.steps := rfl

@[simp] theorem start_steps (rx : Rx) : rx.start.steps = rx.steps := rfl

@[simp] theorem stop_steps (rx : Rx) : rx.stop.steps = rx.steps := by
  unfold Rx.stop
  split <;> rfl

@[simp] theorem rise_steps (rx : Rx) (dio : Level) : (rx.rise dio).steps = rx.steps := by
  unfold Rx.rise
  split
  · cases dio <;> rfl
  · rfl

@[simp] theorem byte_steps (rx : Rx) (b : Byte) (acked : Bool) : (rx.byte b acked).steps = rx.steps := by
  unfold Rx.byte Rx.commandByte Rx.dataByte
  repeat' split
  all_goals rfl

@[simp] theorem fall_steps (rx : Rx) : rx.fall.steps = rx.steps := by
  unfold Rx.fall
  split_ifs
  · rfl
  · rw [byte_steps]
    rfl
  · rfl

theorem levels_steps (rx : Rx) (clk dio : Level) : (rx.levels clk dio).steps = rx.steps := by
  unfold Rx.levels Rx.edges
  split_ifs <;> simp

@[simp] theorem see_steps (rx : Rx) (clk : Level) (dir : Option Dir) (out ext : Bool) :
    (rx.see clk dir out ext).steps = rx.steps + 1 := levels_steps _ _ _

/-- An unknown clock desynchronises. -/
theorem see_clk_unknown (rx : Rx) (dir : Option Dir) (out ext : Bool) :
    (rx.see .unknown dir out ext).sync = false := by
  simp [Rx.see, Rx.levels, Rx.desync]

/-- On a high clock the receiver never starts to pull the line. -/
theorem levels_high_drv {rx : Rx} (dio : Level) (h : rx.drv = false) : (rx.levels (.bit true) dio).drv = false := by
  unfold Rx.levels Rx.edges Rx.rise Rx.stop Rx.start Rx.desync
  repeat' split
  all_goals simp_all

/-- A level that is not known while the clock is high leaves the receiver desynchronised. -/
theorem see_dio_unknown {rx : Rx} (h : rx.Inv) (hp : rx.drv = true → rx.pdio ≠ .bit true) (dir : Option Dir)
    (out ext : Bool)
    (hd : ∀ b, (rx.see (.bit true) dir out ext).pdio ≠ .bit b) : (rx.see (.bit true) dir out ext).sync = false := by
  by_contra hs
  have hs' : (rx.see (.bit true) dir out ext).sync = true := by simpa using hs
  by_cases h0 : rx.sync = false
  · have hdr := h.drv_off h0
    have hl : dioLevel dir out rx.drv ext ≠ .bit false ∨ dioLevel dir out rx.drv ext = .bit false := by tauto
    rcases hl with hl | hl
    · simp [Rx.see, Rx.levels, h0, hl] at hs'
    · have := levels_high_drv (rx := { rx with steps := rx.steps + 1 }) (dioLevel dir out rx.drv ext) hdr
      apply hd false
      rw [see_pdio]
      show dioLevel dir out (Rx.levels _ _ _).drv ext = _
      rw [this, ← hl, hdr]
  · have h0' : rx.sync = true := by simpa using h0
    cases hl : dioLevel dir out rx.drv ext with
    | float => simp [Rx.see, Rx.levels, h0', hl, Rx.desync] at hs'
    | unknown => simp [Rx.see, Rx.levels, h0', hl, Rx.desync] at hs'
    | bit b =>
      cases hdr : rx.drv with
      | false =>
        have := levels_high_drv (rx := { rx with steps := rx.steps + 1 }) (dioLevel dir out rx.drv ext) hdr
        apply hd b
        rw [see_pdio]
        show dioLevel dir out (Rx.levels _ _ _).drv ext = _
        rw [this, ← hl, hdr]
      | true =>
        rw [see_pdio] at hd
        rw [hdr] at hl
        cases hdr' : (rx.see (.bit true) dir out ext).drv with
        | true => exact hd b (by rw [hdr', hl])
        | false =>
          rw [hdr'] at hd
          have hb : dir = none ∨ (∃ b', dioLevel dir out false ext = .bit b') ∨ (dir = some .inp) := by
            cases dir with
            | none => simp
            | some d => cases d <;> simp [dioLevel]
          rcases hb with rfl | ⟨b', hb'⟩ | rfl
          · simp [dioLevel] at hl
          · exact hd b' hb'
          · have hph := (h.drv_ack hdr)
            simp [dioLevel] at hl
            subst hl
            simp [Rx.see, Rx.levels, h0', dioLevel, hdr, Rx.edges, Rx.rise, hph, hp hdr] at hdr'

end Sys2Proof.Machine
end

