-- ==== Sys2Proof/Laws/Ops.lean ====
section
/-! SUPPORT. What the shared operations do: faults, gaps, micro-steps and the op cycle, each said once. -/

namespace Sys2Proof.Machine

/-! ### Agents -/

theorem agent?_zero (s : State) : s.agent? 0 = some s.fg := rfl

theorem agent?_succ (s : State) (k : Nat) : s.agent? (k + 1) = s.irqs[k]? := rfl

/-- An agent that has a next op is there, and its `OPIDX` is before the end of its stream. -/
theorem hasNext_iff (s : State) (g : Nat) :
    s.hasNext g = true ↔ ∃ a, s.agent? g = some a ∧ a.opidx < a.stream.length := by
  unfold State.hasNext State.wordsOf
  cases h : s.agent? g with
  | none => simp
  | some a => simp

/-- The word a fault records is the one at the agent's `OPIDX`. -/
theorem wordOf_eq {s : State} {g : Nat} {a : Agent} (h : s.agent? g = some a) (hlt : a.opidx < a.stream.length) :
    a.stream[a.opidx]? = some (s.wordOf g) := by
  unfold State.wordOf State.wordsOf
  simp [h, List.head?_drop, hlt]

/-! ### Faults and gaps -/

@[simp] theorem isFaulted_eq (s : State) : s.isFaulted = s.fault.isSome := rfl

@[simp] theorem raise_isFaulted (s : State) (c : FaultCode) (w : Word) (g : Nat) (b : Bool) :
    (s.raise c w g b).isFaulted = true := rfl

/-- What the ops of interrupt agents can change at a point between two micro-steps: `PAT`, their own `OPIDX`, the
scheduler's record, and `FAULT`. -/
def GapOnly (s t : State) : Prop :=
  t = { s with pat := t.pat, irqs := t.irqs, sched := t.sched, fault := t.fault }

theorem GapOnly.refl (s : State) : GapOnly s s := rfl

theorem GapOnly.trans {s t u : State} (h : GapOnly s t) (h' : GapOnly t u) : GapOnly s u := by
  unfold GapOnly at *
  rw [h', h]

theorem GapOnly.sched {s t : State} (h : GapOnly s t) (l : List Turn) : GapOnly s { t with sched := l } := by
  unfold GapOnly at *
  rw [h]

theorem encodeBy_gapOnly (k : Nat) (c : Byte) (s : State) : GapOnly s (encodeBy (k + 1) c s) := by
  unfold encodeBy GapOnly
  cases rom s.launch c <;> rfl

theorem preemptingOp_gapOnly (k : Nat) (s : State) : GapOnly s (preemptingOp (k + 1) s) := by
  unfold preemptingOp
  split
  · exact GapOnly.refl s
  · rfl
  · rfl
  · exact encodeBy_gapOnly k _ s
  · rfl

theorem runGap_gapOnly (ts : List Turn) (s : State) : GapOnly s (runGap ts s) := by
  induction ts generalizing s with
  | nil => rfl
  | cons t ts ih =>
    cases t with
    | proceed => rfl
    | agent g =>
      unfold runGap
      cases g with
      | zero => exact (GapOnly.refl s).sched ts
      | succ k =>
        have hp := preemptingOp_gapOnly k s
        dsimp only
        split
        · split
          · exact hp.sched ts
          · exact hp.trans (ih _)
        · exact (GapOnly.refl s).sched ts

theorem gap_gapOnly (s : State) : GapOnly s (gap s) := by
  unfold gap
  split
  · exact GapOnly.refl s
  · exact runGap_gapOnly _ s

theorem gap_quiet {s : State} (h : s.quiet = true) : gap s = s := by simp [gap, h]

/-- A point between two micro-steps of a foreground op at which an unmasked interrupt agent's op is the scheduler's next
choice is not quiet: what happens is the op's doing, and what the scheduler decides after it (R103). -/
theorem gap_preempted {s : State} {k : Nat} {rest : List Turn} (hc : s.cur = 0) (hm : s.launch.irqMasked = false)
    (hn : s.hasNext (k + 1) = true) (hs : s.sched = .agent (k + 1) :: rest) :
    gap s = if (preemptingOp (k + 1) s).isFaulted then { preemptingOp (k + 1) s with sched := rest }
      else runGap rest (preemptingOp (k + 1) s) := by
  have hi : s.irqs ≠ [] := by
    intro h
    simp [State.hasNext, State.wordsOf, State.agent?, h] at hn
  have hq : s.quiet = false := by simp [State.quiet, noPreemption, hs, hc, hm, hi]
  unfold gap
  rw [hq, hs]
  simp only [runGap, hn]
  rfl

/-- A quiet state's event, before a fault: nothing but the event happens. -/
theorem event_quiet {s : State} (f : State → State) (hq : s.quiet = true) (hf : s.fault = none) :
    event f s = f { s with midOp := true } := by
  unfold event
  cases hm : s.midOp <;> simp [gap_quiet hq, hf]

/-- The first event of an op, before a fault: no other agent acts before it. -/
theorem event_first {s : State} (f : State → State) (hm : s.midOp = false) (hf : s.fault = none) :
    event f s = f { s with midOp := true } := by
  unfold event
  simp [hm, hf]

/-! ### Sequences -/

@[simp] theorem run_nil (s : State) : run [] s = s := rfl

@[simp] theorem run_cons (m : Micro) (ms : List Micro) (s : State) : run (m :: ms) s = run ms (microStep m s) := rfl

theorem run_append (ms ms' : List Micro) (s : State) : run (ms ++ ms') s = run ms' (run ms s) := by
  induction ms generalizing s with
  | nil => rfl
  | cons m ms ih => exact ih _

theorem microStep_faulted {s : State} (m : Micro) (h : s.isFaulted = true) : microStep m s = s := by
  simp only [microStep, h, if_true]

theorem run_faulted {s : State} (ms : List Micro) (h : s.isFaulted = true) : run ms s = s := by
  induction ms with
  | nil => rfl
  | cons m ms ih => rw [run_cons, microStep_faulted m h, ih]

theorem assign_clear {s : State} (f : State → State) (h : s.fault = none) : assign f s = f s := by
  simp [assign, h]

theorem assign_faulted {s : State} (f : State → State) (h : s.isFaulted = true) : assign f s = s := by
  simp only [assign, h, if_true]

/-- A property of states that every gap and every event keeps is kept by every sequence. -/
theorem run_keeps {P : State → Prop}
    (hev : ∀ s, P s → P (gap s))
    (hmid : ∀ s, P s → P { s with midOp := true })
    (hlat : ∀ l v s, P s → P (setLatch l v s))
    (hdir : ∀ l d s, P s → P (setDir l d s))
    (hwait : ∀ s, P s → P (waitEvent s))
    (hsmp : ∀ s, P s → P (sampleEvent s))
    (hack : ∀ s, P s → P (writeAck s))
    (ms : List Micro) (s : State) (h : P s) : P (run ms s) := by
  have hevent : ∀ (f : State → State), (∀ s, P s → P (f s)) → ∀ s, P s → P (event f s) := by
    intro f hf s hs
    have hstep : ∀ u, P u → P (if u.isFaulted then u else f { u with midOp := true }) := by
      intro u hu
      split
      · exact hu
      · exact hf _ (hmid u hu)
    unfold event
    split
    · exact hstep _ (hev s hs)
    · exact hstep s hs
  induction ms generalizing s with
  | nil => exact h
  | cons m ms ih =>
    apply ih
    unfold microStep
    split
    · exact h
    · cases m with
      | lat l v => exact hevent _ (hlat l v) s h
      | dir l d => exact hevent _ (hdir l d) s h
      | wait => exact hevent _ hwait s h
      | sample => exact hevent _ hsmp s h
      | holdLow =>
        show P (holdLow s)
        unfold holdLow
        split
        · exact hevent _ (hlat .dio false) s h
        · exact h
      | setAck => exact hack s h

/-! ### The wire's invariant -/

/-- The bus level the receiver pulls is never high. -/
theorem dioLevel_drv (dir : Option Dir) (out ext : Bool) : dioLevel dir out true ext ≠ .bit true := by
  cases dir with
  | none => simp [dioLevel]
  | some d => cases d <;> cases out <;> simp [dioLevel]

/-- One event keeps the wire's invariant, whatever it does to the lines. -/
theorem rxStep_wireInv {s : State} (h : s.rx.Inv) (hp : s.rx.drv = true → s.rx.pdio ≠ .bit true)
    (hn : s.rx.steps + 1 = s.traceRev.length) : (rxStep s).WireInv := by
  rw [rxStep_eq]
  refine ⟨see_inv h _ _ _ _, rfl, rfl, ?_, ?_, ?_⟩
  · show (Rx.see _ _ _ _ _).steps = _
    rw [see_steps, hn]
  · intro hu
    have hu' : s.clkBus = .unknown := hu
    show (Rx.see _ _ _ _ _).sync = _
    rw [hu', see_clk_unknown]
  · intro hc hd
    have hc' : s.clkBus = .bit true := hc
    show (Rx.see _ _ _ _ _).sync = _
    rw [hc']
    refine see_dio_unknown h hp _ _ _ fun b hb => hd b ?_
    rw [← hb, see_pdio, ← hc']
    rfl

theorem wireInv_of_eq {s t : State} (h : s.WireInv) (h1 : t.rx = s.rx) (h2 : t.clkBus = s.clkBus)
    (h3 : t.dioBus = s.dioBus) (h4 : t.traceRev = s.traceRev) : t.WireInv := by
  obtain ⟨i1, i2, i3, i4, i5, i6⟩ := h
  refine ⟨?_, ?_, ?_, ?_, ?_, ?_⟩
  · rw [h1]; exact i1
  · rw [h1, h2]; exact i2
  · rw [h1, h3]; exact i3
  · rw [h1, h4]; exact i4
  · rw [h1, h2]; exact i5
  · rw [h1, h2, h3]; exact i6

theorem State.WireInv.pulled {s : State} (h : s.WireInv) : s.rx.drv = true → s.rx.pdio ≠ .bit true := by
  intro hd
  rw [h.pdio, State.dioBus, hd]
  exact dioLevel_drv _ _ _

/-- Every sequence keeps the wire's invariant. -/
theorem run_wireInv (ms : List Micro) {s : State} (h : s.WireInv) : (run ms s).WireInv := by
  refine run_keeps (P := State.WireInv) ?_ ?_ ?_ ?_ ?_ ?_ ?_ ms s h
  · intro s h
    have hg := gap_gapOnly s
    refine wireInv_of_eq h ?_ ?_ ?_ ?_ <;> rw [hg] <;> rfl
  · intro s h
    exact wireInv_of_eq h rfl rfl rfl rfl
  · intro l v s h
    cases l
    · exact rxStep_wireInv h.rx h.pulled (by simp [h.steps])
    · exact rxStep_wireInv h.rx h.pulled (by simp [h.steps])
  · intro l d s h
    cases l
    · exact rxStep_wireInv h.rx h.pulled (by simp [h.steps])
    · exact rxStep_wireInv h.rx h.pulled (by simp [h.steps])
  · intro s h
    exact rxStep_wireInv h.rx h.pulled (by simp [h.steps])
  · intro s h
    refine rxStep_wireInv ?_ ?_ ?_
    · simpa using h.rx
    · simpa using h.pulled
    · simp [h.steps]
  · intro s h
    exact wireInv_of_eq h rfl rfl rfl rfl

/-! ### The op cycle -/

/-- An op whose checks of R61 fail raises the first of them. -/
theorem opCycle_fault {m : Mnemonic} {s : State} {c : FaultCode} (body : State → State) (h : entryFault m s = some c) :
    opCycle m body s = .next (s.raise c (s.wordOf s.cur) s.cur s.busy) := by
  simp [opCycle, h]

/-- An op whose checks of R61 pass runs. -/
theorem opCycle_run {m : Mnemonic} {s : State} (body : State → State) (h : entryFault m s = none) :
    opCycle m body s = .next (complete m (body (enter m s))) := by
  simp [opCycle, h]

/-- `opCycle` answers a next state in every case. -/
theorem opCycle_next (m : Mnemonic) (body : State → State) (s : State) : ∃ t, opCycle m body s = .next t := by
  unfold opCycle
  split <;> exact ⟨_, rfl⟩

theorem entryFault_line {m : Mnemonic} {s : State} (hm : m.row.family = .line) (hb : s.busy = false) :
    entryFault m s = none := by
  cases m <;> simp_all [entryFault, Mnemonic.row]

theorem entryFault_transport {m : Mnemonic} {s : State} (hm : m.row.family = .transport) (hb : s.busy = false)
    (hc : s.clkDir = some .out) (hd : s.dioDir = some .out) : entryFault m s = none := by
  cases m <;> simp_all [entryFault, Mnemonic.row, State.linesOut]

theorem entryFault_driver {m : Mnemonic} {s : State} (hm : m.row.family = .driver) (hi : m ≠ .INIT)
    (hb : s.busy = false) (hn : s.inited = true) (hc : s.clkDir = some .out) (hd : s.dioDir = some .out) :
    entryFault m s = none := by
  cases m <;> simp_all [entryFault, Mnemonic.row, State.linesOut]

theorem entryFault_init {s : State} (hb : s.busy = false) (hn : s.inited = false) : entryFault .INIT s = none := by
  simp [entryFault, Mnemonic.row, hb, hn]

/-- A completed op of the transport or driver family. -/
theorem complete_busy {m : Mnemonic} {s : State} (hm : m.row.family = .transport ∨ m.row.family = .driver)
    (hf : s.fault = none) :
    complete m s = { s with busy := false, midOp := false }.advance s.cur m.row.words := by
  rcases hm with hm | hm <;> simp [complete, hf, hm]

/-- A completed op of the line family. -/
theorem complete_line {m : Mnemonic} {s : State} (hm : m.row.family = .line) (hf : s.fault = none) :
    complete m s = { s with midOp := false }.advance s.cur m.row.words := by
  simp [complete, hf, hm]

theorem complete_faulted {m : Mnemonic} {s : State} (hf : s.isFaulted = true) : complete m s = s := by
  simp only [complete, hf, if_true]

/-- An op of the transport or driver family begins. -/
theorem enter_eq_busy {m : Mnemonic} {s : State} (hm : m.row.family = .transport ∨ m.row.family = .driver) :
    enter m s = { s with busy := true, midOp := false } := by
  rcases hm with hm | hm <;> simp [enter, hm]

theorem enter_eq_line {m : Mnemonic} {s : State} (hm : m.row.family = .line) : enter m s = { s with midOp := false } := by
  simp [enter, hm]

end Sys2Proof.Machine
end

