-- ==== Sys2Proof/Laws/Wire.lean ====
section
/-! SUPPORT. What the transport's sequences do to a quiet state, event by event and byte by byte (R68 to R71, R110 to
R113): the lemmas a proof about a transport or driver op cites instead of unfolding its events. -/

namespace Sys2Proof.Machine

/-- What the receiver holds apart from its framing: address mode, pointer, positions and configuration (R28). -/
def Rx.held (rx : Rx) : Option RxMode × Option Nat × Vector (Option Byte) 4 × Option Bool × Option (BitVec 3) :=
  (rx.mode, rx.ptr, rx.disp, rx.dctrlEn, rx.dctrlBri)

/-- Inside a frame with k data bits taken, on bus levels c and d. -/
structure Rx.InData (rx : Rx) (k : Nat) (c d : Bool) : Prop where
  sync : rx.sync = true
  frame : rx.frame = true
  phase : rx.phase = .data
  bits : rx.bits = k
  drv : rx.drv = false
  pclk : rx.pclk = .bit c
  pdio : rx.pdio = .bit d

/-- Outside a frame (a desynchronised receiver is outside one), on bus levels c and d. -/
structure Rx.OutOfFrame (rx : Rx) (c d : Bool) : Prop where
  frame : rx.frame = false
  drv : rx.drv = false
  pclk : rx.pclk = .bit c
  pdio : rx.pdio = .bit d

/-! ### START -/

/-- A high data latch on an unchanged clock: no edge of the clock, so no draw and no byte. -/
theorem see_dio_high {rx : Rx} (h : rx.Inv) (hp : rx.drv = true → rx.pdio ≠ .bit true) {c : Bool} (hc : rx.pclk = .bit c)
    (ext : Bool) :
    (rx.see (.bit c) (some .out) true ext).ackPlan = rx.ackPlan ∧
    (rx.drv = false → (rx.see (.bit c) (some .out) true ext).drv = false ∧
      (rx.see (.bit c) (some .out) true ext).held = rx.held) := by
  have hs := h.drv_off
  cases c <;> cases hdr : rx.drv <;> cases hsy : rx.sync <;>
    simp_all [Rx.see, Rx.levels, Rx.edges, dioLevel, Rx.desync, Rx.stop, Rx.held]
  all_goals repeat' split
  all_goals simp_all

/-- A high clock latch over a high data latch: afterwards the receiver does not pull, and both levels are high. -/
theorem see_clk_high {rx : Rx} (h : rx.Inv) (ext : Bool) :
    (rx.see (.bit true) (some .out) true ext).drv = false ∧
    (rx.see (.bit true) (some .out) true ext).pdio = .bit true ∧
    (rx.see (.bit true) (some .out) true ext).ackPlan = rx.ackPlan ∧
    (rx.drv = false → (rx.see (.bit true) (some .out) true ext).held = rx.held) := by
  have hs := h.drv_off
  cases hdr : rx.drv <;> cases hsy : rx.sync <;>
    simp_all [Rx.see, Rx.levels, Rx.edges, dioLevel, Rx.desync, Rx.stop, Rx.rise, Rx.held]
  all_goals repeat' split
  all_goals simp_all

theorem see_high_wait {rx : Rx} (hd : rx.drv = false) (hc : rx.pclk = .bit true) (hp : rx.pdio = .bit true) (ext : Bool) :
    rx.see (.bit true) (some .out) true ext = { rx with steps := rx.steps + 1 } := by
  cases hsy : rx.sync <;> simp [Rx.see, Rx.levels, Rx.edges, dioLevel, *]

/-- The start condition (R111): from any receiver that does not pull. -/
theorem see_start {rx : Rx} (hd : rx.drv = false) (hc : rx.pclk = .bit true) (hp : rx.pdio = .bit true) (ext : Bool) :
    rx.see (.bit true) (some .out) false ext =
      { rx with
        sync := true, frame := true, phase := .data, bits := 0, nbyte := 0, cmd := .none, drv := false,
        pdio := .bit false, steps := rx.steps + 1, logRev := (rx.steps + 1, .start) :: rx.logRev } := by
  cases hsy : rx.sync <;> simp [Rx.see, Rx.levels, Rx.edges, dioLevel, Rx.start, *]

/-- The events of START, newest first. -/
def startTrace : List Event := [.lat .dio false, .wait, .lat .clk true, .lat .dio true]

/-- START (R68) opens a frame from every state whose lines are outputs. -/
theorem run_start {s : State} (hq : s.quiet = true) (hf : s.fault = none) (hc : s.clkDir = some .out)
    (hd : s.dioDir = some .out) (hw : s.WireInv) :
    ∃ rx', run startSeq s =
        { s with
          clkOut := true, dioOut := false, midOp := true, traceRev := startTrace ++ s.traceRev, rx := rx' } ∧
      rx'.InData 0 true false ∧ rx'.nbyte = 0 ∧ rx'.cmd = .none ∧ rx'.ackPlan = s.rx.ackPlan ∧
      (s.rx.drv = false → rx'.held = s.rx.held) := by
  have hpc : s.rx.pclk = .bit s.clkOut := by rw [hw.pclk, State.clkBus, hc]; rfl
  obtain ⟨a1, a2⟩ := see_dio_high hw.rx hw.pulled hpc s.launch.extPullup
  have i1 := see_inv hw.rx (.bit s.clkOut) (some .out) true s.launch.extPullup
  generalize hr1 : s.rx.see (.bit s.clkOut) (some .out) true s.launch.extPullup = r1 at a1 a2 i1
  obtain ⟨b1, b2, b3, b4⟩ := see_clk_high i1 s.launch.extPullup
  generalize hr2 : r1.see (.bit true) (some .out) true s.launch.extPullup = r2 at b1 b2 b3 b4
  have hp2 : r2.pclk = .bit true := by rw [← hr2]; rfl
  have hw3 := see_high_wait b1 hp2 b2 s.launch.extPullup
  have hs4 := see_start (rx := { r2 with steps := r2.steps + 1 }) b1 hp2 b2 s.launch.extPullup
  refine ⟨(r2.see (.bit true) (some .out) true s.launch.extPullup).see (.bit true) (some .out) false s.launch.extPullup,
    ?_, ?_, ?_, ?_, ?_, ?_⟩
  rotate_left
  · rw [hw3, hs4]
    constructor <;> simp [hp2]
  · rw [hw3, hs4]
  · rw [hw3, hs4]
  · rw [hw3, hs4]
    simp [a1, b3]
  · intro h0
    rw [hw3, hs4]
    obtain ⟨c1, c2⟩ := a2 h0
    have := b4 c1
    rw [← c2, ← this]
    rfl
  · simp only [State.quiet] at hq
    simp [startSeq, run, microStep, event_quiet, State.quiet, hq, hf, setLatch, waitEvent, rxStep_eq, State.clkBus,
      clkLevel, hc, hd, State.record, startTrace, hr1, hr2]

/-! ### One byte -/

/-- The receivers agree on what a byte changes: synchronisation, framing, the byte count, the command and what is held. -/
def Rx.Like (r r' : Rx) : Prop :=
  r.sync = r'.sync ∧ r.frame = r'.frame ∧ r.nbyte = r'.nbyte ∧ r.cmd = r'.cmd ∧ r.held = r'.held

theorem Rx.Like.refl (r : Rx) : r.Like r := ⟨rfl, rfl, rfl, rfl, rfl⟩

theorem Rx.Like.trans {r r' r'' : Rx} (h : r.Like r') (h' : r'.Like r'') : r.Like r'' := by
  obtain ⟨a1, a2, a3, a4, a5⟩ := h
  obtain ⟨b1, b2, b3, b4, b5⟩ := h'
  exact ⟨a1.trans b1, a2.trans b2, a3.trans b3, a4.trans b4, a5.trans b5⟩

/-- A byte does the same to receivers that agree. -/
theorem Rx.Like.byte {r r' : Rx} (h : r.Like r') (b : Byte) (acked : Bool) : (r.byte b acked).Like (r'.byte b acked) := by
  obtain ⟨h1, h2, h3, h4, h5⟩ := h
  simp only [Rx.held, Prod.mk.injEq] at h5
  obtain ⟨h5, h6, h7, h8, h9⟩ := h5
  unfold Rx.byte Rx.commandByte Rx.dataByte Rx.nextPtr
  rw [h3, h4, h5, h6]
  repeat' split
  all_goals simp [Rx.Like, Rx.held, Rx.desync, *]

@[simp] theorem byte_drv {rx : Rx} (h : rx.drv = false) (b : Byte) (acked : Bool) : (rx.byte b acked).drv = false := by
  unfold Rx.byte Rx.commandByte Rx.dataByte
  repeat' split
  all_goals first | exact h | rfl

theorem byte_phase {rx : Rx} (h : rx.phase = .data) (b : Byte) (acked : Bool) : (rx.byte b acked).phase = .data := by
  unfold Rx.byte Rx.commandByte Rx.dataByte
  repeat' split
  all_goals first | exact h | rfl

theorem byte_bits {rx : Rx} (h : rx.bits = 0) (b : Byte) (acked : Bool) : (rx.byte b acked).bits = 0 := by
  unfold Rx.byte Rx.commandByte Rx.dataByte
  repeat' split
  all_goals first | exact h | rfl

theorem byte_receivedRev (rx : Rx) (b : Byte) (acked : Bool) : (rx.byte b acked).receivedRev = rx.receivedRev := by
  unfold Rx.byte Rx.commandByte Rx.dataByte
  repeat' split
  all_goals rfl

/-- A byte that leaves the receiver synchronised adds no derived event of its own. -/
theorem byte_eventsRev (rx : Rx) (b : Byte) (acked : Bool) (h : (rx.byte b acked).sync = true) :
    (rx.byte b acked).eventsRev = rx.eventsRev := by
  revert h
  unfold Rx.byte Rx.commandByte Rx.dataByte
  repeat' split
  all_goals first | (intro _; rfl) | (intro h; simp [Rx.desync] at h)

theorem byte_ackPlan (rx : Rx) (b : Byte) (acked : Bool) : (rx.byte b acked).ackPlan = rx.ackPlan := by
  unfold Rx.byte Rx.commandByte Rx.dataByte
  repeat' split
  all_goals rfl

/-- While the clock stays low the receiver only notes the data level. -/
theorem see_low {rx : Rx} (h : rx.pclk = .bit false) (dir : Option Dir) (out ext : Bool) :
    rx.see (.bit false) dir out ext =
      { rx with pdio := dioLevel dir out rx.drv ext, steps := rx.steps + 1 } := by
  simp [Rx.see, Rx.levels, Rx.edges, h]

/-- The events of one data bit, newest first. -/
def bitTrace (b : Bool) : List Event := [.wait, .lat .clk true, .lat .dio b, .wait, .lat .clk false]

/-- One data bit (R70, R112): the receiver in a frame takes it as bit k. -/
theorem run_bit {s : State} {k : Nat} (b : Bool) (hq : s.quiet = true) (hf : s.fault = none)
    (hc : s.clkDir = some .out) (hd : s.dioDir = some .out) (h : s.rx.InData k s.clkOut s.dioOut) (hk : k < 8) :
    run (bitSeq b) s =
      { s with
        clkOut := true, dioOut := b, midOp := true, traceRev := bitTrace b ++ s.traceRev,
        rx := { s.rx with
          bits := k + 1, shift := setShiftBit s.rx.shift k b, pclk := .bit true, pdio := .bit b,
          steps := s.rx.steps + 5 } } := by
  simp only [State.quiet] at hq
  obtain ⟨h1, h2, h3, h4, h5, h6, h7⟩ := h
  have hk' : k ≠ 8 := by omega
  cases hco : s.clkOut <;> cases hdo : s.dioOut <;> cases b <;>
  simp [bitSeq, run, microStep, event_quiet, State.quiet, setLatch, waitEvent, rxStep_eq, State.clkBus, clkLevel,
    State.record, bitTrace, Rx.see, Rx.levels, Rx.edges, Rx.fall, Rx.rise, dioLevel, *]

/-- One data bit outside a frame: the receiver takes nothing. -/
theorem run_bit_out {s : State} (b : Bool) (hq : s.quiet = true) (hf : s.fault = none)
    (hc : s.clkDir = some .out) (hd : s.dioDir = some .out) (h : s.rx.OutOfFrame s.clkOut s.dioOut) :
    run (bitSeq b) s =
      { s with
        clkOut := true, dioOut := b, midOp := true, traceRev := bitTrace b ++ s.traceRev,
        rx := { s.rx with pclk := .bit true, pdio := .bit b, steps := s.rx.steps + 5 } } := by
  simp only [State.quiet] at hq
  obtain ⟨h1, h2, h3, h4⟩ := h
  cases hsy : s.rx.sync <;> cases hco : s.clkOut <;> cases hdo : s.dioOut <;> cases b <;>
  simp [bitSeq, run, microStep, event_quiet, State.quiet, setLatch, waitEvent, rxStep_eq, State.clkBus, clkLevel,
    State.record, bitTrace, Rx.see, Rx.levels, Rx.edges, Rx.fall, Rx.rise, dioLevel, *]

/-- The events of the eight data bits, newest first. -/
def dataTrace (v : Byte) : List Event :=
  bitTrace (v.getLsbD 7) ++ bitTrace (v.getLsbD 6) ++ bitTrace (v.getLsbD 5) ++ bitTrace (v.getLsbD 4) ++
  bitTrace (v.getLsbD 3) ++ bitTrace (v.getLsbD 2) ++ bitTrace (v.getLsbD 1) ++ bitTrace (v.getLsbD 0)

/-- Eight bits, each set in turn, are the byte (R36, R112). -/
theorem shift_eight (sh v : Byte) :
    setShiftBit (setShiftBit (setShiftBit (setShiftBit (setShiftBit (setShiftBit (setShiftBit (setShiftBit sh
      0 (v.getLsbD 0)) 1 (v.getLsbD 1)) 2 (v.getLsbD 2)) 3 (v.getLsbD 3)) 4 (v.getLsbD 4)) 5 (v.getLsbD 5))
      6 (v.getLsbD 6)) 7 (v.getLsbD 7) = v := by
  apply BitVec.eq_of_getLsbD_eq
  intro i hi
  have : i = 0 ∨ i = 1 ∨ i = 2 ∨ i = 3 ∨ i = 4 ∨ i = 5 ∨ i = 6 ∨ i = 7 := by omega
  rcases this with rfl | rfl | rfl | rfl | rfl | rfl | rfl | rfl <;> simp [setShiftBit]

/-- The eight data bits (R70): the receiver in a frame has the byte. -/
theorem run_dataBits {s : State} (v : Byte) (hq : s.quiet = true) (hf : s.fault = none)
    (hc : s.clkDir = some .out) (hd : s.dioDir = some .out) (h : s.rx.InData 0 s.clkOut s.dioOut) :
    run (dataBitsSeq v) s =
      { s with
        clkOut := true, dioOut := v.getLsbD 7, midOp := true, traceRev := dataTrace v ++ s.traceRev,
        rx := { s.rx with
          bits := 8, shift := v, pclk := .bit true, pdio := .bit (v.getLsbD 7), steps := s.rx.steps + 40 } } := by
  obtain ⟨h1, h2, h3, h4, h5, h6, h7⟩ := h
  unfold dataBitsSeq
  simp only [run_append]
  rw [run_bit (k := 0) (b := v.getLsbD 0)]
  rw [run_bit (k := 1) (b := v.getLsbD 1)]
  rw [run_bit (k := 2) (b := v.getLsbD 2)]
  rw [run_bit (k := 3) (b := v.getLsbD 3)]
  rw [run_bit (k := 4) (b := v.getLsbD 4)]
  rw [run_bit (k := 5) (b := v.getLsbD 5)]
  rw [run_bit (k := 6) (b := v.getLsbD 6)]
  rw [run_bit (k := 7) (b := v.getLsbD 7)]
  · simp only [shift_eight, dataTrace, List.append_assoc]
  all_goals first
    | exact hq | exact hf | exact hc | exact hd | exact ⟨h1, h2, h3, h4, h5, h6, h7⟩
    | exact ⟨h1, h2, h3, rfl, h5, rfl, rfl⟩ | omega

theorem run_dataBits_out {s : State} (v : Byte) (hq : s.quiet = true) (hf : s.fault = none)
    (hc : s.clkDir = some .out) (hd : s.dioDir = some .out) (h : s.rx.OutOfFrame s.clkOut s.dioOut) :
    run (dataBitsSeq v) s =
      { s with
        clkOut := true, dioOut := v.getLsbD 7, midOp := true, traceRev := dataTrace v ++ s.traceRev,
        rx := { s.rx with pclk := .bit true, pdio := .bit (v.getLsbD 7), steps := s.rx.steps + 40 } } := by
  obtain ⟨h1, h2, h3, h4⟩ := h
  unfold dataBitsSeq
  simp only [run_append]
  rw [run_bit_out (b := v.getLsbD 0)]
  rw [run_bit_out (b := v.getLsbD 1)]
  rw [run_bit_out (b := v.getLsbD 2)]
  rw [run_bit_out (b := v.getLsbD 3)]
  rw [run_bit_out (b := v.getLsbD 4)]
  rw [run_bit_out (b := v.getLsbD 5)]
  rw [run_bit_out (b := v.getLsbD 6)]
  rw [run_bit_out (b := v.getLsbD 7)]
  · simp only [dataTrace, List.append_assoc]
  all_goals first
    | exact hq | exact hf | exact hc | exact hd | exact ⟨h1, h2, h3, h4⟩ | exact ⟨h1, h2, rfl, rfl⟩

/-- The events of the acknowledge bit, newest first; `a` is whether the byte was acknowledged. -/
def ackTrace (a : Bool) : List Event :=
  [.dir .dio .out, .wait, .lat .clk false, .wait, .lat .clk true, .wait] ++
  (if a then [.lat .dio false] else []) ++
  [.smp (!a), .wait, .lat .dio true, .dir .dio .inp, .lat .clk false]

/-- The acknowledge bit (R70, R112) of a byte in a frame: the sampled level and `ACK` are the receiver's answer, and
the byte is interpreted (R113). -/
theorem run_ack {s : State} (hq : s.quiet = true) (hf : s.fault = none) (hc : s.clkDir = some .out)
    (hd : s.dioDir = some .out) (_hco : s.clkOut = true) (h : s.rx.InData 8 true s.dioOut) :
    ∃ rx', run ackSeq s =
        { s with
          clkOut := false, dioOut := !s.rx.ackDraw, smp := some (!s.rx.ackDraw), ack := some s.rx.ackDraw,
          midOp := true, traceRev := ackTrace s.rx.ackDraw ++ s.traceRev, rx := rx' } ∧
      rx'.Like (s.rx.byte s.rx.shift s.rx.ackDraw) ∧ rx'.phase = .data ∧ rx'.bits = 0 ∧ rx'.drv = false ∧
      rx'.pclk = .bit false ∧ rx'.pdio = .bit (!s.rx.ackDraw) ∧ rx'.ackPlan = s.rx.ackPlan.rest ∧
      rx'.receivedRev = (s.rx.shift, s.rx.ackDraw) :: s.rx.receivedRev ∧
      (rx'.sync = true → rx'.eventsRev = .byte s.rx.shift s.rx.ackDraw :: s.rx.eventsRev) := by
  simp only [State.quiet] at hq
  obtain ⟨h1, h2, h3, h4, h5, h6, h7⟩ := h
  let r : Rx := Rx.note
    { s.rx with
      acked := s.rx.ackDraw, drv := false, bits := 0, phase := .data, ackPlan := s.rx.ackPlan.rest,
      ackDraws := s.rx.ackDraws + 1, pclk := .bit true, pdio := .bit (!s.rx.ackDraw),
      steps := s.rx.steps + (if s.rx.ackDraw then 10 else 9) } (.byte s.rx.shift s.rx.ackDraw)
  refine ⟨{ r.byte s.rx.shift s.rx.ackDraw with
      pclk := .bit false, pdio := .bit (!s.rx.ackDraw),
      steps := s.rx.steps + (if s.rx.ackDraw then 12 else 11) }, ?_, ?_, ?_, ?_, ?_, rfl, rfl, ?_, ?_, ?_⟩
  · unfold Rx.ackDraw at *
    cases ha : s.rx.ackPlan.answer s.rx.ackDraws <;> cases hdo : s.dioOut <;>
    simp [ackSeq, Rx.ackDraw,  run, microStep, event_quiet, State.quiet, setLatch, setDir, waitEvent, sampleEvent, holdLow, writeAck,
      State.readLevel, State.useDraw, State.dioBus, rxStep_eq, State.clkBus, clkLevel, State.record, ackTrace, ackOf,
      Rx.see, Rx.levels, Rx.edges, Rx.fall, Rx.rise, dioLevel, r, *] <;>
    rw [byte_drv (by rfl)] <;> rfl
  · exact (Rx.Like.byte (r := r) (r' := s.rx) ⟨rfl, rfl, rfl, rfl, rfl⟩ _ _)
  · exact byte_phase rfl _ _
  · exact byte_bits rfl _ _
  · exact byte_drv rfl _ _
  · exact byte_ackPlan r _ _
  · exact byte_receivedRev r _ _
  · exact byte_eventsRev r _ _

/-- The acknowledge bit outside a frame: nobody pulls the line, so it reads high by the host's pull-up. -/
theorem run_ack_out {s : State} (hq : s.quiet = true) (hf : s.fault = none) (hc : s.clkDir = some .out)
    (hd : s.dioDir = some .out) (_hco : s.clkOut = true) (h : s.rx.OutOfFrame true s.dioOut) :
    run ackSeq s =
      { s with
        clkOut := false, dioOut := true, smp := some true, ack := some false, midOp := true,
        traceRev := ackTrace false ++ s.traceRev,
        rx := { s.rx with pclk := .bit false, pdio := .bit true, steps := s.rx.steps + 11 } } := by
  simp only [State.quiet] at hq
  obtain ⟨h1, h2, h3, h4⟩ := h
  cases hsy : s.rx.sync <;> cases hdo : s.dioOut <;>
  simp [ackSeq, run, microStep, event_quiet, State.quiet, setLatch, setDir, waitEvent, sampleEvent, holdLow, writeAck,
    State.readLevel, State.useDraw, State.dioBus, rxStep_eq, State.clkBus, clkLevel, State.record, ackTrace, ackOf,
    Rx.see, Rx.levels, Rx.edges, Rx.fall, Rx.rise, dioLevel, *]

/-- The events of a byte, newest first. -/
def byteTrace (v : Byte) (a : Bool) : List Event := ackTrace a ++ dataTrace v

/-- `WriteByteSeq` (R70) in a frame: the sampled level and `ACK` are the receiver's answer `s.rx.ackDraw`, and the byte
is interpreted (R113). -/
theorem run_writeByte {s : State} (v : Byte) (hq : s.quiet = true) (hf : s.fault = none) (hc : s.clkDir = some .out)
    (hd : s.dioDir = some .out) (h : s.rx.InData 0 s.clkOut s.dioOut) :
    ∃ rx', run (writeByteSeq v) s =
        { s with
          clkOut := false, dioOut := !s.rx.ackDraw, smp := some (!s.rx.ackDraw), ack := some s.rx.ackDraw,
          midOp := true, traceRev := byteTrace v s.rx.ackDraw ++ s.traceRev, rx := rx' } ∧
      rx'.Like (s.rx.byte v s.rx.ackDraw) ∧ rx'.phase = .data ∧ rx'.bits = 0 ∧ rx'.drv = false ∧
      rx'.pclk = .bit false ∧ rx'.pdio = .bit (!s.rx.ackDraw) ∧ rx'.ackPlan = s.rx.ackPlan.rest ∧
      rx'.receivedRev = (v, s.rx.ackDraw) :: s.rx.receivedRev ∧
      (rx'.sync = true → rx'.eventsRev = .byte v s.rx.ackDraw :: s.rx.eventsRev) := by
  obtain ⟨h1, h2, h3, h4, h5, h6, h7⟩ := h
  unfold writeByteSeq
  rw [run_append, run_dataBits v hq hf hc hd ⟨h1, h2, h3, h4, h5, h6, h7⟩]
  obtain ⟨rx', e, l, rest⟩ := run_ack (s := { s with
        clkOut := true, dioOut := v.getLsbD 7, midOp := true, traceRev := dataTrace v ++ s.traceRev,
        rx := { s.rx with
          bits := 8, shift := v, pclk := .bit true, pdio := .bit (v.getLsbD 7), steps := s.rx.steps + 40 } })
    hq hf hc hd rfl ⟨h1, h2, h3, rfl, h5, rfl, rfl⟩
  refine ⟨rx', ?_, ?_, rest⟩
  · rw [e]
    simp only [byteTrace, List.append_assoc]
    rfl
  · exact l.trans (Rx.Like.byte (r := { s.rx with
          bits := 8, shift := v, pclk := .bit true, pdio := .bit (v.getLsbD 7), steps := s.rx.steps + 40 })
        (r' := s.rx) ⟨rfl, rfl, rfl, rfl, rfl⟩ v s.rx.ackDraw)

/-- `WriteByteSeq` (R70, R74) outside a frame: the receiver takes nothing and does not answer. -/
theorem run_writeByte_out {s : State} (v : Byte) (hq : s.quiet = true) (hf : s.fault = none) (hc : s.clkDir = some .out)
    (hd : s.dioDir = some .out) (h : s.rx.OutOfFrame s.clkOut s.dioOut) :
    run (writeByteSeq v) s =
      { s with
        clkOut := false, dioOut := true, smp := some true, ack := some false, midOp := true,
        traceRev := byteTrace v false ++ s.traceRev,
        rx := { s.rx with pclk := .bit false, pdio := .bit true, steps := s.rx.steps + 51 } } := by
  obtain ⟨h1, h2, h3, h4⟩ := h
  unfold writeByteSeq
  rw [run_append, run_dataBits_out v hq hf hc hd ⟨h1, h2, h3, h4⟩, run_ack_out]
  · simp only [byteTrace, List.append_assoc]
  all_goals first
    | exact hq | exact hf | exact hc | exact hd | rfl | exact ⟨h1, h2, rfl, rfl⟩

/-! ### STOP -/

/-- The events of STOP, newest first. -/
def stopTrace : List Event :=
  [.lat .dio true, .wait, .lat .clk true, .wait, .lat .dio false, .wait, .lat .clk false]

/-- STOP (R69) between bytes or in an incomplete one: the frame is closed, what the receiver holds stays, and an
incomplete byte is discarded. -/
theorem run_stop {s : State} (hq : s.quiet = true) (hf : s.fault = none) (hc : s.clkDir = some .out)
    (hd : s.dioDir = some .out) (hfr : s.rx.frame = true → s.rx.sync = true) (hph : s.rx.phase = .data)
    (hb : s.rx.bits < 8) (hnb : s.rx.frame = false → s.rx.bits = 0) (hdr : s.rx.drv = false)
    (hpc : s.rx.pclk = .bit s.clkOut) (hpd : s.rx.pdio = .bit s.dioOut) :
    ∃ rx', run stopSeq s =
        { s with
          clkOut := true, dioOut := true, midOp := true, traceRev := stopTrace ++ s.traceRev, rx := rx' } ∧
      rx'.sync = s.rx.sync ∧ rx'.frame = false ∧ rx'.phase = .data ∧ rx'.bits = 0 ∧ rx'.drv = false ∧
      rx'.pclk = .bit true ∧ rx'.pdio = .bit true ∧ rx'.ackPlan = s.rx.ackPlan ∧ rx'.held = s.rx.held ∧
      rx'.eventsRev = (if s.rx.sync then [.stop] else []) ++ s.rx.eventsRev := by
  simp only [State.quiet] at hq
  have hb' : s.rx.bits ≠ 8 := by omega
  have key : ∀ rx', run stopSeq s =
        { s with
          clkOut := true, dioOut := true, midOp := true, traceRev := stopTrace ++ s.traceRev, rx := rx' } ↔
      (run stopSeq s).rx = rx' := by
    intro rx'
    constructor
    · intro h
      rw [h]
    · rintro rfl
      cases hco : s.clkOut <;> cases hdo : s.dioOut <;>
      simp [stopSeq, run, microStep, event_quiet, State.quiet, setLatch, waitEvent, rxStep_eq, State.clkBus,
        clkLevel, State.record, stopTrace, hc, hd, hf, hq]
  refine ⟨(run stopSeq s).rx, (key _).2 rfl, ?_⟩
  cases hsy : s.rx.sync <;> cases hfm : s.rx.frame <;> cases hco : s.clkOut <;> cases hdo : s.dioOut <;>
  simp_all [stopSeq, run, microStep, event_quiet, State.quiet, setLatch, waitEvent, rxStep_eq, State.clkBus, clkLevel,
    State.record, Rx.see, Rx.levels, Rx.edges, Rx.fall, Rx.rise, Rx.stop, dioLevel, Rx.held]
  all_goals rfl


/-! ### What the receiver has seen -/

/-- A high data latch adds no byte to what the receiver has seen, unless it comes with a falling clock. -/
theorem see_high_received (rx : Rx) (c ext : Bool) (hc : rx.pclk = .bit true → c = true) :
    (rx.see (.bit c) (some .out) true ext).receivedRev = rx.receivedRev := by
  cases c <;> cases hsy : rx.sync <;>
    simp_all [Rx.see, Rx.levels, Rx.edges, dioLevel, Rx.desync, Rx.stop, Rx.rise, Rx.receivedRev, Rx.eventsRev]
  all_goals repeat' split
  all_goals simp_all [Rx.note]
  all_goals rfl

/-- START adds no byte to what the receiver has seen; from a state in which a high data latch makes no stop condition,
its only derived event is the start. -/
theorem run_start_seen {s : State} (hq : s.quiet = true) (hf : s.fault = none) (hc : s.clkDir = some .out)
    (hd : s.dioDir = some .out) (hw : s.WireInv) :
    (run startSeq s).rx.receivedRev = s.rx.receivedRev ∧
    (s.rx.drv = false → (s.clkOut = true → s.dioOut = true) →
      (run startSeq s).rx.eventsRev = .start :: s.rx.eventsRev) := by
  have hpc : s.rx.pclk = .bit s.clkOut := by rw [hw.pclk, State.clkBus, hc]; rfl
  have key : (run startSeq s).rx = (((s.rx.see (.bit s.clkOut) (some .out) true s.launch.extPullup).see (.bit true)
      (some .out) true s.launch.extPullup).see (.bit true) (some .out) true s.launch.extPullup).see (.bit true)
      (some .out) false s.launch.extPullup := by
    simp only [State.quiet] at hq
    simp [startSeq, run, microStep, event_quiet, State.quiet, hq, hf, setLatch, waitEvent, rxStep_eq, State.clkBus,
      clkLevel, hc, hd, State.record]
  have i1 := see_inv hw.rx (.bit s.clkOut) (some .out) true s.launch.extPullup
  obtain ⟨b1, b2, -, -⟩ := see_clk_high i1 s.launch.extPullup
  rw [key, see_high_wait b1 rfl b2, see_start (by exact b1) rfl (by exact b2)]
  constructor
  · show (Rx.see _ _ _ _ _).receivedRev = _
    rw [see_high_received _ true _ (by simp), see_high_received _ _ _ (by rw [hpc]; simp)]
  · intro hdr hcd
    show RxEvent.start :: (Rx.see _ _ _ _ _).eventsRev = _
    congr 1
    have hpd : s.rx.pdio = .bit s.dioOut := by rw [hw.pdio, State.dioBus, hd, hdr]; rfl
    clear key i1 b1 b2 hw
    generalize s.rx = rx at *
    generalize s.clkOut = c at *
    generalize s.dioOut = d at *
    cases c <;> cases d <;> cases hsy : rx.sync <;> cases hfr : rx.frame <;> cases hph : rx.phase <;>
      simp_all [Rx.see, Rx.levels, Rx.edges, dioLevel, Rx.rise, Rx.eventsRev]
    all_goals repeat' split
    all_goals rfl

/-- An event that changes no line: the receiver does nothing but count its step; where the clock is unknown it notes
another desynchronisation. -/
theorem see_idle {s : State} (hw : s.WireInv) : (s.rx.see s.clkBus s.dioDir s.dioOut s.launch.extPullup) =
    { s.rx with steps := s.rx.steps + 1, logRev := (s.rx.see s.clkBus s.dioDir s.dioOut s.launch.extPullup).logRev } ∧
    (s.clkBus ≠ .unknown → (s.rx.see s.clkBus s.dioDir s.dioOut s.launch.extPullup).logRev = s.rx.logRev) := by
  obtain ⟨hi, hp, hd, hn, hu, hx⟩ := hw
  have hd' : dioLevel s.dioDir s.dioOut s.rx.drv s.launch.extPullup = s.rx.pdio := hd.symm
  cases hc : s.clkBus with
  | unknown =>
    have hs := hu hc
    obtain ⟨d1, d2, d3, d4, d5, d6, d7⟩ := hi.desynced hs
    have hfr : s.rx.frame = false := by
      cases h : s.rx.frame with
      | false => rfl
      | true => have := hi.frame_sync h; rw [hs] at this; cases this
    have hph := hi.phase_data hfr
    have hb := hi.noFrame_bits hfr
    have hdr := hi.drv_off hs
    rw [hc] at hp
    refine ⟨?_, fun h => absurd rfl h⟩
    unfold Rx.see Rx.levels
    simp only [if_true]
    generalize s.rx = rx at *
    cases rx
    simp only at *
    subst_vars
    simp [Rx.desync, Rx.note]
    exact hd'
  | float => simp [State.clkBus, clkLevel] at hc; split at hc <;> cases hc
  | bit c =>
    rw [hc] at hp
    have : (s.rx.see (.bit c) s.dioDir s.dioOut s.launch.extPullup) = { s.rx with steps := s.rx.steps + 1 } := by
      unfold Rx.see Rx.levels
      rw [hd']
      cases hs : s.rx.sync with
      | false =>
        simp only [hs, hp]
        cases c <;> cases hpd : s.rx.pdio <;> simp [hd', hpd]
      | true =>
        simp only [hs]
        cases c with
        | false => simp [Rx.edges, hp, hd']
        | true =>
          have hb : ∃ b, s.rx.pdio = .bit b := by
            by_contra hcon
            have := hx hc (by intro b hb; apply hcon; exact ⟨b, by rw [← hd']; exact hb⟩)
            rw [hs] at this; cases this
          obtain ⟨b, hb⟩ := hb
          cases b <;> simp [Rx.edges, hp, hb, hd']
    exact ⟨by rw [this], fun _ => by rw [this]⟩

end Sys2Proof.Machine
end

