-- ==== Sys2Proof/Laws/Lines.lean ====
section
/-! SUPPORT. What the sequences do to the lines, the flags and the trace, whatever the receiver does: the sampled
level of an acknowledge bit is never left to a draw, since the host's pull-up is on (R18, R70). -/

namespace Sys2Proof.Machine

theorem SameButWire.refl (s : State) : SameButWire s s := rfl

theorem SameButWire.quiet {s t : State} (h : SameButWire s t) : t.quiet = s.quiet := by rw [h]; rfl

theorem SameButWire.fault {s t : State} (h : SameButWire s t) : t.fault = s.fault := by rw [h]

/-- In a quiet state before a fault, a sequence changes the wire's part of the state alone. -/
theorem run_sameButWire {s : State} (ms : List Micro) (hq : s.quiet = true) : SameButWire s (run ms s) := by
  refine run_keeps (P := SameButWire s) ?_ ?_ ?_ ?_ ?_ ?_ ?_ ms s (SameButWire.refl s)
  · intro t h
    rw [gap_quiet (by rw [h.quiet, hq])]
    exact h
  · intro t h
    rw [h]
    rfl
  · intro l v t h
    rw [h]
    cases l <;> rfl
  · intro l d t h
    rw [h]
    cases l <;> rfl
  · intro t h
    rw [h]
    rfl
  · intro t h
    rw [h]
    unfold sampleEvent State.useDraw
    split <;> rfl
  · intro t h
    rw [h]
    rfl

theorem run_quiet {s : State} (ms : List Micro) (hq : s.quiet = true) : (run ms s).quiet = true := by
  rw [(run_sameButWire ms hq).quiet, hq]

theorem run_unfaulted {s : State} (ms : List Micro) (hq : s.quiet = true) (hf : s.fault = none) :
    (run ms s).fault = none := by
  rw [(run_sameButWire ms hq).fault, hf]

/-- The sequence leaves the latches at c and d and adds the events tr, whatever the receiver does, and changes
nothing else but the receiver. -/
def Drives (ms : List Micro) (c d : Bool) (tr : List Event) : Prop :=
  ∀ s : State, s.quiet = true → s.fault = none → ∃ rx', run ms s =
    { s with clkOut := c, dioOut := d, midOp := true, traceRev := tr ++ s.traceRev, rx := rx' }

theorem Drives.append {ms ms' : List Micro} {c d c' d' : Bool} {tr tr' : List Event} (h : Drives ms c d tr)
    (h' : Drives ms' c' d' tr') : Drives (ms ++ ms') c' d' (tr' ++ tr) := by
  intro s hq hf
  obtain ⟨r, e⟩ := h s hq hf
  rw [run_append, e]
  obtain ⟨r', e'⟩ := h' { s with clkOut := c, dioOut := d, midOp := true, traceRev := tr ++ s.traceRev, rx := r } hq hf
  exact ⟨r', by rw [e']; simp only [List.append_assoc]⟩

/-- START on the lines (R68). -/
theorem start_drives : Drives startSeq true false startTrace := by
  intro s hq hf
  simp only [State.quiet] at hq
  exact ⟨_, by
    simp [startSeq, run, microStep, event_quiet, State.quiet, hq, hf, setLatch, waitEvent, rxStep_eq, State.record,
      startTrace]
    rfl⟩

/-- STOP on the lines (R69). -/
theorem stop_drives : Drives stopSeq true true stopTrace := by
  intro s hq hf
  simp only [State.quiet] at hq
  exact ⟨_, by
    simp [stopSeq, run, microStep, event_quiet, State.quiet, hq, hf, setLatch, waitEvent, rxStep_eq, State.record,
      stopTrace]
    rfl⟩

theorem bit_drives (b : Bool) : Drives (bitSeq b) true b (bitTrace b) := by
  intro s hq hf
  simp only [State.quiet] at hq
  exact ⟨_, by
    simp [bitSeq, run, microStep, event_quiet, State.quiet, hq, hf, setLatch, waitEvent, rxStep_eq, State.record,
      bitTrace]
    rfl⟩

/-- The eight data bits on the lines (R70). -/
theorem dataBits_drives (v : Byte) : Drives (dataBitsSeq v) true (v.getLsbD 7) (dataTrace v) := by
  have h := ((((((((bit_drives (v.getLsbD 0)).append (bit_drives (v.getLsbD 1))).append (bit_drives (v.getLsbD 2))).append
    (bit_drives (v.getLsbD 3))).append (bit_drives (v.getLsbD 4))).append (bit_drives (v.getLsbD 5))).append
    (bit_drives (v.getLsbD 6))).append (bit_drives (v.getLsbD 7)))
  simpa [dataBitsSeq, dataTrace] using h

/-- The acknowledge bit: the sampled level is the receiver's pull or the host's pull-up (R18), so no draw is used. -/
theorem run_ack_lines {s : State} (hq : s.quiet = true) (hf : s.fault = none) :
    ∃ a rx', run ackSeq s =
      { s with
        clkOut := false, dioDir := some .out, dioOut := !a, smp := some (!a), ack := some a,
        midOp := true, traceRev := ackTrace a ++ s.traceRev, rx := rx' } := by
  simp only [State.quiet] at hq
  have hpre : ∃ rx', run [.lat .clk false, .dir .dio .inp, .lat .dio true, .wait] s =
      { s with
        clkOut := false, dioDir := some .inp, dioOut := true, midOp := true, rx := rx',
        traceRev := [.wait, .lat .dio true, .dir .dio .inp, .lat .clk false] ++ s.traceRev } := by
    exact ⟨_, by
      simp [run, microStep, event_quiet, State.quiet, hq, hf, setLatch, setDir, waitEvent, rxStep_eq, State.record]
      rfl⟩
  obtain ⟨r, e⟩ := hpre
  have hsplit : ackSeq = [.lat .clk false, .dir .dio .inp, .lat .dio true, .wait] ++
    [.sample, .holdLow, .wait, .lat .clk true, .wait, .lat .clk false, .wait, .dir .dio .out, .setAck] := rfl
  rw [hsplit, run_append, e]
  refine ⟨r.drv, ?_⟩
  cases hd : r.drv
  · exact ⟨_, by
      simp [run, microStep, event_quiet, State.quiet, hq, hf, setLatch, setDir, waitEvent, sampleEvent, holdLow,
        writeAck, State.readLevel, State.useDraw, State.dioBus, dioLevel, hd, rxStep_eq, State.record, ackTrace, ackOf]
      rfl⟩
  · exact ⟨_, by
      simp [run, microStep, event_quiet, State.quiet, hq, hf, setLatch, setDir, waitEvent, sampleEvent, holdLow,
        writeAck, State.readLevel, State.useDraw, State.dioBus, dioLevel, hd, rxStep_eq, State.record, ackTrace, ackOf]
      rfl⟩

/-- The sequence leaves the latches at c and d with the data line an output, leaves the last acknowledge in `ACK` and
`SMP`, and adds between n - k and n events, w of them `WAIT`, whatever the receiver does, and changes nothing else but
the receiver. -/
def Sends (ms : List Micro) (c d : Bool → Bool) (n k w : Nat) : Prop :=
  ∀ s : State, s.quiet = true → s.fault = none → ∃ a tr rx', run ms s =
    { s with
      clkOut := c a, dioDir := some .out, dioOut := d a, smp := some (!a), ack := some a, midOp := true,
      traceRev := tr ++ s.traceRev, rx := rx' } ∧
    tr.length ≤ n ∧ n ≤ tr.length + k ∧ tr.count .wait = w

theorem Sends.append {ms ms' : List Micro} {c d c' d' : Bool → Bool} {n n' k k' w w' : Nat} (h : Sends ms c d n k w)
    (h' : Sends ms' c' d' n' k' w') : Sends (ms ++ ms') c' d' (n + n') (k + k') (w + w') := by
  intro s hq hf
  obtain ⟨a, tr, r, e, h1, h2, h3⟩ := h s hq hf
  rw [run_append, e]
  obtain ⟨a', tr', r', e', h1', h2', h3'⟩ := h' { s with
      clkOut := c a, dioDir := some .out, dioOut := d a, smp := some (!a), ack := some a, midOp := true,
      traceRev := tr ++ s.traceRev, rx := r } hq hf
  refine ⟨a', tr' ++ tr, r', by rw [e']; simp only [List.append_assoc], ?_, ?_, ?_⟩
  · simp; omega
  · simp; omega
  · simp; omega

theorem Drives.sends {ms ms' : List Micro} {c d : Bool} {c' d' : Bool → Bool} {tr : List Event} {n k w : Nat}
    (h : Drives ms c d tr) (h' : Sends ms' c' d' n k w) :
    Sends (ms ++ ms') c' d' (tr.length + n) k (tr.count .wait + w) := by
  intro s hq hf
  obtain ⟨r, e⟩ := h s hq hf
  rw [run_append, e]
  obtain ⟨a', tr', r', e', h1', h2', h3'⟩ := h' { s with
      clkOut := c, dioOut := d, midOp := true, traceRev := tr ++ s.traceRev, rx := r } hq hf
  refine ⟨a', tr' ++ tr, r', by rw [e']; simp only [List.append_assoc], ?_, ?_, ?_⟩
  · simp; omega
  · simp; omega
  · simp; omega

theorem Sends.drives {ms ms' : List Micro} {c' d' : Bool} {c d : Bool → Bool} {tr : List Event} {n k w : Nat}
    (h : Sends ms c d n k w) (h' : Drives ms' c' d' tr) :
    Sends (ms ++ ms') (fun _ => c') (fun _ => d') (n + tr.length) k (w + tr.count .wait) := by
  intro s hq hf
  obtain ⟨a, tr1, r, e, h1, h2, h3⟩ := h s hq hf
  rw [run_append, e]
  obtain ⟨r', e'⟩ := h' { s with
      clkOut := c a, dioDir := some .out, dioOut := d a, smp := some (!a), ack := some a, midOp := true,
      traceRev := tr1 ++ s.traceRev, rx := r } hq hf
  refine ⟨a, tr ++ tr1, r', by rw [e']; simp only [List.append_assoc], ?_, ?_, ?_⟩
  · simp; omega
  · simp; omega
  · simp; omega

theorem ack_sends : Sends ackSeq (fun _ => false) (fun a => !a) 12 1 4 := by
  intro s hq hf
  obtain ⟨a, r, e⟩ := run_ack_lines hq hf
  refine ⟨a, _, r, e, ?_, ?_, ?_⟩ <;> cases a <;> decide

/-- `WriteByteSeq` on the lines (R70). -/
theorem writeByte_sends (v : Byte) : Sends (writeByteSeq v) (fun _ => false) (fun a => !a) 52 1 20 := by
  have h := (dataBits_drives v).sends ack_sends
  simpa [writeByteSeq, dataTrace, bitTrace] using h

/-- `SendCmdSeq` on the lines (R71). -/
theorem sendCmd_sends (v : Byte) : Sends (sendCmdSeq v) (fun _ => true) (fun _ => true) 63 1 24 := by
  have h := (start_drives.sends (writeByte_sends v)).drives stop_drives
  simpa [sendCmdSeq, startTrace, stopTrace] using h

/-- `DSegSeq` on the lines (R86). -/
theorem dseg_sends (pos pat : Byte) : Sends (dsegSeq pos pat) (fun _ => true) (fun _ => true) 178 3 68 := by
  have h := (((sendCmd_sends dataAutoinc).append
    ((start_drives.sends (writeByte_sends (addrByte (maskPos pos)))).append (writeByte_sends pat))).drives stop_drives)
  simpa [startTrace, stopTrace, dsegSeq] using h

/-- At a position that is not written 1, `DCharSeq` is `DSegSeq` (R87). -/
theorem dcharSeq_other {pos : Byte} (pat : Byte) (s : State) (hp : pos ≠ 1) :
    dcharSeq pos pat s = run (dsegSeq pos pat) s := by
  simp only [dcharSeq, withColon, hp, if_false]

/-- Four `DCharSeq` in a row (R93, R94) are four writes, of which the one to position 1 caches its pattern. -/
theorem dcharsFrom_four (p0 p1 p2 p3 : Byte) (s : State) : dcharsFrom 0 [p0, p1, p2, p3] s =
    run (dsegSeq 3 p3) (run (dsegSeq 2 p2) (dcharSeq 1 p1 (run (dsegSeq 0 p0) s))) := by
  rw [← dcharSeq_other p0 s (pos := 0) (by decide), ← dcharSeq_other p2 _ (pos := 2) (by decide),
    ← dcharSeq_other p3 _ (pos := 3) (by decide)]
  rfl

/-- `DCharSeq` at position 1 (R87), whatever the receiver answers: as `DSegSeq`, and the pattern sent is cached. -/
theorem dcharOne_sends {s : State} (pat : Byte) (hq : s.quiet = true) (hf : s.fault = none) : ∃ a tr rx',
    dcharSeq 1 pat s =
      { s with
        clkOut := true, dioDir := some .out, dioOut := true, smp := some (!a), ack := some a, midOp := true,
        colonCache := some (withColon 1 pat s.colonValue), traceRev := tr ++ s.traceRev, rx := rx' } ∧
    tr.length ≤ 178 ∧ 178 ≤ tr.length + 3 ∧ tr.count .wait = 68 := by
  obtain ⟨a, tr, rx', e, h⟩ := dseg_sends 1 (withColon 1 pat s.colonValue) s hq hf
  refine ⟨a, tr, rx', ?_, h⟩
  simp only [dcharSeq, e, if_true, assign, State.isFaulted, hf]
  rfl

/-- Four `DCharSeq` in a row (R93, R94), whatever the receiver answers: the pattern sent to position 1 is cached. -/
theorem chars_sends {s : State} (p0 p1 p2 p3 : Byte) (hq : s.quiet = true) (hf : s.fault = none) : ∃ a tr rx',
    dcharsFrom 0 [p0, p1, p2, p3] s =
      { s with
        clkOut := true, dioDir := some .out, dioOut := true, smp := some (!a), ack := some a, midOp := true,
        colonCache := some (withColon 1 p1 s.colonValue), traceRev := tr ++ s.traceRev, rx := rx' } ∧
    tr.length ≤ 712 ∧ 712 ≤ tr.length + 12 ∧ tr.count .wait = 272 := by
  rw [dcharsFrom_four, ← run_append]
  obtain ⟨a0, t0, r0, e0, h0⟩ := dseg_sends 0 p0 s hq hf
  have q0 := run_quiet (dsegSeq 0 p0) hq
  have f0 := run_unfaulted (dsegSeq 0 p0) hq hf
  rw [e0] at q0 f0 ⊢
  obtain ⟨a1, t1, r1, e1, h1⟩ := dcharOne_sends p1 q0 f0
  rw [e1]
  obtain ⟨a2, t2, r2, e2, h2⟩ := (dseg_sends 2 p2).append (dseg_sends 3 p3) { s with
    clkOut := true, dioDir := some .out, dioOut := true, smp := some (!a1), ack := some a1, midOp := true,
    colonCache := some (withColon 1 p1 s.colonValue), traceRev := t1 ++ (t0 ++ s.traceRev), rx := r1 } hq hf
  refine ⟨a2, t2 ++ t1 ++ t0, r2, ?_, ?_, ?_, ?_⟩
  · simp only [List.append_assoc]
    exact e2
  · simp only [List.length_append]
    omega
  · simp only [List.length_append]
    omega
  · simp only [List.count_append]
    omega

/-! ### The line primitives, and the op cycle around a sequence -/

/-- An op of one micro-step in a restful state: its event, then the end of the op. -/
theorem opCycle_micro {m : Mnemonic} {mi : Micro} {f : State → State} {s : State} (h : s.restful)
    (hm : m.row.family = .line) (hw : m.row.words = 1)
    (hmi : ∀ u : State, u.isFaulted = false → microStep mi u = event f u) :
    opCycle m (run [mi]) s = .next ({ f { s with midOp := true } with midOp := false }.advance s.cur 1) := by
  obtain ⟨hf, hb, hq⟩ := h
  have h2 := run_sameButWire (s := { s with midOp := false }) [mi] hq
  have h3 := run_unfaulted (s := { s with midOp := false }) [mi] hq hf
  have h1 : run [mi] { s with midOp := false } = f { s with midOp := true } := by
    show microStep mi { s with midOp := false } = _
    rw [hmi _ (by simp [hf])]
    exact event_first f rfl hf
  rw [opCycle_run _ (entryFault_line hm hb), enter_eq_line hm]
  rw [h1] at h2 h3 ⊢
  have h4 := congrArg State.cur h2
  generalize f { s with midOp := true } = u at *
  have h5 : u.cur = s.cur := h4.trans rfl
  rw [complete_line hm h3, hw, ← h5]

/-- SETCLK (R62), in a restful state. -/
theorem exec_setclk (v : Bool) {s : State} (h : s.restful) : exec (.setclk v) s =
    .next ({ s with
      clkOut := v, traceRev := .lat .clk v :: s.traceRev, midOp := false,
        rx := s.rx.see (clkLevel s.clkDir v) s.dioDir s.dioOut s.launch.extPullup }.advance s.cur 1) :=
  opCycle_micro (m := .SETCLK) (f := setLatch .clk v) h rfl rfl (fun u hu => by simp only [microStep, hu]; rfl)

/-- SETDIO (R63), in a restful state. -/
theorem exec_setdio (v : Bool) {s : State} (h : s.restful) : exec (.setdio v) s = .next ({ s with
        dioOut := v, traceRev := .lat .dio v :: s.traceRev, midOp := false,
        rx := s.rx.see (clkLevel s.clkDir s.clkOut) s.dioDir v s.launch.extPullup }.advance s.cur 1) :=
  opCycle_micro (m := .SETDIO) (f := setLatch .dio v) h rfl rfl (fun u hu => by simp only [microStep, hu]; rfl)

/-- SETDIR of CLK (R64), in a restful state. -/
theorem exec_setdir_clk (d : Dir) {s : State} (h : s.restful) : exec (.setdir .clk d) s = .next ({ s with
        clkDir := some d, traceRev := .dir .clk d :: s.traceRev, midOp := false,
        rx := s.rx.see (clkLevel (some d) s.clkOut) s.dioDir s.dioOut s.launch.extPullup }.advance s.cur 1) :=
  opCycle_micro (m := .SETDIR) (f := setDir .clk d) h rfl rfl (fun u hu => by simp only [microStep, hu]; rfl)

/-- SETDIR of DIO (R64), in a restful state. -/
theorem exec_setdir_dio (d : Dir) {s : State} (h : s.restful) : exec (.setdir .dio d) s = .next ({ s with
        dioDir := some d, traceRev := .dir .dio d :: s.traceRev, midOp := false,
        rx := s.rx.see (clkLevel s.clkDir s.clkOut) (some d) s.dioOut s.launch.extPullup }.advance s.cur 1) :=
  opCycle_micro (m := .SETDIR) (f := setDir .dio d) h rfl rfl (fun u hu => by simp only [microStep, hu]; rfl)

/-- WAIT (R65), in a restful state. -/
theorem exec_wait {s : State} (h : s.restful) : exec .wait s = .next ({ s with
        traceRev := .wait :: s.traceRev, midOp := false,
        rx := s.rx.see s.clkBus s.dioDir s.dioOut s.launch.extPullup }.advance s.cur 1) :=
  opCycle_micro (m := .WAIT) (f := waitEvent) h rfl rfl (fun u hu => by simp only [microStep, hu]; rfl)

/-- SAMPLE (R66), in a restful state. -/
theorem exec_sample {s : State} (h : s.restful) : exec .sample s = .next ({ s with
        smp := some s.readLevel, traceRev := .smp s.readLevel :: s.traceRev, midOp := false,
        smpTape := s.useDraw.smpTape, smpDraws := s.useDraw.smpDraws,
        rx := s.rx.see s.clkBus s.dioDir s.dioOut s.launch.extPullup }.advance s.cur 1) := by
  have e : exec .sample s = _ :=
    opCycle_micro (m := .SAMPLE) (f := sampleEvent) h rfl rfl (fun u hu => by simp only [microStep, hu]; rfl)
  rw [e]
  unfold sampleEvent State.useDraw
  rw [show ({ s with midOp := true } : State).dioBus = s.dioBus from rfl]
  cases s.dioBus <;> rfl

/-- An op of the transport or driver family whose checks pass and whose sequence ends in t, before a fault. -/
theorem opCycle_seq {m : Mnemonic} {body : State → State} {s t : State} (h : entryFault m s = none)
    (hm : m.row.family = .transport ∨ m.row.family = .driver) (hb : body { s with busy := true, midOp := false } = t)
    (hf : t.fault = none) (hc : t.cur = s.cur) :
    opCycle m body s = .next ({ t with busy := false, midOp := false }.advance s.cur m.row.words) := by
  rw [opCycle_run _ h, enter_eq_busy hm, hb, complete_busy hm hf, ← hc]

end Sys2Proof.Machine
end

