-- ==== Sys2Proof/Laws/Driver.lean ====
section
/-! SUPPORT. What the driver's sequences do with a receiver that acknowledges every byte (R71, R86 to R88, R112, R113):
one transaction, the two-transaction write of a position, and chains of them. -/

namespace Sys2Proof.Machine

/-- A state in which a transaction reaches a working receiver: quiet, no fault, both lines outputs, a line nobody pulls,
and a receiver that acknowledges every byte. -/
structure Fits (s : State) : Prop where
  quiet : s.quiet = true
  fault : s.fault = none
  clk : s.clkDir = some .out
  dio : s.dioDir = some .out
  wire : s.WireInv
  drv : s.rx.drv = false
  acks : s.rx.ackPlan = .always

/-- The receiver at the beginning of a frame (R111). -/
def Rx.opened (rx : Rx) : Rx := { rx with sync := true, frame := true, nbyte := 0, cmd := .none }

/-- The events of a one-byte transaction that is acknowledged, newest first. -/
def cmdTrace (v : Byte) : List Event := stopTrace ++ byteTrace v true ++ startTrace

theorem ackDraw_always {rx : Rx} (h : rx.ackPlan = .always) : rx.ackDraw = true := by
  simp [Rx.ackDraw, h, AckPlan.answer]

theorem Rx.Like.held {r r' : Rx} (h : r.Like r') : r.held = r'.held := h.2.2.2.2

theorem byte_frame_sync {rx : Rx} (h : rx.frame = true → rx.sync = true) (b : Byte) (a : Bool) :
    (rx.byte b a).frame = true → (rx.byte b a).sync = true := by
  unfold Rx.byte Rx.commandByte Rx.dataByte
  repeat' split
  all_goals first | exact h | simp [Rx.desync]

/-- START from a state that fits: a frame is open, and what the receiver holds stays. -/
theorem fits_start {s : State} (h : Fits s) :
    ∃ rx', run startSeq s =
        { s with
          clkOut := true, dioOut := false, midOp := true, traceRev := startTrace ++ s.traceRev, rx := rx' } ∧
      rx'.InData 0 true false ∧ rx'.Like s.rx.opened ∧ rx'.ackPlan = .always ∧ rx'.receivedRev = s.rx.receivedRev ∧
      ((s.clkOut = true → s.dioOut = true) → rx'.eventsRev = .start :: s.rx.eventsRev) := by
  obtain ⟨hq, hf, hc, hd, hw, hdr, ha⟩ := h
  obtain ⟨rx', e, i, n, c, p, hh⟩ := run_start hq hf hc hd hw
  obtain ⟨s1, s2⟩ := run_start_seen hq hf hc hd hw
  rw [e] at s1 s2
  exact ⟨rx', e, i, ⟨i.sync, i.frame, n, c, hh hdr⟩, p.trans ha, s1, s2 hdr⟩

/-- One acknowledged byte in a frame. -/
theorem acked_byte {s : State} (v : Byte) (hq : s.quiet = true) (hf : s.fault = none) (hc : s.clkDir = some .out)
    (hd : s.dioDir = some .out) (h : s.rx.InData 0 s.clkOut s.dioOut) (ha : s.rx.ackPlan = .always) :
    ∃ rx', run (writeByteSeq v) s =
        { s with
          clkOut := false, dioOut := false, smp := some false, ack := some true,
          midOp := true, traceRev := byteTrace v true ++ s.traceRev, rx := rx' } ∧
      rx'.Like (s.rx.byte v true) ∧ rx'.phase = .data ∧ rx'.bits = 0 ∧ rx'.drv = false ∧
      rx'.pclk = .bit false ∧ rx'.pdio = .bit false ∧ rx'.ackPlan = .always ∧
      rx'.receivedRev = (v, true) :: s.rx.receivedRev ∧
      (rx'.sync = true → rx'.eventsRev = .byte v true :: s.rx.eventsRev) := by
  obtain ⟨rx', e, l, h1, h2, h3, h4, h5, h6, h7, h8⟩ := run_writeByte v hq hf hc hd h
  rw [ackDraw_always ha] at e l h5 h7 h8
  exact ⟨rx', e, l, h1, h2, h3, h4, h5, by rw [h6, ha]; rfl, h7, h8⟩

/-- Between two bytes of a frame whose last byte was acknowledged and understood. -/
theorem inData_of_like {r r' : Rx} (l : r.Like r') (h1 : r.phase = .data) (h2 : r.bits = 0) (h3 : r.drv = false)
    (h4 : r.pclk = .bit false) (h5 : r.pdio = .bit false) (hs : r'.sync = true) (hfr : r'.frame = true) :
    r.InData 0 false false := ⟨l.1.trans hs, l.2.1.trans hfr, h1, h2, h3, h4, h5⟩

/-- STOP after a byte. -/
theorem stop_after {s : State} (hq : s.quiet = true) (hf : s.fault = none) (hc : s.clkDir = some .out)
    (hd : s.dioDir = some .out) (hco : s.clkOut = false) (hdo : s.dioOut = false)
    (hs : s.rx.frame = true → s.rx.sync = true) (h1 : s.rx.phase = .data) (h2 : s.rx.bits = 0) (h3 : s.rx.drv = false)
    (h4 : s.rx.pclk = .bit false) (h5 : s.rx.pdio = .bit false) (ha : s.rx.ackPlan = .always) :
    ∃ rx', run stopSeq s =
        { s with clkOut := true, dioOut := true, midOp := true, traceRev := stopTrace ++ s.traceRev, rx := rx' } ∧
      rx'.sync = s.rx.sync ∧ rx'.frame = false ∧ rx'.phase = .data ∧ rx'.bits = 0 ∧ rx'.drv = false ∧
      rx'.ackPlan = .always ∧ rx'.held = s.rx.held ∧
      rx'.eventsRev = (if s.rx.sync then [.stop] else []) ++ s.rx.eventsRev := by
  obtain ⟨rx', e, i1, i2, i3, i4, i5, -, -, i6, i7, i8⟩ := run_stop hq hf hc hd hs h1 (by omega) (fun _ => h2) h3
    (by rw [h4, hco]) (by rw [h5, hdo])
  exact ⟨rx', e, i1, i2, i3, i4, i5, i6.trans ha, i7, i8⟩

theorem receivedRev_stop {r r' : Rx} {b : Bool} (h : r'.eventsRev = (if b then [.stop] else []) ++ r.eventsRev) :
    r'.receivedRev = r.receivedRev := by
  unfold Rx.receivedRev
  rw [h]
  cases b <;> rfl

theorem fits_wire {s t : State} (ms : List Micro) (h : Fits s) (e : run ms s = t) : t.WireInv := e ▸ run_wireInv ms h.wire

/-- `SendCmdSeq` (R71) with a working receiver: what the receiver holds afterwards is what the byte, as the command byte
of a frame, leaves (R113). -/
theorem fits_sendCmd {s : State} (v : Byte) (h : Fits s) :
    ∃ rx', run (sendCmdSeq v) s =
        { s with
          clkOut := true, dioOut := true, smp := some false, ack := some true, midOp := true,
          traceRev := cmdTrace v ++ s.traceRev, rx := rx' } ∧
      Fits (run (sendCmdSeq v) s) ∧ rx'.frame = false ∧ rx'.phase = .data ∧ rx'.bits = 0 ∧
      rx'.sync = (s.rx.opened.byte v true).sync ∧ rx'.held = (s.rx.opened.byte v true).held ∧
      rx'.receivedRev = (v, true) :: s.rx.receivedRev ∧
      ((s.clkOut = true → s.dioOut = true) → rx'.sync = true →
        rx'.eventsRev = [.stop, .byte v true, .start] ++ s.rx.eventsRev) := by
  obtain ⟨r1, e1, i1, l1, p1, v1, w1⟩ := fits_start h
  have hrun : run (sendCmdSeq v) s = run stopSeq (run (writeByteSeq v) (run startSeq s)) := by
    rw [sendCmdSeq, run_append, run_append]
  obtain ⟨r2, e2, l2, a1, a2, a3, a4, a5, a6, a7, a8⟩ := acked_byte v (s := { s with
    clkOut := true, dioOut := false, midOp := true, traceRev := startTrace ++ s.traceRev, rx := r1 })
    h.quiet h.fault h.clk h.dio i1 p1
  have l3 := l2.trans (l1.byte v true)
  have hfs : r2.frame = true → r2.sync = true := by
    rw [l3.1, l3.2.1]
    exact byte_frame_sync (fun _ => rfl) v true
  obtain ⟨r3, e3, b1, b2, b3, b4, b5, b6, b7, b8⟩ := stop_after (s := { s with
      clkOut := false, dioOut := false, smp := some false, ack := some true, midOp := true,
      traceRev := byteTrace v true ++ (startTrace ++ s.traceRev), rx := r2 })
    h.quiet h.fault h.clk h.dio rfl rfl hfs a1 a2 a3 a4 a5 a6
  have hfin : run (sendCmdSeq v) s = { s with
          clkOut := true, dioOut := true, smp := some false, ack := some true, midOp := true,
          traceRev := cmdTrace v ++ s.traceRev, rx := r3 } := by
    rw [hrun, e1, e2, e3]
    simp only [cmdTrace, List.append_assoc]
  refine ⟨r3, hfin, ?_, b2, b3, b4, b1.trans l3.1, b7.trans l3.held, ?_, ?_⟩
  · have hw := fits_wire _ h hfin
    rw [hfin]
    exact ⟨h.quiet, h.fault, h.clk, h.dio, hw, b5, b6⟩
  · rw [receivedRev_stop b8, a7, v1]
  · intro hcd hs
    have hs2 : r2.sync = true := b1.symm.trans hs
    rw [b8, a8 hs2, w1 hcd]
    simp only [hs2, if_true]
    rfl

/-- The effect of the data command (R57, R113). -/
theorem opened_autoinc (rx : Rx) :
    (rx.opened.byte dataAutoinc true).sync = true ∧
    (rx.opened.byte dataAutoinc true).held = (some .autoinc, rx.ptr, rx.disp, rx.dctrlEn, rx.dctrlBri) := ⟨rfl, rfl⟩

/-- The events of a two-transaction write that is acknowledged, newest first. -/
def dsegTrace (p pat : Byte) : List Event :=
  stopTrace ++ byteTrace pat true ++ byteTrace (addrByte p) true ++ startTrace ++ cmdTrace dataAutoinc

theorem maskPos_lt (pos : Byte) : (maskPos pos).toNat < 4 := by
  have : (maskPos pos).toNat ≤ 3 := Nat.and_le_right
  omega

/-- The address command of a position (R58) selects it (R113). -/
theorem opened_addr {rx : Rx} (p : Byte) (hp : p.toNat < 4) (hm : rx.mode = some .autoinc) :
    rx.opened.byte (addrByte p) true =
      { rx.opened with ptr := some p.toNat, cmd := .addr, nbyte := 1 } := by
  have : ∀ q : Fin 4, addrByte (BitVec.ofNat 8 q) ≠ 0x40 ∧ addrByte (BitVec.ofNat 8 q) ≠ 0x44 ∧
      addrByte (BitVec.ofNat 8 q) &&& 0xF8 = 0xC0 ∧ (addrByte (BitVec.ofNat 8 q) &&& 0x07).toNat = q := by decide
  obtain ⟨h1, h2, h3, h4⟩ := this ⟨p.toNat, hp⟩
  have hpe : BitVec.ofNat 8 p.toNat = p := by simp
  simp only [hpe] at h1 h2 h3 h4
  simp only [Rx.byte, Rx.opened, Rx.commandByte, h1, h2, h3, hm, if_true, if_false, Nat.zero_add]
  simp only [h4]

/-- `DSegSeq` (R86) with a working receiver: the position holds the pattern, and the pointer stands after it. -/
theorem fits_dseg {s : State} (pos pat : Byte) (h : Fits s) :
    ∃ rx', run (dsegSeq pos pat) s =
        { s with
          clkOut := true, dioOut := true, smp := some false, ack := some true, midOp := true,
          traceRev := dsegTrace (maskPos pos) pat ++ s.traceRev, rx := rx' } ∧
      Fits (run (dsegSeq pos pat) s) ∧ rx'.between ∧
      rx'.held = (some .autoinc, some ((maskPos pos).toNat + 1),
        s.rx.disp.set (maskPos pos).toNat (some pat) (maskPos_lt pos), s.rx.dctrlEn, s.rx.dctrlBri) ∧
      rx'.receivedRev = [(pat, true), (addrByte (maskPos pos), true), (dataAutoinc, true)] ++ s.rx.receivedRev ∧
      ((s.clkOut = true → s.dioOut = true) →
        rx'.eventsRev = [.stop, .byte pat true, .byte (addrByte (maskPos pos)) true, .start, .stop,
          .byte dataAutoinc true, .start] ++ s.rx.eventsRev) := by
  obtain ⟨r1, e1, h1, -, -, -, y1, m1, v1, w1⟩ := fits_sendCmd dataAutoinc h
  obtain ⟨o1, o2⟩ := opened_autoinc s.rx
  rw [o2] at m1
  rw [e1] at h1
  obtain ⟨r2, e2, i2, l2, p2, v2, w2⟩ := fits_start h1
  obtain ⟨r3, e3, l3, a1, a2, a3, a4, a5, a6, a7, a8⟩ := acked_byte (addrByte (maskPos pos)) (s := { s with
    clkOut := true, dioOut := false, smp := some false, ack := some true, midOp := true,
    traceRev := startTrace ++ (cmdTrace dataAutoinc ++ s.traceRev), rx := r2 })
    h.quiet h.fault h.clk h.dio i2 p2
  simp only [Rx.held, Prod.mk.injEq] at m1
  obtain ⟨m11, m12, m13, m14, m15⟩ := m1
  have l3' := l3.trans (l2.byte (addrByte (maskPos pos)) true)
  rw [opened_addr (maskPos pos) (maskPos_lt pos) m11] at l3'
  obtain ⟨r4, e4, l4, c1, c2, c3, c4, c5, c6, c7, c8⟩ := acked_byte pat (s := { s with
    clkOut := false, dioOut := false, smp := some false, ack := some true, midOp := true,
    traceRev := byteTrace (addrByte (maskPos pos)) true ++ (startTrace ++ (cmdTrace dataAutoinc ++ s.traceRev)), rx := r3 })
    h.quiet h.fault h.clk h.dio (inData_of_like l3' a1 a2 a3 a4 a5 rfl rfl) a6
  have l4' := l4.trans (l3'.byte pat true)
  have hdb : Rx.byte { r1.opened with ptr := some (maskPos pos).toNat, cmd := .addr, nbyte := 1 } pat true =
      { r1.opened with
        ptr := some ((maskPos pos).toNat + 1), cmd := .addr, nbyte := 2,
        disp := r1.disp.set (maskPos pos).toNat (some pat) (maskPos_lt pos) } := by
    simp [Rx.byte, Rx.dataByte, maskPos_lt, Rx.nextPtr, Rx.opened, m11]
  rw [hdb] at l4'
  obtain ⟨r5, e5, b1, b2, b3, b4, b5, b6, b7, b8⟩ := stop_after (s := { s with
      clkOut := false, dioOut := false, smp := some false, ack := some true, midOp := true,
      traceRev := byteTrace pat true ++ (byteTrace (addrByte (maskPos pos)) true ++
        (startTrace ++ (cmdTrace dataAutoinc ++ s.traceRev))), rx := r4 })
    h.quiet h.fault h.clk h.dio rfl rfl (fun _ => l4'.1) c1 c2 c3 c4 c5 c6
  have hfin : run (dsegSeq pos pat) s = { s with
          clkOut := true, dioOut := true, smp := some false, ack := some true, midOp := true,
          traceRev := dsegTrace (maskPos pos) pat ++ s.traceRev, rx := r5 } := by
    unfold dsegSeq
    rw [run_append, run_append, run_append, run_append, e1, e2, e3, e4, e5]
    simp only [dsegTrace, List.append_assoc]
  refine ⟨r5, hfin, ?_, ⟨b1.trans l4'.1, b2, b3, b4, b5⟩, ?_, ?_, ?_⟩
  · have hw := fits_wire _ h hfin
    rw [hfin]
    exact ⟨h.quiet, h.fault, h.clk, h.dio, hw, b5, b6⟩
  · rw [b7, l4'.held]
    simp [Rx.held, Rx.opened, m11, m13, m14, m15]
  · rw [receivedRev_stop b8, c7, a7, v2, v1]
    rfl
  · intro hcd
    rw [b8, c8 l4'.1, a8 l3'.1, w2 (fun _ => rfl), w1 hcd (y1.trans o1)]
    simp only [show r4.sync = true from l4'.1, if_true]
    rfl

/-! ### Characters -/

theorem Fits.colon {s : State} (h : Fits s) (c : Option Byte) : Fits { s with colonCache := c } := by
  obtain ⟨hq, hf, hc, hd, hw, hdr, ha⟩ := h
  exact ⟨hq, hf, hc, hd, wireInv_of_eq hw rfl rfl rfl rfl, hdr, ha⟩

/-- `COLON_CACHE` after a character write (R87). -/
def colonAfter (pos sent : Byte) (c : Option Byte) : Option Byte := if pos = 1 then some sent else c

/-- `DCharSeq` (R87) after its table read, with a working receiver. -/
theorem fits_dchar {s : State} (pos pat : Byte) (h : Fits s) :
    ∃ rx', dcharSeq pos pat s =
        { s with
          clkOut := true, dioOut := true, smp := some false, ack := some true, midOp := true,
          colonCache := colonAfter pos (withColon pos pat s.colonValue) s.colonCache,
          traceRev := dsegTrace (maskPos pos) (withColon pos pat s.colonValue) ++ s.traceRev, rx := rx' } ∧
      Fits (dcharSeq pos pat s) ∧ rx'.between ∧
      rx'.held = (some .autoinc, some ((maskPos pos).toNat + 1),
        s.rx.disp.set (maskPos pos).toNat (some (withColon pos pat s.colonValue)) (maskPos_lt pos),
        s.rx.dctrlEn, s.rx.dctrlBri) ∧
      rx'.receivedRev = [(withColon pos pat s.colonValue, true), (addrByte (maskPos pos), true), (dataAutoinc, true)] ++
        s.rx.receivedRev := by
  obtain ⟨rx', e, hfit, hb, hh, hr, -⟩ := fits_dseg pos (withColon pos pat s.colonValue) h
  by_cases hp : pos = 1
  · refine ⟨rx', ?_, ?_, hb, hh, hr⟩
    · simp only [dcharSeq, hp, if_true, colonAfter]
      rw [hp] at e
      rw [e, assign_clear _ (by exact h.fault)]
    · simp only [dcharSeq, hp, if_true]
      rw [hp] at hfit
      rw [assign_clear _ hfit.fault]
      exact hfit.colon _
  · refine ⟨rx', ?_, ?_, hb, hh, hr⟩
    · simp only [dcharSeq, hp, if_false, colonAfter]
      exact e
    · simp only [dcharSeq, hp, if_false]
      exact hfit

/-- Four writes fill a vector of four. -/
theorem set_four {α : Type} (v : Vector α 4) (a b c d : α) :
    (((v.set 0 a).set 1 b).set 2 c).set 3 d = #v[a, b, c, d] := by
  obtain ⟨⟨l⟩, hl⟩ := v
  match l, hl with
  | [x0, x1, x2, x3], _ => rfl

/-- Four `DCharSeq` in a row (R93, R94) with a working receiver: each position has its pattern, position 1 with the
cached colon bit. -/
theorem fits_chars {s : State} (p0 p1 p2 p3 : Byte) (h : Fits s) :
    ∃ rx', dcharsFrom 0 [p0, p1, p2, p3] s =
        { s with
          clkOut := true, dioOut := true, smp := some false, ack := some true, midOp := true,
          colonCache := some (withColon 1 p1 s.colonValue),
          traceRev := dsegTrace 3 p3 ++ dsegTrace 2 p2 ++ dsegTrace 1 (withColon 1 p1 s.colonValue) ++ dsegTrace 0 p0 ++
            s.traceRev,
          rx := rx' } ∧
      Fits (dcharsFrom 0 [p0, p1, p2, p3] s) ∧ rx'.between ∧
      rx'.held = (some .autoinc, some 4,
        #v[some p0, some (withColon 1 p1 s.colonValue), some p2, some p3], s.rx.dctrlEn, s.rx.dctrlBri) := by
  rw [dcharsFrom_four]
  obtain ⟨r0, e0, f0, b0, h0, -⟩ := fits_dseg 0 p0 h
  rw [e0] at f0 ⊢
  obtain ⟨r1, e1, f1, b1, h1, -⟩ := fits_dchar 1 p1 f0
  rw [e1] at f1 ⊢
  obtain ⟨r2, e2, f2, b2, h2, -⟩ := fits_dseg 2 p2 f1
  rw [e2] at f2 ⊢
  obtain ⟨r3, e3, f3, b3, h3, -⟩ := fits_dseg 3 p3 f2
  rw [e3] at f3 ⊢
  simp only [Rx.held, Prod.mk.injEq] at h0 h1 h2 h3
  refine ⟨r3, ?_, f3, b3, ?_⟩
  · simp only [List.append_assoc]
    rfl
  · obtain ⟨h01, h02, h03, h04, h05⟩ := h0
    obtain ⟨h11, h12, h13, h14, h15⟩ := h1
    obtain ⟨h21, h22, h23, h24, h25⟩ := h2
    obtain ⟨h31, h32, h33, h34, h35⟩ := h3
    simp only [Rx.held, h31, h32, h33, h34, h35, h23, h24, h25, h13, h14, h15, h03, h04, h05]
    simp only [Prod.mk.injEq, true_and, and_true]
    refine ⟨rfl, set_four _ _ _ _ _⟩

/-- CLEAR's four writes (R95) with a working receiver. -/
theorem fits_clear {s : State} (h : Fits s) :
    ∃ rx', run (dsegSeq 0 0x00 ++ dsegSeq 1 0x00 ++ dsegSeq 2 0x00 ++ dsegSeq 3 0x00) s =
        { s with
          clkOut := true, dioOut := true, smp := some false, ack := some true, midOp := true,
          traceRev := dsegTrace 3 0x00 ++ dsegTrace 2 0x00 ++ dsegTrace 1 0x00 ++ dsegTrace 0 0x00 ++ s.traceRev,
          rx := rx' } ∧
      rx'.between ∧
      rx'.held = (some .autoinc, some 4, #v[some 0x00, some 0x00, some 0x00, some 0x00], s.rx.dctrlEn, s.rx.dctrlBri) := by
  rw [run_append, run_append, run_append]
  obtain ⟨r0, e0, f0, b0, h0, -⟩ := fits_dseg 0 0x00 h
  rw [e0] at f0 ⊢
  obtain ⟨r1, e1, f1, b1, h1, -⟩ := fits_dseg 1 0x00 f0
  rw [e1] at f1 ⊢
  obtain ⟨r2, e2, f2, b2, h2, -⟩ := fits_dseg 2 0x00 f1
  rw [e2] at f2 ⊢
  obtain ⟨r3, e3, f3, b3, h3, -⟩ := fits_dseg 3 0x00 f2
  rw [e3] at f3 ⊢
  simp only [Rx.held, Prod.mk.injEq] at h0 h1 h2 h3
  refine ⟨r3, ?_, b3, ?_⟩
  · simp only [List.append_assoc]
    rfl
  · obtain ⟨h01, h02, h03, h04, h05⟩ := h0
    obtain ⟨h11, h12, h13, h14, h15⟩ := h1
    obtain ⟨h21, h22, h23, h24, h25⟩ := h2
    obtain ⟨h31, h32, h33, h34, h35⟩ := h3
    simp only [Rx.held, h31, h32, h33, h34, h35, h23, h24, h25, h13, h14, h15, h03, h04, h05]
    simp only [Prod.mk.injEq, true_and, and_true]
    exact ⟨rfl, set_four _ _ _ _ _⟩

/-! ### The configuration -/

/-- The effect of the display-control command (R59, R113). -/
theorem opened_ctrl (rx : Rx) (e : Bool) (b : BitVec 3) :
    rx.opened.byte (ctrlByte e b) true =
      { rx.opened with dctrlEn := some e, dctrlBri := some b, cmd := .ctrl, nbyte := 1 } := by
  have key : ∀ (e : Bool) (b : BitVec 3), ctrlByte e b ≠ 0x40 ∧ ctrlByte e b ≠ 0x44 ∧
      ctrlByte e b &&& 0xF8 ≠ 0xC0 ∧ ctrlByte e b &&& 0xF0 = 0x80 ∧ (ctrlByte e b).getLsbD 3 = e ∧
      (ctrlByte e b).extractLsb' 0 3 = b := by decide
  obtain ⟨h1, h2, h3, h4, h5, h6⟩ := key e b
  simp only [Rx.byte, Rx.opened, Rx.commandByte, h1, h2, h3, h4, h5, h6, if_true, if_false, Nat.zero_add]

/-- `CtrlSeq` (R88) with a working receiver. -/
theorem fits_ctrl {s : State} (h : Fits s) :
    ∃ rx', ctrlSeq s =
        { s with
          clkOut := true, dioOut := true, smp := some false, ack := some true, midOp := true,
          traceRev := cmdTrace (ctrlByte s.cfgEnValue s.cfgBriValue) ++ s.traceRev, rx := rx' } ∧
      rx'.between ∧
      rx'.held = (s.rx.mode, s.rx.ptr, s.rx.disp, some s.cfgEnValue, some s.cfgBriValue) ∧
      rx'.receivedRev = (ctrlByte s.cfgEnValue s.cfgBriValue, true) :: s.rx.receivedRev := by
  obtain ⟨rx', e, f, b1, b2, b3, b4, b5, b6, -⟩ := fits_sendCmd (ctrlByte s.cfgEnValue s.cfgBriValue) h
  rw [opened_ctrl] at b4 b5
  rw [e] at f
  exact ⟨rx', e, ⟨b4, b1, b2, b3, f.drv⟩, b5, b6⟩

/-- The events of INIT's first four steps, newest first. -/
def initTrace : List Event := [.lat .dio false, .lat .clk false, .dir .dio .out, .dir .clk .out]

/-- INIT's first four steps (R89) on the lines. -/
theorem run_initLines {s : State} (hq : s.quiet = true) (hf : s.fault = none) :
    ∃ rx', run initLines s =
      { s with
        clkDir := some .out, dioDir := some .out, clkOut := false, dioOut := false, midOp := true,
        traceRev := initTrace ++ s.traceRev, rx := rx' } := by
  simp only [State.quiet] at hq
  exact ⟨_, by
    simp [initLines, run, microStep, event_quiet, State.quiet, hq, hf, setLatch, setDir, rxStep_eq, State.record,
      initTrace]
    rfl⟩

/-! ### The same sequence in two states -/

theorem advance_quiet (s : State) (g n : Nat) : (s.advance g n).quiet = s.quiet := by
  cases g with
  | zero => rfl
  | succ k =>
    show noPreemption _ (List.modify _ _ _) _ _ = noPreemption _ _ _ _
    unfold noPreemption
    cases h : s.irqs with
    | nil => cases k <;> rfl
    | cons a as => cases k <;> rfl

/-- `s` with other agents and other contents of `BUSY`, `INITED` and `COLON_CACHE`. -/
def State.elsewhere (s : State) (b : Bool) (a : Agent) (l : List Agent) (i : Bool) (c : Option Byte) : State :=
  { s with busy := b, fg := a, irqs := l, inited := i, colonCache := c }

/-- A sequence does the same in two quiet states that differ only in the agents, in `BUSY`, in `INITED` and in
`COLON_CACHE`. -/
theorem run_elsewhere (ms : List Micro) (b : Bool) (a : Agent) (l : List Agent) (i : Bool) (c : Option Byte)
    (s : State) (hq : s.quiet = true) (hq' : (s.elsewhere b a l i c).quiet = true) :
    run ms (s.elsewhere b a l i c) = (run ms s).elsewhere b a l i c := by
  induction ms generalizing s with
  | nil => rfl
  | cons m ms ih =>
    have hm : microStep m (s.elsewhere b a l i c) = (microStep m s).elsewhere b a l i c := by
      have hf1 : (s.elsewhere b a l i c).isFaulted = s.isFaulted := rfl
      have hev : ∀ f : State → State, (∀ t : State, f (t.elsewhere b a l i c) = (f t).elsewhere b a l i c) →
          event f (s.elsewhere b a l i c) = (event f s).elsewhere b a l i c := by
        intro f hf
        unfold event
        simp only [gap_quiet hq, gap_quiet hq', ite_self, hf1]
        by_cases h : s.isFaulted = true
        · rw [if_pos h, if_pos h]
        · rw [if_neg h, if_neg h]
          exact hf { s with midOp := true }
      unfold microStep
      rw [hf1]
      by_cases h : s.isFaulted = true
      · rw [if_pos h, if_pos h]
      · rw [if_neg h, if_neg h]
        cases m with
        | lat l v => exact hev _ (by intro t; cases l <;> rfl)
        | dir l d => exact hev _ (by intro t; cases l <;> rfl)
        | wait => exact hev _ (by intro t; rfl)
        | sample =>
          refine hev _ (fun t => ?_)
          have h1 : (t.elsewhere b a l i c).dioBus = t.dioBus := rfl
          unfold sampleEvent State.readLevel State.useDraw
          rw [h1]
          cases t.dioBus <;> rfl
        | holdLow =>
          show holdLow (s.elsewhere b a l i c) = (holdLow s).elsewhere b a l i c
          unfold holdLow
          have h1 : (s.elsewhere b a l i c).smp = s.smp := rfl
          rw [h1]
          by_cases h : s.smp = some false
          · rw [if_pos h, if_pos h]
            exact hev _ (by intro t; rfl)
          · rw [if_neg h, if_neg h]
        | setAck => rfl
    have h1 := run_sameButWire [m] hq
    simp only [run_cons, run_nil] at h1
    rw [run_cons, run_cons, hm]
    apply ih
    · exact run_quiet [m] hq
    · rw [h1]
      exact hq'

end Sys2Proof.Machine
end

