-- ==== Sys2Proof/Laws/Chain.lean ====
section
/-! SUPPORT. Whole ops of the transport and driver families, and ops of one agent run one after another (R56, R61, R86):
what an op's sequence leaves, with `BUSY` and `OPIDX` put where the op cycle puts them, and that the sequences of
consecutive ops join into one. -/

namespace Sys2Proof.Machine

/-- `s` as an op of the transport or driver family begins (R61). -/
def State.entered (s : State) : State := { s with busy := true, midOp := false }

/-- `t` as such ops of agent g, n words long together, end (R61). -/
def State.ended (t : State) (g n : Nat) : State := { t with busy := false, midOp := false }.advance g n

theorem entered_wireInv {s : State} (h : s.WireInv) : s.entered.WireInv := wireInv_of_eq h rfl rfl rfl rfl

@[simp] theorem ended_rx (u : State) (g n : Nat) : (u.ended g n).rx = u.rx := by cases g <;> rfl

@[simp] theorem ended_traceRev (u : State) (g n : Nat) : (u.ended g n).traceRev = u.traceRev := by cases g <;> rfl

@[simp] theorem ended_fault (u : State) (g n : Nat) : (u.ended g n).fault = u.fault := by cases g <;> rfl

theorem advance_advance (s : State) (g n k : Nat) : (s.advance g n).advance g k = s.advance g (n + k) := by
  cases g with
  | zero => simp only [State.advance, Agent.advance, Nat.add_assoc]
  | succ j =>
    simp only [State.advance]
    congr 1
    apply List.ext_getElem?
    intro i
    simp only [List.getElem?_modify]
    cases s.irqs[i]? <;> simp [Agent.advance]
    split <;> simp [Nat.add_assoc]

theorem ended_advance (x : State) (g n k : Nat) : (x.ended g n).advance g k = x.ended g (n + k) :=
  advance_advance _ _ _ _

/-! ### The lines, with the answer named -/

/-- `WriteByteSeq` on the lines (R70), whatever the receiver answers. -/
theorem writeByte_lines {s : State} (v : Byte) (hq : s.quiet = true) (hf : s.fault = none)
    (hd : s.dioDir = some .out) :
    ∃ a rx', run (writeByteSeq v) s =
      { s with
        clkOut := false, dioOut := !a, smp := some (!a), ack := some a, midOp := true,
        traceRev := byteTrace v a ++ s.traceRev, rx := rx' } := by
  obtain ⟨r, e⟩ := dataBits_drives v s hq hf
  unfold writeByteSeq
  rw [run_append, e]
  obtain ⟨a, rx', e'⟩ := run_ack_lines (s := { s with
    clkOut := true, dioOut := v.getLsbD 7, midOp := true, traceRev := dataTrace v ++ s.traceRev, rx := r }) hq hf
  refine ⟨a, rx', ?_⟩
  rw [e']
  simp only [byteTrace, List.append_assoc, ← hd]

/-- `SendCmdSeq` on the lines (R71), whatever the receiver answers. -/
theorem sendCmd_lines {s : State} (v : Byte) (hq : s.quiet = true) (hf : s.fault = none)
    (hd : s.dioDir = some .out) :
    ∃ a rx', run (sendCmdSeq v) s =
      { s with
        clkOut := true, dioOut := true, smp := some (!a), ack := some a, midOp := true,
        traceRev := stopTrace ++ (byteTrace v a ++ (startTrace ++ s.traceRev)), rx := rx' } := by
  obtain ⟨r, e⟩ := start_drives s hq hf
  unfold sendCmdSeq
  rw [run_append, run_append, e]
  obtain ⟨a, r2, e2⟩ := writeByte_lines (s := { s with
    clkOut := true, dioOut := false, midOp := true, traceRev := startTrace ++ s.traceRev, rx := r }) v hq hf hd
  rw [e2]
  obtain ⟨r3, e3⟩ := stop_drives { s with
    clkOut := false, dioOut := !a, smp := some (!a), ack := some a, midOp := true,
    traceRev := byteTrace v a ++ (startTrace ++ s.traceRev), rx := r2 } hq hf
  exact ⟨a, r3, e3⟩

/-- The events of a byte, oldest first. -/
theorem byteTrace_eq (v : Byte) (a : Bool) : (dataEvents v ++ ackEvents a).reverse = byteTrace v a := by
  have h1 : (ackEvents a).reverse = ackTrace a := by cases a <;> rfl
  have h2 : (dataEvents v).reverse = dataTrace v := by
    simp [dataEvents, dataTrace, bitTrace, List.range, List.range.loop]
  rw [List.reverse_append, h1, h2]
  rfl

/-! ### How long they are (R131) -/

theorem byteTrace_length (v : Byte) (a : Bool) : (byteTrace v a).length = if a then 52 else 51 := by
  cases a <;> simp [byteTrace, ackTrace, dataTrace, bitTrace]

theorem byteTrace_waits (v : Byte) (a : Bool) : (byteTrace v a).count .wait = 20 := by
  cases a <;> simp [byteTrace, ackTrace, dataTrace, bitTrace]

theorem cmdTrace_length (v : Byte) : (cmdTrace v).length = 63 := by
  simp [cmdTrace, stopTrace, startTrace, byteTrace_length]

theorem cmdTrace_waits (v : Byte) : (cmdTrace v).count .wait = 24 := by
  simp [cmdTrace, stopTrace, startTrace, byteTrace_waits]

theorem dsegTrace_length (p pat : Byte) : (dsegTrace p pat).length = 178 := by
  simp [dsegTrace, stopTrace, startTrace, byteTrace_length, cmdTrace_length]

theorem dsegTrace_waits (p pat : Byte) : (dsegTrace p pat).count .wait = 68 := by
  simp [dsegTrace, stopTrace, startTrace, byteTrace_waits, cmdTrace_waits]

/-! ### One op -/

/-- A transport op whose checks pass. -/
theorem opCycle_transport {m : Mnemonic} {ms : List Micro} {s : State} (h : s.transportReady)
    (hm : m.row.family = .transport) :
    opCycle m (run ms) s = .next ((run ms s.entered).ended s.cur m.row.words) := by
  obtain ⟨⟨hf, hb, hq⟩, hc, hd⟩ := h
  have h2 := run_sameButWire (s := s.entered) ms hq
  have h3 := run_unfaulted (s := s.entered) ms hq hf
  exact opCycle_seq (entryFault_transport hm hb hc hd) (.inl hm) rfl h3 ((congrArg State.cur h2).trans rfl)

/-- A driver op but INIT whose checks pass and whose body is one sequence. -/
theorem opCycle_driver {m : Mnemonic} {ms : List Micro} {s : State} (h : s.driverReady) (hm : m.row.family = .driver)
    (hi : m ≠ .INIT) : opCycle m (run ms) s = .next ((run ms s.entered).ended s.cur m.row.words) := by
  obtain ⟨⟨⟨hf, hb, hq⟩, hc, hd⟩, hn⟩ := h
  have h2 := run_sameButWire (s := s.entered) ms hq
  have h3 := run_unfaulted (s := s.entered) ms hq hf
  exact opCycle_seq (entryFault_driver hm hi hb hn hc hd) (.inr hm) rfl h3 ((congrArg State.cur h2).trans rfl)

/-- A driver op but INIT whose checks pass and whose body ends in t. -/
theorem opCycle_body {m : Mnemonic} {s t : State} (body : State → State) (h : s.driverReady)
    (hm : m.row.family = .driver) (hi : m ≠ .INIT) (hb : body s.entered = t) (hf : t.fault = none)
    (hc : t.cur = s.cur) : opCycle m body s = .next (t.ended s.cur m.row.words) := by
  obtain ⟨⟨⟨-, hb', -⟩, h1, h2⟩, hn⟩ := h
  exact opCycle_seq (entryFault_driver hm hi hb' hn h1 h2) (.inr hm) hb hf hc

/-- What an op that ends with the lines idle leaves, in the words of the statements. -/
theorem sentFrom_ended {u : State} (n : Nat) (a : Bool) (ev : List Event) (rx' : Rx) (hb : u.busy = false) :
    SentFrom u n a ({ u with
      clkOut := true, dioOut := true, ack := some a, smp := some (!a), busy := true, midOp := true,
      traceRev := ev ++ u.traceRev, rx := rx' }.ended u.cur n) := by
  refine ⟨⟨ev, by rw [ended_traceRev]⟩, ?_⟩
  rw [ended_traceRev, ended_rx]
  unfold State.ended
  obtain ⟨⟩ := u
  simp only at hb
  subst hb
  rfl

/-! ### Ops one after another -/

/-- A sequence that begins with an event does not depend on whether an event was before it, in a quiet state. -/
theorem run_midOp (m : Micro) (ms : List Micro) (s : State) (b : Bool) (hq : s.quiet = true) (hf : s.fault = none)
    (hm : ∃ f, ∀ u : State, u.isFaulted = false → microStep m u = event f u) :
    run (m :: ms) { s with midOp := b } = run (m :: ms) s := by
  obtain ⟨f, hm⟩ := hm
  rw [run_cons, run_cons, hm _ (by simp [hf]), hm s (by simp [hf]), event_quiet f hq hf,
    event_quiet f (by exact hq) (by exact hf)]

theorem microStep_lat (l : Line) (v : Bool) :
    ∃ f, ∀ u : State, u.isFaulted = false → microStep (.lat l v) u = event f u :=
  ⟨setLatch l v, fun u hu => by simp only [microStep, hu]; rfl⟩

/-- The sequence of an op that follows another op of the same agent, as if the two were one op. -/
theorem run_after (a : List Micro) (m : Micro) (ms : List Micro) {s : State} (n : Nat) (hq : s.quiet = true)
    (hf : s.fault = none) (hm : ∃ f, ∀ u : State, u.isFaulted = false → microStep m u = event f u) :
    (run (m :: ms) ((run a s.entered).ended s.cur n).entered).ended s.cur 1 =
      (run (a ++ m :: ms) s.entered).ended s.cur (n + 1) := by
  have hq0 : s.entered.quiet = true := hq
  have hf0 : s.entered.fault = none := hf
  have hq1 := run_quiet a hq0
  have hf1 := run_unfaulted a hq0 hf0
  have hb1 : (run a s.entered).busy = true := by rw [run_sameButWire a hq0]; rfl
  rw [run_append]
  generalize run a s.entered = u at *
  have e : (u.ended s.cur n).entered = { u.elsewhere true (u.advance s.cur n).fg (u.advance s.cur n).irqs u.inited
      u.colonCache with midOp := false } := by
    cases s.cur <;> rfl
  have hq2 : (u.elsewhere true (u.advance s.cur n).fg (u.advance s.cur n).irqs u.inited u.colonCache).quiet = true := by
    have : (u.advance s.cur n).quiet = true := by rw [advance_quiet]; exact hq1
    revert this
    cases s.cur <;> exact fun h => h
  rw [e, run_midOp m ms _ false hq2 hf1 hm, run_elsewhere _ _ _ _ _ _ _ hq1 hq2]
  have h3 := run_sameButWire (m :: ms) hq1
  generalize run (m :: ms) u = w at *
  have hfg : w.fg = u.fg := by rw [h3]
  have hirq : w.irqs = u.irqs := by rw [h3]
  have hin : w.inited = u.inited := by rw [h3]
  have hco : w.colonCache = u.colonCache := by rw [h3]
  rw [← ended_advance, ← hin, ← hco]
  have : (u.advance s.cur n).fg = (w.advance s.cur n).fg ∧ (u.advance s.cur n).irqs = (w.advance s.cur n).irqs := by
    cases s.cur <;> simp [State.advance, hfg, hirq]
  rw [this.1, this.2]
  cases s.cur <;> rfl

/-- The sequence leaves both lines outputs. -/
def Outs (ms : List Micro) : Prop :=
  ∀ s : State, s.quiet = true → s.fault = none → s.clkDir = some .out → s.dioDir = some .out →
    (run ms s).clkDir = some .out ∧ (run ms s).dioDir = some .out

theorem Drives.outs {ms : List Micro} {c d : Bool} {tr : List Event} (h : Drives ms c d tr) : Outs ms := by
  intro s hq hf hc hd
  obtain ⟨r, e⟩ := h s hq hf
  rw [e]
  exact ⟨hc, hd⟩

theorem Sends.outs {ms : List Micro} {c d : Bool → Bool} {n k w : Nat} (h : Sends ms c d n k w) : Outs ms := by
  intro s hq hf hc hd
  obtain ⟨a, tr, r, e, -⟩ := h s hq hf
  rw [e]
  exact ⟨hc, rfl⟩

theorem Outs.append {a b : List Micro} (h : Outs a) (h' : Outs b) : Outs (a ++ b) := by
  intro s hq hf hc hd
  rw [run_append]
  obtain ⟨h1, h2⟩ := h s hq hf hc hd
  exact h' _ (run_quiet a hq) (run_unfaulted a hq hf) h1 h2

/-- After an op whose sequence leaves the lines outputs, the next op of its agent passes the checks. -/
theorem after_ready (a : List Micro) {s : State} (n : Nat) (h : s.transportReady) (ha : Outs a) :
    ((run a s.entered).ended s.cur n).transportReady ∧ ((run a s.entered).ended s.cur n).cur = s.cur := by
  obtain ⟨⟨hf, hb, hq⟩, hc, hd⟩ := h
  obtain ⟨h1, h2⟩ := ha s.entered hq hf hc hd
  have hq1 := run_quiet (s := s.entered) a hq
  have hf1 := run_unfaulted (s := s.entered) a hq hf
  have hcur : (run a s.entered).cur = s.cur := by rw [run_sameButWire (s := s.entered) a hq]; rfl
  generalize run a s.entered = u at *
  have hq2 := advance_quiet { u with busy := false, midOp := false } s.cur n
  refine ⟨⟨⟨?_, ?_, hq2.trans hq1⟩, ?_, ?_⟩, ?_⟩
  all_goals (unfold State.ended; cases hs : s.cur)
  all_goals first | exact hf1 | rfl | exact h1 | exact h2 | exact hcur.trans hs

theorem runOps_cons {i : Instr} {is : List Instr} {s t : State} (h : exec i s = .next t) (hf : t.fault = none) :
    runOps (i :: is) s = runOps is t := by
  simp [runOps, h, hf]

/-- One more transport op. -/
theorem runOps_more {a ms : List Micro} {l : Line} {v : Bool} {mn : Mnemonic} {i : Instr} {is : List Instr} {s : State}
    {n : Nat} (h : s.transportReady) (ha : Outs a) (hi : ∀ u, exec i u = opCycle mn (run ms) u)
    (hmn : mn.row.family = .transport) (hw : mn.row.words = 1) (hm : ms = .lat l v :: ms.tail) :
    runOps (i :: is) ((run a s.entered).ended s.cur n) = runOps is ((run (a ++ ms) s.entered).ended s.cur (n + 1)) := by
  obtain ⟨hr, hcur⟩ := after_ready a n h ha
  obtain ⟨⟨hf, hb, hq⟩, hc, hd⟩ := id h
  have e := (hi _).trans (opCycle_transport (ms := ms) hr hmn)
  have hra := run_after a (.lat l v) ms.tail n hq hf (microStep_lat l v)
  rw [← hm] at hra
  rw [hcur, hw, hra] at e
  rw [runOps_cons e]
  rw [ended_fault]
  exact run_unfaulted (s := s.entered) (a ++ ms) hq hf

/-! ### INIT -/

/-- A sequence keeps the premise that the receiver acknowledges every byte. -/
theorem run_acks (ms : List Micro) {s : State} (h : s.rx.ackPlan = .always) : (run ms s).rx.ackPlan = .always := by
  have hby : ∀ (rx : Rx) b a, rx.ackPlan = .always → (rx.byte b a).ackPlan = .always :=
    fun rx b a h => (byte_ackPlan rx b a).trans h
  have hl : ∀ (rx : Rx) c d, rx.ackPlan = .always → (rx.levels c d).ackPlan = .always := by
    intro rx c d h
    unfold Rx.levels Rx.edges Rx.start Rx.stop Rx.rise Rx.fall Rx.desync
    repeat' split
    all_goals first | exact h | (apply hby; exact h) | (simp only [h, AckPlan.rest])
  have hs : ∀ s : State, s.rx.ackPlan = .always → (rxStep s).rx.ackPlan = .always := fun s h => hl _ _ _ h
  refine run_keeps (P := fun s => s.rx.ackPlan = .always) ?_ ?_ ?_ ?_ ?_ ?_ ?_ ms s h
  · intro s h
    rw [gap_gapOnly s]
    exact h
  · intro s h
    exact h
  · intro l v s h
    cases l <;> exact hs _ h
  · intro l v s h
    cases l <;> exact hs _ h
  · intro s h
    exact hs _ h
  · intro s h
    refine hs _ ?_
    unfold State.useDraw
    simp only [State.record]
    cases s.dioBus <;> exact h
  · intro s h
    exact h

/-- INIT in a state that passes its checks (R89), its body ending in t. -/
theorem opCycle_init {s t : State} (body : State → State) (h : s.initReady) (hb : body s.entered = t)
    (hf : t.fault = none) (hc : t.cur = s.cur) : opCycle .INIT body s = .next (t.ended s.cur 1) :=
  opCycle_seq (m := .INIT) (entryFault_init h.1.2.1 h.2) (.inr rfl) hb hf hc

/-- The receiver after INIT's first four steps. -/
theorem run_initLines_rx {s : State} (hq : s.quiet = true) (hf : s.fault = none) : (run initLines s).rx =
    (((s.rx.see (.bit s.clkOut) s.dioDir s.dioOut s.launch.extPullup).see (.bit s.clkOut) (some .out) s.dioOut
      s.launch.extPullup).see (.bit false) (some .out) s.dioOut s.launch.extPullup).see (.bit false) (some .out) false
      s.launch.extPullup := by
  simp only [State.quiet] at hq
  simp [initLines, run, microStep, event_quiet, State.quiet, hq, hf, setLatch, setDir, rxStep_eq, State.clkBus,
      clkLevel, State.record]

/-- INIT's first four steps with a receiver that is not synchronised: at most a start condition, and nothing held. -/
theorem run_initLines_unsync {s : State} (hq : s.quiet = true) (hf : s.fault = none) (hw : s.WireInv)
    (hs : s.rx.sync = false) :
    (run initLines s).rx.drv = false ∧ (run initLines s).rx.held = s.rx.held ∧
      (run initLines s).rx.receivedRev = s.rx.receivedRev := by
  have hdr := hw.rx.drv_off hs
  have hfr : s.rx.frame = false := by
    cases h : s.rx.frame with
    | false => rfl
    | true => have := hw.rx.frame_sync h; rw [hs] at this; cases this
  have hph := hw.rx.phase_data hfr
  have hbt := hw.rx.noFrame_bits hfr
  have hpd := hw.pdio
  rw [State.dioBus, hdr] at hpd
  rw [run_initLines_rx hq hf]
  have h1 : s.rx.see (.bit s.clkOut) s.dioDir s.dioOut s.launch.extPullup =
      { s.rx with pclk := .bit s.clkOut, steps := s.rx.steps + 1 } := by
    unfold Rx.see Rx.levels
    simp only [hs, hdr]
    rw [← hpd]
    simp
    split
    · rename_i hx
      exfalso
      rw [hx.2.2.1] at hx
      cases hx.2.2.2
    · simp [hpd]
  rw [h1]
  have hm : ∃ r, ({ s.rx with pclk := .bit s.clkOut, steps := s.rx.steps + 1 } : Rx).see (.bit s.clkOut) (some .out)
      s.dioOut s.launch.extPullup = r ∧ r.held = s.rx.held ∧ r.drv = false ∧ r.receivedRev = s.rx.receivedRev ∧
      r.phase = .data ∧ r.bits = 0 := by
    refine ⟨_, rfl, ?_⟩
    simp only [Rx.see, Rx.levels, hs, hdr]
    simp
    split
    · simp [Rx.start, Rx.held, Rx.note]
      rfl
    · simp [hph, hbt, Rx.held]
      rfl
  obtain ⟨r, e, a1, a2, a3, a4, a5⟩ := hm
  rw [e]
  have hf2 : ∃ r', r.see (.bit false) (some .out) s.dioOut s.launch.extPullup = r' ∧ r'.held = s.rx.held ∧
      r'.drv = false ∧ r'.receivedRev = s.rx.receivedRev ∧ r'.pclk = .bit false := by
    refine ⟨_, rfl, ?_⟩
    cases hsy : r.sync <;> cases hpc : r.pclk <;>
      simp [Rx.see, Rx.levels, Rx.edges, Rx.fall, hsy, hpc, a2, a4, a5] <;> exact ⟨a1, a3⟩
  obtain ⟨r', e', b1, b2, b3, b4⟩ := hf2
  rw [e', see_low b4]
  exact ⟨b2, b1, b3⟩

end Sys2Proof.Machine
end

