-- ==== Sys2Proof/Laws/Decode.lean ====
section
/-! SUPPORT. The fields of an operation word (R48, R50) and how a row is selected (R51, R53): what proofs about the decoder
and the encoder cite instead of unfolding words bit by bit. -/

namespace Sys2Proof

/-- The fields of a word built from fields (R48). -/
theorem opcField_opWord (opc a : Byte) (b : BitVec 16) : opcField (opWord opc a b) = opc := by
  apply BitVec.eq_of_getLsbD_eq
  intro i hi
  simp only [opcField, opWord, BitVec.getLsbD_extractLsb', BitVec.getLsbD_append]
  have h1 : ¬ (24 + i < 16) := by omega
  have h2 : ¬ (24 + i - 16 < 8) := by omega
  have h3 : 24 + i - 16 - 8 = i := by omega
  simp [hi, h1, h2, h3]

theorem aField_opWord (opc a : Byte) (b : BitVec 16) : aField (opWord opc a b) = a := by
  apply BitVec.eq_of_getLsbD_eq
  intro i hi
  simp only [aField, opWord, BitVec.getLsbD_extractLsb', BitVec.getLsbD_append]
  have h1 : ¬ (16 + i < 16) := by omega
  simp [hi, h1]

theorem bField_opWord (opc a : Byte) (b : BitVec 16) : bField (opWord opc a b) = b := by
  apply BitVec.eq_of_getLsbD_eq
  intro i hi
  simp only [bField, opWord, BitVec.getLsbD_extractLsb', BitVec.getLsbD_append]
  simp [hi]

/-- A word is its three fields (R48). -/
theorem opWord_fields (w : Word) : opWord (opcField w) (aField w) (bField w) = w := by
  apply BitVec.eq_of_getLsbD_eq
  intro i hi
  simp only [opcField, aField, bField, opWord, BitVec.getLsbD_extractLsb', BitVec.getLsbD_append]
  by_cases h1 : i < 16
  · simp [h1]
  · by_cases h2 : i - 16 < 8
    · have : 16 + (i - 16) = i := by omega
      simp [h1, h2, this]
    · have : 24 + (i - 16 - 8) = i := by omega
      simp [h1, h2, this]
      omega

/-- A mask acts on each field. -/
theorem opWord_and (opc a : Byte) (b : BitVec 16) (opc' a' : Byte) (b' : BitVec 16) :
    opWord opc a b &&& opWord opc' a' b' = opWord (opc &&& opc') (a &&& a') (b &&& b') := by
  unfold opWord
  rw [← BitVec.and_append, ← BitVec.and_append]

theorem opWord_inj {opc a : Byte} {b : BitVec 16} {opc' a' : Byte} {b' : BitVec 16} :
    opWord opc a b = opWord opc' a' b' ↔ opc = opc' ∧ a = a' ∧ b = b' := by
  constructor
  · intro h
    refine ⟨?_, ?_, ?_⟩
    · rw [← opcField_opWord opc a b, h, opcField_opWord]
    · rw [← aField_opWord opc a b, h, aField_opWord]
    · rw [← bField_opWord opc a b, h, bField_opWord]
  · rintro ⟨rfl, rfl, rfl⟩
    rfl

/-- The reserved bits of field `A` of a row (R53). -/
def Mnemonic.aMask (m : Mnemonic) : Byte := aField m.row.mask
/-- The reserved bits of field `B` of a row (R53). -/
def Mnemonic.bMask (m : Mnemonic) : BitVec 16 := bField m.row.mask

/-- A row's match and mask, by fields (R51). -/
theorem row_split (m : Mnemonic) : m.row.pattern = opWord m.row.opc 0 0 ∧ m.row.mask = opWord 0xFF m.aMask m.bMask := by
  cases m <;> decide

/-- A word is a row's exactly when its `OPC` is and none of its reserved bits is set (R51, R53). -/
theorem matches_iff (w : Word) (m : Mnemonic) :
    w &&& m.row.mask = m.row.pattern ↔ opcField w = m.row.opc ∧ aField w &&& m.aMask = 0 ∧ bField w &&& m.bMask = 0 := by
  obtain ⟨h1, h2⟩ := row_split m
  conv_lhs => rw [← opWord_fields w, h1, h2, opWord_and, opWord_inj]
  have : opcField w &&& 0xFF = opcField w := BitVec.and_allOnes
  rw [this]

/-- `OPC` alone names the row (R51, R52). -/
theorem ofOpc_iff (opc : Byte) (m : Mnemonic) : Mnemonic.ofOpc opc = some m ↔ opc = m.row.opc := by
  revert opc
  cases m <;> decide +kernel

/-- A bit operand comes back from field `B` (R50). -/
theorem bitOperand_opWord (opc a : Byte) (v : Bool) : bitOperand (opWord opc a (bitB v)) = v := by
  unfold bitOperand
  rw [bField_opWord]
  cases v <;> rfl

/-- A byte operand comes back from field `B` (R50). -/
theorem byteOperand_opWord (opc a v : Byte) : byteOperand (opWord opc a (byteB v)) = v := by
  unfold byteOperand
  rw [bField_opWord]
  apply BitVec.eq_of_getLsbD_eq
  intro i hi
  simp only [byteB, BitVec.getLsbD_extractLsb', BitVec.getLsbD_append]
  simp [hi]

/-- An int16 operand comes back from field `B` (R50). -/
theorem int16Operand_opWord (opc a : Byte) (n : Int) (h : isInt16 n = true) :
    int16Operand (opWord opc a (BitVec.ofInt 16 n)) = n := by
  unfold int16Operand
  rw [bField_opWord, BitVec.toInt_ofInt]
  simp only [isInt16, Bool.and_eq_true, decide_eq_true_eq] at h
  exact Int.bmod_eq_of_le (by omega) (by omega)

/-- Every int16 operand is in range (R50). -/
theorem isInt16_operand (w : Word) : isInt16 (int16Operand w) = true := by
  have h1 : (bField w).toInt < 2 ^ 15 := BitVec.toInt_lt
  have h2 : -2 ^ 15 ≤ (bField w).toInt := BitVec.le_toInt _
  unfold isInt16 int16Operand
  rw [Bool.and_eq_true, decide_eq_true_eq, decide_eq_true_eq]
  omega

/-- The four character lanes come back from the extension word (R49). -/
theorem strLane_extWord (c0 c1 c2 c3 : Byte) :
    strLane (extWord c0 c1 c2 c3) 0 = c0 ∧ strLane (extWord c0 c1 c2 c3) 1 = c1 ∧
    strLane (extWord c0 c1 c2 c3) 2 = c2 ∧ strLane (extWord c0 c1 c2 c3) 3 = c3 := by
  refine ⟨?_, ?_, ?_, ?_⟩ <;>
  · apply BitVec.eq_of_getLsbD_eq
    intro i hi
    simp only [strLane, extWord, BitVec.getLsbD_extractLsb', BitVec.getLsbD_append]
    simp (disch := omega) only [hi, decide_true, Bool.true_and, if_pos, if_neg]
    congr 1
    try omega

end Sys2Proof
end

