-- ==== Sys2Proof/Laws/Step.lean ====
section
/-! SUPPORT. The choice of the next op and the fetch (R61, R103): what a step is, said once. -/

namespace Sys2Proof.Machine

@[simp] theorem dispatched_agent? (s : State) (g : Nat) (rest : List Turn) (h : Nat) :
    (s.dispatched g rest).agent? h = s.agent? h := by cases h <;> rfl

@[simp] theorem dispatched_wordsOf (s : State) (g : Nat) (rest : List Turn) (h : Nat) :
    (s.dispatched g rest).wordsOf h = s.wordsOf h := by cases h <;> rfl

@[simp] theorem dispatched_opidxOf (s : State) (g : Nat) (rest : List Turn) (h : Nat) :
    (s.dispatched g rest).opidxOf h = s.opidxOf h := by cases h <;> rfl

@[simp] theorem dispatched_wordOf (s : State) (g : Nat) (rest : List Turn) (h : Nat) :
    (s.dispatched g rest).wordOf h = s.wordOf h := by cases h <;> rfl

/-- An agent whose words decode to an op runs it (R61). -/
theorem stepAgent_ok {s : State} {i : Instr} {ws : List Word} (h : decode (s.wordsOf s.cur) = .ok (i, ws)) :
    stepAgent s = exec i s := by
  simp only [stepAgent, h]

/-- An illegal word faults (R53, R54). -/
theorem stepAgent_illegal {s : State} {w : Word} (h : decode (s.wordsOf s.cur) = .error (.illegal w)) :
    stepAgent s = .next (s.raise .illegalOp w s.cur s.busy) := by
  simp only [stepAgent, h]

/-- A truncated DSTR faults (R52). -/
theorem stepAgent_truncated {s : State} {w : Word} (h : decode (s.wordsOf s.cur) = .error (.truncated w)) :
    stepAgent s = .next (s.raise .truncated w s.cur s.busy) := by
  simp only [stepAgent, h]

/-- Only an empty list of words decodes to nothing. -/
theorem decode_empty_iff (ws : List Word) : decode ws = .error .empty ↔ ws = [] := by
  cases ws with
  | nil => simp [decode]
  | cons w ws =>
    simp only [decode, reduceCtorEq, iff_false]
    cases selectRow w with
    | none => simp
    | some m =>
      dsimp only
      split_ifs
      · cases ws <;> simp
      · simp

theorem hasNext_wordsOf (s : State) (g : Nat) : s.hasNext g = true ↔ s.wordsOf g ≠ [] := by
  unfold State.hasNext
  cases s.wordsOf g <;> simp

/-- A step before a fault runs the op of the agent that is chosen. -/
theorem step_pick {s : State} {g : Nat} {rest : List Turn} (hf : s.fault = none) (hp : pick s = some (g, rest)) :
    step s = stepAgent (s.dispatched g rest) := by
  unfold step
  rw [hf]
  dsimp only
  rw [hp]

/-- The agent chosen has a next op. -/
theorem pick_hasNext {s : State} {g : Nat} {rest : List Turn} (h : pick s = some (g, rest)) : s.hasNext g = true := by
  have hready : ∀ k, s.firstReady = some k → s.hasNext k = true := by
    intro k hk
    exact List.find?_some hk
  unfold pick at h
  split at h
  · simp only [Option.map_eq_some_iff, Prod.mk.injEq] at h
    obtain ⟨k, hk, rfl, -⟩ := h
    exact hready _ hk
  · simp only [Option.map_eq_some_iff, Prod.mk.injEq] at h
    obtain ⟨k, hk, rfl, -⟩ := h
    exact hready _ hk
  · split at h
    · simp only [Option.some.injEq, Prod.mk.injEq] at h
      obtain ⟨rfl, -⟩ := h
      assumption
    · simp only [Option.map_eq_some_iff, Prod.mk.injEq] at h
      obtain ⟨k, hk, rfl, -⟩ := h
      exact hready _ hk

/-- An agent is chosen exactly where one has a next op. -/
theorem pick_none_iff (s : State) : pick s = none ↔ ∀ g, s.hasNext g = false := by
  have hready : s.firstReady = none ↔ ∀ g, s.hasNext g = false := by
    unfold State.firstReady
    rw [List.find?_eq_none]
    constructor
    · intro h g
      by_cases hg : g < s.irqs.length + 1
      · simpa using h g (List.mem_range.2 hg)
      · by_contra hn
        obtain ⟨a, ha, -⟩ := (hasNext_iff s g).1 (by simpa using hn)
        cases g with
        | zero => omega
        | succ k =>
          rw [agent?_succ] at ha
          have := (List.getElem?_eq_some_iff.1 ha).1
          omega
    · intro h g _
      simp [h g]
  rw [← hready]
  unfold pick
  split
  · simp
  · simp
  · split
    · rename_i g rest hg hn
      constructor
      · intro h
        cases h
      · intro h
        have := hready.1 h g
        rw [hn] at this
        cases this
    · simp

/-- What a step that is taken does: it is the op cycle of an agent that has a next op, before a fault. -/
theorem step_cases {s t : State} (h : step s = .next t) :
    s.fault = none ∧ ∃ g rest, pick s = some (g, rest) ∧ s.hasNext g = true ∧
      stepAgent (s.dispatched g rest) = .next t := by
  unfold step at h
  split at h
  · cases h
  · rename_i hf
    split at h
    · cases h
    · rename_i g rest hp
      exact ⟨hf, g, rest, hp, pick_hasNext hp, h⟩

/-- What an agent's turn does: its next word is illegal, or truncated, or an op runs. -/
theorem stepAgent_cases {s t : State} (h : stepAgent s = .next t) :
    (∃ w, t = s.raise .illegalOp w s.cur s.busy) ∨ (∃ w, t = s.raise .truncated w s.cur s.busy) ∨
    ∃ i ws, decode (s.wordsOf s.cur) = .ok (i, ws) ∧ exec i s = .next t := by
  unfold stepAgent at h
  split at h
  · cases h
  · cases h
    exact .inl ⟨_, rfl⟩
  · cases h
    exact .inr (.inl ⟨_, rfl⟩)
  · rename_i i ws hd
    exact .inr (.inr ⟨i, ws, hd, h⟩)

/-- Every op but ENCODE runs under the op cycle of its row (R61). -/
theorem exec_opCycle (i : Instr) (hi : i.mnemonic.row.family ≠ .encoder) (s : State) :
    ∃ body, exec i s = opCycle i.mnemonic body s := by
  cases i
  case encode => exact absurd rfl hi
  case dchar pos c =>
    simp only [exec, execDchar, Instr.mnemonic]
    split <;> exact ⟨_, rfl⟩
  case dstr c0 c1 c2 c3 =>
    simp only [exec, execDstr, Instr.mnemonic]
    split <;> exact ⟨_, rfl⟩
  case dint n =>
    simp only [exec, execDint, Instr.mnemonic]
    split <;> exact ⟨_, rfl⟩
  all_goals
    simp only [exec, execSetclk, execSetdio, execSetdir, execWait, execSample, execStart, execStop, execWrbyte,
      execSendcmd, execInit, execDseg, execDcolon, execClear, execEnable, execSetbri, Instr.mnemonic]
    exact ⟨_, rfl⟩

/-- Every op answers a next state: a fault of the spec is a next state with its record (R101). -/
theorem exec_next (i : Instr) (s : State) : ∃ t, exec i s = .next t := by
  by_cases hi : i.mnemonic.row.family = .encoder
  · cases i <;> first | (simp [Instr.mnemonic, Mnemonic.row] at hi; done) | exact ⟨_, rfl⟩
  · obtain ⟨body, e⟩ := exec_opCycle i hi s
    rw [e]
    exact opCycle_next _ _ _

/-- A run whose first step is taken goes on from there. -/
theorem core_run_next {s t : State} (k : Nat) (h : step s = .next t) :
    Sys2Proof.core.run (k + 1) s = Sys2Proof.core.run k t := by
  have h' : Sys2Proof.core.step s = .next t := h
  simp only [Host.Core.run, h']

/-- A run whose first step is not taken ends there. -/
theorem core_run_fault {s : State} {f : Fault} (k : Nat) (h : step s = .fault f) :
    Sys2Proof.core.run (k + 1) s = .fault f := by
  have h' : Sys2Proof.core.step s = .fault f := h
  simp only [Host.Core.run, h']

/-- An op that decodes has all of its words (R52). -/
theorem decode_len {ws rest : List Word} {i : Instr} (h : decode ws = .ok (i, rest)) :
    i.mnemonic.row.words ≤ ws.length := by
  cases ws with
  | nil => simp [decode] at h
  | cons w ws =>
    unfold decode at h
    cases hs : selectRow w with
    | none => simp [hs] at h
    | some m =>
      simp only [hs] at h
      split at h
      · cases ws with
        | nil => simp at h
        | cons e ws =>
          simp only [Except.ok.injEq, Prod.mk.injEq] at h
          obtain ⟨rfl, rfl⟩ := h
          cases m <;> simp [Mnemonic.instr, Instr.mnemonic, Mnemonic.row]
      · simp only [Except.ok.injEq, Prod.mk.injEq] at h
        obtain ⟨rfl, rfl⟩ := h
        rename_i hw
        cases m <;> simp_all [Mnemonic.instr, Instr.mnemonic, Mnemonic.row]

end Sys2Proof.Machine
end

