-- ==== Sys2Proof/Laws/Keeps.lean ====
section
/-! SUPPORT. What can happen while an op is underway, interrupt agents included, said once (R61, R103): the lemma every
proof about `step` over all ops goes through. -/

namespace Sys2Proof.Machine

/-- `r` is the record of a fault at the place its agent stands (R101). -/
def FaultAt (s : State) (r : FaultRecord) : Prop :=
  ∃ a, s.agent? r.agent = some a ∧ a.opidx = r.opidx ∧ a.stream[r.opidx]? = some r.word

/-- The agents of a list have moved on in their streams, or not at all. -/
def MovedOn (l l' : List Agent) : Prop :=
  List.Forall₂ (fun a a' : Agent => a'.stream = a.stream ∧ a.opidx ≤ a'.opidx ∧
    (a.opidx ≤ a.stream.length → a'.opidx ≤ a.stream.length)) l l'

theorem MovedOn.refl (l : List Agent) : MovedOn l l := by
  induction l with
  | nil => exact .nil
  | cons a l ih => exact .cons ⟨rfl, le_refl _, id⟩ ih

theorem MovedOn.trans {l l' l'' : List Agent} (h : MovedOn l l') (h' : MovedOn l' l'') : MovedOn l l'' := by
  induction h generalizing l'' with
  | nil => exact h'
  | cons hab _ ih =>
    cases h' with
    | cons hbc h2 =>
      refine .cons ⟨hbc.1.trans hab.1, hab.2.1.trans hbc.2.1, fun h => ?_⟩ (ih h2)
      have := hbc.2.2
      rw [hab.1] at this
      exact this (hab.2.2 h)

theorem MovedOn.modify {l : List Agent} {k n : Nat} {a : Agent} (h : l[k]? = some a)
    (hn : a.opidx + n ≤ a.stream.length) : MovedOn l (l.modify k (·.advance n)) := by
  induction l generalizing k with
  | nil => simp at h
  | cons b l ih =>
    cases k with
    | zero =>
      simp only [List.getElem?_cons_zero, Option.some.injEq] at h
      subst h
      exact .cons ⟨rfl, Nat.le_add_right _ _, fun _ => hn⟩ (MovedOn.refl l)
    | succ k =>
      simp only [List.getElem?_cons_succ] at h
      exact .cons ⟨rfl, le_refl _, id⟩ (ih h)

theorem MovedOn.streams {l l' : List Agent} (h : MovedOn l l') : l'.map Agent.stream = l.map Agent.stream := by
  induction h with
  | nil => rfl
  | cons hab _ ih => simp [hab.1, ih]

theorem MovedOn.left {l l' : List Agent} (h : MovedOn l l') : (l'.map Agent.left).sum ≤ (l.map Agent.left).sum := by
  induction h with
  | nil => exact le_refl _
  | @cons a b l l' hab _ ih =>
    have h1 : b.left ≤ a.left := by
      have := hab.2.1
      unfold Agent.left
      rw [hab.1]
      omega
    simp only [List.map_cons, List.sum_cons]
    omega

theorem MovedOn.get {l l' : List Agent} (h : MovedOn l l') {k : Nat} {a' : Agent} (hk : l'[k]? = some a') :
    ∃ a, l[k]? = some a ∧ a'.stream = a.stream ∧ a.opidx ≤ a'.opidx ∧
      (a.opidx ≤ a.stream.length → a'.opidx ≤ a.stream.length) := by
  induction h generalizing k with
  | nil => simp at hk
  | cons hab _ ih =>
    cases k with
    | zero =>
      simp only [List.getElem?_cons_zero, Option.some.injEq] at hk
      subst hk
      exact ⟨_, rfl, hab⟩
    | succ k =>
      simp only [List.getElem?_cons_succ] at hk ⊢
      exact ih hk

/-- What can have happened between two states of an op that is underway. -/
structure Underway (s t : State) : Prop where
  launch : t.launch = s.launch
  cur : t.cur = s.cur
  fg : t.fg = s.fg
  busy : t.busy = s.busy
  irqs : MovedOn s.irqs t.irqs
  trace : ∃ ev, t.traceRev = ev ++ s.traceRev ∧ t.rx.steps = s.rx.steps + ev.length
  wire : s.WireInv → t.WireInv
  /-- A fault that arises meanwhile is another agent's, at the place that agent stands. -/
  fault : s.fault = none → t.fault = none ∨
    ∃ r, t.fault = some r ∧ FaultAt t r ∧ r.agent ≠ 0 ∧ s.cur = 0 ∧ s.launch.irqMasked = false
  /-- After a fault no agent moves. -/
  stuck : ∀ r, s.fault = some r → t.fault = some r ∧ t.irqs = s.irqs
  /-- Where no interrupt agent may act, none does. -/
  alone : s.cur ≠ 0 ∨ s.launch.irqMasked = true → t.irqs = s.irqs ∧ t.fault = s.fault

theorem Underway.refl (s : State) : Underway s s where
  launch := rfl
  cur := rfl
  fg := rfl
  busy := rfl
  irqs := MovedOn.refl _
  trace := ⟨[], rfl, rfl⟩
  wire := id
  fault := .inl
  stuck := fun _ h => ⟨h, rfl⟩
  alone := fun _ => ⟨rfl, rfl⟩

theorem FaultAt.of_agents {s t : State} {r : FaultRecord} (h : FaultAt s r) (hf : t.fg = s.fg) (hi : t.irqs = s.irqs) :
    FaultAt t r := by
  obtain ⟨a, h1, h2⟩ := h
  refine ⟨a, ?_, h2⟩
  rw [← h1]
  cases r.agent with
  | zero => rw [agent?_zero, agent?_zero, hf]
  | succ k => rw [agent?_succ, agent?_succ, hi]

theorem Underway.trans {s t u : State} (h : Underway s t) (h' : Underway t u) : Underway s u where
  launch := h'.launch.trans h.launch
  cur := h'.cur.trans h.cur
  fg := h'.fg.trans h.fg
  busy := h'.busy.trans h.busy
  irqs := h.irqs.trans h'.irqs
  trace := by
    obtain ⟨ev, e1, e2⟩ := h.trace
    obtain ⟨ev', e1', e2'⟩ := h'.trace
    refine ⟨ev' ++ ev, by rw [e1', e1, List.append_assoc], ?_⟩
    rw [e2', e2, List.length_append]
    omega
  wire := h'.wire ∘ h.wire
  fault := by
    intro hf
    rcases h.fault hf with h0 | ⟨r, h1, h2, h3, h4, h5⟩
    · rcases h'.fault h0 with h0' | ⟨r, h1, h2, h3, h4, h5⟩
      · exact .inl h0'
      · exact .inr ⟨r, h1, h2, h3, by rw [← h.cur]; exact h4, by rw [← h.launch]; exact h5⟩
    · obtain ⟨g1, g2⟩ := h'.stuck r h1
      exact .inr ⟨r, g1, h2.of_agents h'.fg g2, h3, h4, h5⟩
  stuck := by
    intro r hr
    obtain ⟨g1, g2⟩ := h.stuck r hr
    obtain ⟨g1', g2'⟩ := h'.stuck r g1
    exact ⟨g1', g2'.trans g2⟩
  alone := by
    intro ha
    obtain ⟨g1, g2⟩ := h.alone ha
    obtain ⟨g1', g2'⟩ := h'.alone (by rw [h.cur, h.launch]; exact ha)
    exact ⟨g1'.trans g1, g2'.trans g2⟩

/-- A change that touches nothing `Underway` speaks of. -/
theorem Underway.of_eq {s t : State} (h1 : t.launch = s.launch) (h2 : t.cur = s.cur) (h3 : t.fg = s.fg)
    (h4 : t.busy = s.busy) (h5 : t.irqs = s.irqs) (h6 : t.traceRev = s.traceRev) (h7 : t.rx = s.rx)
    (h8 : t.fault = s.fault) (h9 : t.clkBus = s.clkBus) (h10 : t.dioBus = s.dioBus) : Underway s t where
  launch := h1
  cur := h2
  fg := h3
  busy := h4
  irqs := h5 ▸ MovedOn.refl _
  trace := ⟨[], by rw [h6]; rfl, by rw [h7]; rfl⟩
  wire := fun h => wireInv_of_eq h h7 h9 h10 h6
  fault := fun h => .inl (h8.trans h)
  stuck := fun _ h => ⟨h8.trans h, h5⟩
  alone := fun _ => ⟨h5, h8⟩

/-! ### Other agents' ops -/

/-- What an interrupt agent's op does between two micro-steps of a foreground op. -/
theorem preemptingOp_underway {s : State} {k : Nat} (hf : s.fault = none) (hc : s.cur = 0)
    (hm : s.launch.irqMasked = false) (hn : s.hasNext (k + 1) = true) : Underway s (preemptingOp (k + 1) s) := by
  obtain ⟨a, ha, hlt⟩ := (hasNext_iff s (k + 1)).1 hn
  have hraise : ∀ c w, Underway s (s.raise c w (k + 1) s.busy) := by
    intro c w
    refine ⟨rfl, rfl, rfl, rfl, MovedOn.refl _, ⟨[], rfl, rfl⟩, fun h => wireInv_of_eq h rfl rfl rfl rfl, ?_, ?_, ?_⟩
    · intro _
      refine .inr ⟨_, rfl, ⟨a, ?_, ?_, ?_⟩, by simp, hc, hm⟩
      · exact ha
      · simp [State.opidxOf, ha]
      · have := wordOf_eq ha hlt
        simpa [State.opidxOf, ha] using this
    · intro r hr
      rw [hf] at hr
      cases hr
    · rintro (h | h)
      · exact absurd hc h
      · rw [hm] at h
        cases h
  unfold preemptingOp
  split
  · exact Underway.refl s
  · exact hraise _ _
  · exact hraise _ _
  · unfold encodeBy
    split
    · exact hraise _ _
    · refine ⟨rfl, rfl, rfl, rfl, ?_, ⟨[], rfl, rfl⟩, fun h => wireInv_of_eq h rfl rfl rfl rfl, fun _ => .inl hf, ?_, ?_⟩
      · exact MovedOn.modify ha (by omega)
      · intro r hr
        rw [hf] at hr
        cases hr
      · rintro (h | h)
        · exact absurd hc h
        · rw [hm] at h
          cases h
  · exact hraise _ _

theorem Underway.sched {s t : State} (h : Underway s t) (l : List Turn) : Underway s { t with sched := l } :=
  h.trans (Underway.of_eq rfl rfl rfl rfl rfl rfl rfl rfl rfl rfl)

theorem runGap_underway (ts : List Turn) {s : State} (hf : s.fault = none) (hc : s.cur = 0)
    (hm : s.launch.irqMasked = false) : Underway s (runGap ts s) := by
  induction ts generalizing s with
  | nil => exact (Underway.refl s).sched _
  | cons t ts ih =>
    cases t with
    | proceed => exact (Underway.refl s).sched _
    | agent g =>
      unfold runGap
      cases g with
      | zero => exact (Underway.refl s).sched _
      | succ k =>
        by_cases hn : s.hasNext (k + 1) = true
        · have hp := preemptingOp_underway hf hc hm hn
          simp only [hn, Bool.and_true, ne_eq, Nat.add_one_ne_zero, not_false_eq_true, decide_true, if_true]
          split
          · exact hp.sched _
          · rename_i hnf
            have hf' : (preemptingOp (k + 1) s).fault = none := by
              simpa using hnf
            exact hp.trans (ih hf' (hp.cur.trans hc) (by rw [hp.launch]; exact hm))
        · simp only [hn, Bool.and_false]
          exact (Underway.refl s).sched _

theorem gap_underway {s : State} (hf : s.fault = none) : Underway s (gap s) := by
  unfold gap
  by_cases hq : s.quiet = true
  · rw [if_pos hq]
    exact Underway.refl s
  · rw [if_neg hq]
    have hq' : noPreemption s.sched s.irqs s.cur s.launch.irqMasked = false := by simpa [State.quiet] using hq
    simp only [noPreemption, Bool.or_eq_false_iff, decide_eq_false_iff_not, ne_eq, not_not] at hq'
    exact runGap_underway _ hf hq'.1.2 hq'.2

/-! ### The running op's own micro-steps -/

theorem rxStep_underway {s t : State} (e : Event) (h1 : t.launch = s.launch) (h2 : t.cur = s.cur) (h3 : t.fg = s.fg)
    (h4 : t.busy = s.busy) (h5 : t.irqs = s.irqs) (h6 : t.traceRev = e :: s.traceRev) (h7 : t.rx = s.rx)
    (h8 : t.fault = s.fault) : Underway s (rxStep t) where
  launch := h1
  cur := h2
  fg := h3
  busy := h4
  irqs := by
    show MovedOn s.irqs t.irqs
    rw [h5]
    exact MovedOn.refl _
  trace := by
    refine ⟨[e], h6, ?_⟩
    show (Rx.see _ _ _ _ _).steps = _
    rw [see_steps, h7]
    rfl
  wire := by
    intro h
    refine rxStep_wireInv ?_ ?_ ?_
    · rw [h7]; exact h.rx
    · rw [h7]; exact h.pulled
    · rw [h7, h6, List.length_cons, h.steps]
  fault := fun h => .inl (h8.trans h)
  stuck := fun _ h => ⟨h8.trans h, h5⟩
  alone := fun _ => ⟨h5, h8⟩

theorem midOp_underway (s : State) (b : Bool) : Underway s { s with midOp := b } :=
  Underway.of_eq rfl rfl rfl rfl rfl rfl rfl rfl rfl rfl

theorem event_underway {s : State} (f : State → State) (hf : s.fault = none) (h : ∀ t, Underway t (f t)) :
    Underway s (event f s) := by
  have hgo : ∀ u, Underway s u → Underway s (if u.isFaulted then u else f { u with midOp := true }) := by
    intro u hu
    split
    · exact hu
    · exact (hu.trans (midOp_underway u true)).trans (h { u with midOp := true })
  unfold event
  dsimp only
  split
  · exact hgo _ (gap_underway hf)
  · exact hgo _ (Underway.refl s)

theorem microStep_underway (m : Micro) (s : State) : Underway s (microStep m s) := by
  unfold microStep
  split
  · exact Underway.refl s
  · rename_i hnf
    have hf : s.fault = none := by simpa using hnf
    have hlat : ∀ l v t, Underway t (setLatch l v t) := by
      intro l v t
      cases l <;> exact rxStep_underway _ rfl rfl rfl rfl rfl rfl rfl rfl
    cases m with
    | lat l v => exact event_underway _ hf (hlat l v)
    | dir l d =>
      refine event_underway _ hf (fun t => ?_)
      cases l <;> exact rxStep_underway _ rfl rfl rfl rfl rfl rfl rfl rfl
    | wait => exact event_underway _ hf (fun t => rxStep_underway _ rfl rfl rfl rfl rfl rfl rfl rfl)
    | sample =>
      refine event_underway _ hf (fun t => ?_)
      have hu : ∀ u : State, u = t.useDraw → u.launch = t.launch ∧ u.cur = t.cur ∧ u.fg = t.fg ∧ u.busy = t.busy ∧
          u.irqs = t.irqs ∧ u.traceRev = t.traceRev ∧ u.rx = t.rx ∧ u.fault = t.fault := by
        rintro u rfl
        unfold State.useDraw
        split <;> exact ⟨rfl, rfl, rfl, rfl, rfl, rfl, rfl, rfl⟩
      obtain ⟨u1, u2, u3, u4, u5, u6, u7, u8⟩ := hu _ rfl
      exact rxStep_underway (.smp t.readLevel) u1 u2 u3 u4 u5 (by show _ :: t.useDraw.traceRev = _; rw [u6]) u7 u8
    | holdLow =>
      show Underway s (holdLow s)
      unfold holdLow
      split
      · exact event_underway _ hf (hlat .dio false)
      · exact Underway.refl s
    | setAck => exact Underway.of_eq rfl rfl rfl rfl rfl rfl rfl rfl rfl rfl

theorem run_underway (ms : List Micro) (s : State) : Underway s (run ms s) := by
  induction ms generalizing s with
  | nil => exact Underway.refl s
  | cons m ms ih => exact (microStep_underway m s).trans (ih _)

theorem assign_underway (f : State → State) (s : State) (h : ∀ t, Underway t (f t)) : Underway s (assign f s) := by
  unfold assign
  split
  · exact Underway.refl s
  · exact h s

theorem dchar_underway (pos pat : Byte) (s : State) : Underway s (dcharSeq pos pat s) := by
  unfold dcharSeq
  dsimp only
  split
  · exact (run_underway _ s).trans (assign_underway _ _ fun t => Underway.of_eq rfl rfl rfl rfl rfl rfl rfl rfl rfl rfl)
  · exact run_underway _ s

theorem dchars_underway (k : Nat) (ps : List Byte) (s : State) : Underway s (dcharsFrom k ps s) := by
  induction ps generalizing k s with
  | nil => exact Underway.refl s
  | cons p ps ih => exact (dchar_underway _ p s).trans (ih _ _)

/-! ### A whole op -/

theorem colon_underway (s : State) (c : Option Byte) : Underway s { s with colonCache := c } :=
  Underway.of_eq rfl rfl rfl rfl rfl rfl rfl rfl rfl rfl

theorem en_underway (s : State) (c : Option Bool) : Underway s { s with cfgEn := c } :=
  Underway.of_eq rfl rfl rfl rfl rfl rfl rfl rfl rfl rfl

theorem bri_underway (s : State) (c : Option (BitVec 3)) : Underway s { s with cfgBri := c } :=
  Underway.of_eq rfl rfl rfl rfl rfl rfl rfl rfl rfl rfl

theorem inited_underway (s : State) (b : Bool) : Underway s { s with inited := b } :=
  Underway.of_eq rfl rfl rfl rfl rfl rfl rfl rfl rfl rfl

theorem initRegs_underway (en : Bool) (bri : Int) (s : State) : Underway s (initRegs en bri s) :=
  Underway.of_eq rfl rfl rfl rfl rfl rfl rfl rfl rfl rfl

/-- What an op does: a check after decoding fails; a character has no table entry; ENCODE runs; or the op gets underway
and completes, unless another agent's fault stops the machine (R61). -/
theorem exec_cases {i : Instr} {s t : State} (h : exec i s = .next t) :
    (∃ c, t = s.raise c (s.wordOf s.cur) s.cur s.busy) ∨
    (∃ c, t = { s with midOp := false }.raise .unencodable c s.cur s.busy) ∨
    (∃ c, i = .encode c ∧ t = encodeBy s.cur c s) ∨
    (i.mnemonic.row.family ≠ .encoder ∧ entryFault i.mnemonic s = none ∧
      ∃ u, Underway (enter i.mnemonic s) u ∧ t = complete i.mnemonic u) := by
  by_cases hi : i.mnemonic.row.family = .encoder
  · cases i <;> first | (simp [Instr.mnemonic, Mnemonic.row] at hi; done) | skip
    rename_i c
    refine .inr (.inr (.inl ⟨c, rfl, ?_⟩))
    simpa [exec, execEncode] using h.symm
  · cases he : entryFault i.mnemonic s with
    | some c =>
      obtain ⟨body, e⟩ := exec_opCycle i hi s
      rw [e, opCycle_fault body he] at h
      exact .inl ⟨c, by simpa using h.symm⟩
    | none =>
      have hgo : ∀ body : State → State, exec i s = opCycle i.mnemonic body s →
          Underway (enter i.mnemonic s) (body (enter i.mnemonic s)) →
          ∃ u, Underway (enter i.mnemonic s) u ∧ t = complete i.mnemonic u := by
        intro body e hu
        rw [e, opCycle_run body he] at h
        exact ⟨_, hu, by simpa using h.symm⟩
      have hun : ∀ (m : Mnemonic) (c : Byte), i.mnemonic = m → m.row.family = .driver →
          exec i s = opCycle m (fun t => t.raise .unencodable (c.zeroExtend 32) t.cur s.busy) s →
          ∃ c, t = { s with midOp := false }.raise .unencodable c s.cur s.busy := by
        rintro m c rfl hm e
        rw [e, opCycle_run _ he, complete_faulted rfl, enter_eq_busy (.inr hm)] at h
        refine ⟨c.zeroExtend 32, ?_⟩
        simp only [Host.Outcome.next.injEq] at h
        rw [← h]
        rfl
      have hctrl : ∀ u : State, Underway u (ctrlSeq u) := fun u => run_underway _ u
      have heq : ∀ u : State, ∀ f : State → State, (∀ v, Underway v (f v)) → Underway u (assign f u) :=
        fun u f hf => assign_underway f u hf
      cases i
      case encode => exact absurd rfl hi
      case dchar pos c =>
        cases hr : rom s.launch c with
        | none => exact .inr (.inl (hun .DCHAR c rfl rfl (by simp only [exec, execDchar, hr])))
        | some p =>
          exact .inr (.inr (.inr ⟨hi, rfl, hgo (dcharSeq pos p) (by simp only [exec, execDchar, hr, Instr.mnemonic])
            (dchar_underway _ _ _)⟩))
      case dstr c0 c1 c2 c3 =>
        cases hr : romAll s.launch (padString [c0, c1, c2, c3]) with
        | error c => exact .inr (.inl (hun .DSTR c rfl rfl (by simp only [exec, execDstr, hr])))
        | ok ps =>
          exact .inr (.inr (.inr ⟨hi, rfl, hgo (dcharsFrom 0 ps) (by simp only [exec, execDstr, hr, Instr.mnemonic])
            (dchars_underway _ _ _)⟩))
      case dint n =>
        cases hr : romAll s.launch (formatInt n) with
        | error c => exact .inr (.inl (hun .DINT c rfl rfl (by simp only [exec, execDint, hr])))
        | ok ps =>
          exact .inr (.inr (.inr ⟨hi, rfl, hgo (dcharsFrom 0 ps) (by simp only [exec, execDint, hr, Instr.mnemonic])
            (dchars_underway _ _ _)⟩))
      case init en bri =>
        refine .inr (.inr (.inr ⟨hi, rfl, hgo (fun s0 => assign (fun t => { t with inited := true })
          (ctrlSeq (assign (initRegs en bri) (run initLines s0))))
          (by simp only [exec, execInit, Instr.mnemonic]) ?_⟩))
        have h1 := run_underway initLines (enter Mnemonic.INIT s)
        have h2 := heq (run initLines (enter Mnemonic.INIT s)) _ (initRegs_underway en bri)
        have h3 := hctrl (assign (initRegs en bri) (run initLines (enter Mnemonic.INIT s)))
        have h4 := heq (ctrlSeq (assign (initRegs en bri) (run initLines (enter Mnemonic.INIT s)))) _
          (fun v => inited_underway v true)
        exact ((h1.trans h2).trans h3).trans h4
      case dcolon v =>
        refine .inr (.inr (.inr ⟨hi, rfl, hgo (fun s0 => run (dsegSeq 1 (colonSet s0.colonValue v))
          { s0 with colonCache := some (colonSet s0.colonValue v) }) (by simp only [exec, execDcolon, Instr.mnemonic]) ?_⟩))
        exact (colon_underway (enter Mnemonic.DCOLON s) _).trans (run_underway _ _)
      case enable on =>
        refine .inr (.inr (.inr ⟨hi, rfl, hgo (fun s0 => ctrlSeq { s0 with cfgEn := some on })
          (by simp only [exec, execEnable, Instr.mnemonic]) ?_⟩))
        exact (en_underway (enter Mnemonic.ENABLE s) _).trans (hctrl _)
      case setbri v =>
        refine .inr (.inr (.inr ⟨hi, rfl, hgo (fun s0 => ctrlSeq { s0 with cfgBri := some (clamp v) })
          (by simp only [exec, execSetbri, Instr.mnemonic]) ?_⟩))
        exact (bri_underway (enter Mnemonic.SETBRI s) _).trans (hctrl _)
      case setclk v =>
        exact .inr (.inr (.inr ⟨hi, rfl, hgo (run [.lat .clk v]) (by simp only [exec, execSetclk, Instr.mnemonic])
          (run_underway _ _)⟩))
      case setdio v =>
        exact .inr (.inr (.inr ⟨hi, rfl, hgo (run [.lat .dio v]) (by simp only [exec, execSetdio, Instr.mnemonic])
          (run_underway _ _)⟩))
      case setdir l d =>
        exact .inr (.inr (.inr ⟨hi, rfl, hgo (run [.dir l d]) (by simp only [exec, execSetdir, Instr.mnemonic])
          (run_underway _ _)⟩))
      case wait =>
        exact .inr (.inr (.inr ⟨hi, rfl, hgo (run [.wait]) (by simp only [exec, execWait, Instr.mnemonic])
          (run_underway _ _)⟩))
      case sample =>
        exact .inr (.inr (.inr ⟨hi, rfl, hgo (run [.sample]) (by simp only [exec, execSample, Instr.mnemonic])
          (run_underway _ _)⟩))
      case start =>
        exact .inr (.inr (.inr ⟨hi, rfl, hgo (run startSeq) (by simp only [exec, execStart, Instr.mnemonic])
          (run_underway _ _)⟩))
      case stop =>
        exact .inr (.inr (.inr ⟨hi, rfl, hgo (run stopSeq) (by simp only [exec, execStop, Instr.mnemonic])
          (run_underway _ _)⟩))
      case wrbyte b =>
        exact .inr (.inr (.inr ⟨hi, rfl, hgo (run (writeByteSeq b)) (by simp only [exec, execWrbyte, Instr.mnemonic])
          (run_underway _ _)⟩))
      case sendcmd b =>
        exact .inr (.inr (.inr ⟨hi, rfl, hgo (run (sendCmdSeq b)) (by simp only [exec, execSendcmd, Instr.mnemonic])
          (run_underway _ _)⟩))
      case dseg pos pat =>
        exact .inr (.inr (.inr ⟨hi, rfl, hgo (run (dsegSeq pos pat)) (by simp only [exec, execDseg, Instr.mnemonic])
          (run_underway _ _)⟩))
      case clear =>
        exact .inr (.inr (.inr ⟨hi, rfl, hgo (run (dsegSeq 0 0x00 ++ dsegSeq 1 0x00 ++ dsegSeq 2 0x00 ++ dsegSeq 3 0x00)) (by simp only [exec, execClear, Instr.mnemonic])
          (run_underway _ _)⟩))

/-- What the beginning of an op leaves alone. -/
theorem enter_same (m : Mnemonic) (s : State) :
    (enter m s).fault = s.fault ∧ (enter m s).launch = s.launch ∧ (enter m s).cur = s.cur ∧
    (enter m s).fg = s.fg ∧ (enter m s).irqs = s.irqs ∧ (enter m s).rx = s.rx ∧ (enter m s).traceRev = s.traceRev ∧
    (enter m s).clkBus = s.clkBus ∧ (enter m s).dioBus = s.dioBus := by
  unfold enter
  split <;> exact ⟨rfl, rfl, rfl, rfl, rfl, rfl, rfl, rfl, rfl⟩

/-- What moving `OPIDX` leaves alone. -/
theorem adv_same (s : State) (g n : Nat) :
    (s.advance g n).fault = s.fault ∧ (s.advance g n).launch = s.launch ∧ (s.advance g n).cur = s.cur ∧
    (s.advance g n).rx = s.rx ∧ (s.advance g n).traceRev = s.traceRev ∧ (s.advance g n).clkBus = s.clkBus ∧
    (s.advance g n).dioBus = s.dioBus ∧ (s.advance g n).busy = s.busy ∧ (s.advance g n).midOp = s.midOp := by
  cases g <;> exact ⟨rfl, rfl, rfl, rfl, rfl, rfl, rfl, rfl, rfl⟩

/-- An op that got underway ends: stopped by a fault, or complete. -/
theorem complete_cases (m : Mnemonic) (u : State) (h : m.row.family ≠ .encoder) :
    (u.fault.isSome = true ∧ complete m u = u) ∨
    (u.fault = none ∧ ∃ b, complete m u = { u with busy := b, midOp := false }.advance u.cur m.row.words ∧
      (m.row.family = .line → b = u.busy) ∧ (m.row.family ≠ .line → b = false)) := by
  unfold complete
  cases hf : u.fault with
  | some r => left; simp [hf]
  | none =>
    right
    refine ⟨rfl, ?_⟩
    simp only [isFaulted_eq, hf]
    cases hm : m.row.family with
    | line => exact ⟨u.busy, by rfl, by simp, by simp⟩
    | encoder => exact absurd hm h
    | transport => exact ⟨false, by rfl, by simp, by simp⟩
    | driver => exact ⟨false, by rfl, by simp, by simp⟩

/-- The fault of the agent whose turn it is stands where that agent stands. -/
theorem fault_place {s : State} {g : Nat} {rest} (c : FaultCode) (w : Word) (b : Bool) (hn : s.hasNext g = true) :
   FaultAt ((s.dispatched g rest).raise c w g b) ⟨c, g, s.opidxOf g, s.wordOf g, w⟩ := by
  obtain ⟨a, ha, hlt⟩ := (hasNext_iff s g).1 hn
  refine ⟨a, ?_, ?_, ?_⟩
  · show ((s.dispatched g rest).raise c w g b).agent? g = _
    rw [← ha]; cases g <;> rfl
  · simp [State.opidxOf, ha]
  · have := wordOf_eq ha hlt
    simpa [State.opidxOf, ha] using this

/-! ### The driver's registers -/

/-- Once `INITED` is 1, every register a driver op reads has been written (R29, U21). -/
def Written (s : State) : Prop :=
  s.inited = true → s.cfgEn.isSome = true ∧ s.cfgBri.isSome = true ∧ s.colonCache.isSome = true

/-- A sequence writes none of the driver's registers. -/
theorem run_regs (ms : List Micro) (s : State) :
    (run ms s).cfgEn = s.cfgEn ∧ (run ms s).cfgBri = s.cfgBri ∧ (run ms s).colonCache = s.colonCache ∧
    (run ms s).inited = s.inited := by
  refine run_keeps (P := fun t => t.cfgEn = s.cfgEn ∧ t.cfgBri = s.cfgBri ∧ t.colonCache = s.colonCache ∧
    t.inited = s.inited) ?_ ?_ ?_ ?_ ?_ ?_ ?_ ms s ⟨rfl, rfl, rfl, rfl⟩
  · intro t h
    rw [gap_gapOnly t]
    exact h
  · intro t h
    exact h
  · intro l v t h
    cases l <;> exact h
  · intro l d t h
    cases l <;> exact h
  · intro t h
    exact h
  · intro t h
    unfold sampleEvent State.useDraw
    split <;> exact h
  · intro t h
    exact h

theorem run_written (ms : List Micro) {s : State} (h : Written s) : Written (run ms s) := by
  obtain ⟨h1, h2, h3, h4⟩ := run_regs ms s
  unfold Written
  rw [h1, h2, h3, h4]
  exact h

theorem colon_written {s : State} (c : Byte) (h : Written s) : Written { s with colonCache := some c } :=
  fun hi => ⟨(h hi).1, (h hi).2.1, rfl⟩

theorem en_written {s : State} (b : Bool) (h : Written s) : Written { s with cfgEn := some b } :=
  fun hi => ⟨rfl, (h hi).2⟩

theorem bri_written {s : State} (b : BitVec 3) (h : Written s) : Written { s with cfgBri := some b } :=
  fun hi => ⟨(h hi).1, rfl, (h hi).2.2⟩

theorem assign_written (f : State → State) {s : State} (h : Written s) (hf : Written s → Written (f s)) :
    Written (assign f s) := by
  unfold assign
  split
  · exact h
  · exact hf h

theorem dchar_written (pos pat : Byte) {s : State} (h : Written s) : Written (dcharSeq pos pat s) := by
  have h1 := run_written (dsegSeq pos (withColon pos pat s.colonValue)) h
  unfold dcharSeq
  dsimp only
  generalize run (dsegSeq pos (withColon pos pat s.colonValue)) s = u at h1
  split
  · exact assign_written _ h1 (colon_written _)
  · exact h1

theorem dchars_written (k : Nat) (ps : List Byte) {s : State} (h : Written s) : Written (dcharsFrom k ps s) := by
  induction ps generalizing k s with
  | nil => exact h
  | cons p ps ih => exact ih _ (dchar_written _ p h)

theorem advance_written {s : State} (g n : Nat) (h : Written s) : Written (s.advance g n) := by
  cases g <;> exact h

theorem complete_written (m : Mnemonic) {s : State} (h : Written s) : Written (complete m s) := by
  have h1 : Written { s with midOp := false } := h
  have h2 : Written { s with busy := false, midOp := false } := h
  unfold complete
  split
  · exact h
  · split
    · exact advance_written _ _ h1
    · exact advance_written _ _ h1
    · exact advance_written _ _ h2
    · exact advance_written _ _ h2

theorem enter_written (m : Mnemonic) {s : State} (h : Written s) : Written (enter m s) := by
  unfold enter
  split <;> exact h

theorem opCycle_written {m : Mnemonic} {body : State → State} {s t : State} (h : Written s)
    (hb : ∀ u, Written u → Written (body u)) (e : opCycle m body s = .next t) : Written t := by
  unfold opCycle at e
  split at e
  · cases e
    exact h
  · cases e
    exact complete_written m (hb _ (enter_written m h))

theorem init_written (en : Bool) (bri : Int) {u : State} (h : Written u) :
    Written (assign (fun t => { t with inited := true }) (ctrlSeq (assign (initRegs en bri) (run initLines u)))) := by
  have h1 := run_written initLines h
  generalize run initLines u = v at h1
  by_cases hf : v.isFaulted = true
  · rw [assign_faulted _ hf]
    have hc : ctrlSeq v = v := run_faulted _ hf
    rw [hc, assign_faulted _ hf]
    exact h1
  · have hf' : v.fault = none := by simpa using hf
    rw [assign_clear _ hf']
    have hall : ∀ w : State, w.cfgEn = some en → w.cfgBri = some (clamp bri) → w.colonCache = some 0x00 → Written w := by
      intro w a1 a2 a3 _
      rw [a1, a2, a3]
      exact ⟨rfl, rfl, rfl⟩
    obtain ⟨r1, r2, r3, r4⟩ := run_regs
      (sendCmdSeq (ctrlByte (initRegs en bri v).cfgEnValue (initRegs en bri v).cfgBriValue)) (initRegs en bri v)
    change (ctrlSeq (initRegs en bri v)).cfgEn = _ at r1
    change (ctrlSeq (initRegs en bri v)).cfgBri = _ at r2
    change (ctrlSeq (initRegs en bri v)).colonCache = _ at r3
    generalize ctrlSeq (initRegs en bri v) = w at r1 r2 r3
    exact assign_written _ (hall w r1 r2 r3) (fun _ => hall { w with inited := true } r1 r2 r3)

/-- Every op keeps the driver's registers written. -/
theorem exec_written {i : Instr} {s t : State} (h : Written s) (e : exec i s = .next t) : Written t := by
  have hraise : ∀ (m : Mnemonic) (c : Byte),
      opCycle m (fun t => t.raise .unencodable (c.zeroExtend 32) t.cur s.busy) s = .next t → Written t :=
    fun m c e => opCycle_written (body := fun t => t.raise .unencodable (c.zeroExtend 32) t.cur s.busy) h
      (fun u hu => hu) e
  cases i
  case encode c =>
    simp only [exec, execEncode, Host.Outcome.next.injEq] at e
    subst e
    unfold encodeBy
    split
    · exact h
    · rename_i p _
      have hp : Written { s with pat := some p } := h
      exact advance_written _ _ hp
  case dchar pos c =>
    simp only [exec, execDchar] at e
    split at e
    · exact hraise _ _ e
    · exact opCycle_written h (fun u hu => dchar_written _ _ hu) e
  case dstr c0 c1 c2 c3 =>
    simp only [exec, execDstr] at e
    split at e
    · exact hraise _ _ e
    · exact opCycle_written h (fun u hu => dchars_written _ _ hu) e
  case dint n =>
    simp only [exec, execDint] at e
    split at e
    · exact hraise _ _ e
    · exact opCycle_written h (fun u hu => dchars_written _ _ hu) e
  case init en bri =>
    simp only [exec, execInit] at e
    exact opCycle_written h (fun u hu => init_written en bri hu) e
  case dcolon v =>
    simp only [exec, execDcolon] at e
    exact opCycle_written h (fun u hu => run_written _ (colon_written _ hu)) e
  case enable on =>
    simp only [exec, execEnable] at e
    exact opCycle_written h (fun u hu => run_written _ (en_written on hu)) e
  case setbri v =>
    simp only [exec, execSetbri] at e
    exact opCycle_written h (fun u hu => run_written _ (bri_written _ hu)) e
  all_goals
    simp only [exec, execSetclk, execSetdio, execSetdir, execWait, execSample, execStart, execStop, execWrbyte,
      execSendcmd, execDseg, execClear] at e
    exact opCycle_written h (fun u hu => run_written _ hu) e

end Sys2Proof.Machine
end

