-- ==== Sys2Proof/Laws/PerInstr.lean ====
section
/-! SUPPORT. One lemma per op about its words (R48 to R53): word 0 of its encoding selects its own row, and it has as many
words as the row says. -/

namespace Sys2Proof.Laws.Words

/-- Word 0 of the op selects its row (R51, R53), and the row gives the number of its words (R49, R52). -/
def Statement (i : Instr) : Prop :=
  selectRow (encodeWord0 i) = some i.mnemonic ∧ (encode i).length = i.mnemonic.row.words

/-- A word selects a row exactly when it matches it. -/
theorem select_of_fields {w : Word} {m : Mnemonic}
    (h : opcField w = m.row.opc ∧ aField w &&& m.aMask = 0 ∧ bField w &&& m.bMask = 0) : selectRow w = some m := by
  unfold selectRow
  rw [(ofOpc_iff _ m).2 h.1]
  exact if_pos ((matches_iff w m).2 h)

/-- The words of an op whose fields are given. -/
theorem select_opWord {m : Mnemonic} {a : Byte} {b : BitVec 16} (ha : a &&& m.aMask = 0) (hb : b &&& m.bMask = 0) :
    selectRow (opWord m.row.opc a b) = some m :=
  select_of_fields (by rw [opcField_opWord, aField_opWord, bField_opWord]; exact ⟨rfl, ha, hb⟩)

/-- A byte operand leaves the reserved bits of field `B` clear. -/
theorem byteB_reserved (v : Byte) : byteB v &&& 0xFF00 = 0 := by
  revert v
  decide +kernel

theorem setclk (v : Bool) : Statement (.setclk v) :=
  ⟨by cases v <;> decide, rfl⟩

theorem setdio (v : Bool) : Statement (.setdio v) :=
  ⟨by cases v <;> decide, rfl⟩

theorem setdir (l : Line) (d : Dir) : Statement (.setdir l d) :=
  ⟨by cases l <;> cases d <;> decide, rfl⟩

theorem wait : Statement .wait :=
  ⟨by decide, rfl⟩

theorem sample : Statement .sample :=
  ⟨by decide, rfl⟩

theorem start : Statement .start :=
  ⟨by decide, rfl⟩

theorem stop : Statement .stop :=
  ⟨by decide, rfl⟩

theorem wrbyte (b : Byte) : Statement (.wrbyte b) :=
  ⟨select_opWord (m := .WRBYTE) rfl (byteB_reserved b), rfl⟩

theorem sendcmd (b : Byte) : Statement (.sendcmd b) :=
  ⟨select_opWord (m := .SENDCMD) rfl (byteB_reserved b), rfl⟩

theorem encode (c : Byte) : Statement (.encode c) :=
  ⟨select_opWord (m := .ENCODE) rfl (byteB_reserved c), rfl⟩

theorem init (en : Bool) (bri : Int) : Statement (.init en bri) :=
  ⟨select_opWord (m := .INIT) (by cases en <;> decide) BitVec.and_zero, rfl⟩

theorem dseg (pos : Byte) (pat : Byte) : Statement (.dseg pos pat) :=
  ⟨select_opWord (m := .DSEG) BitVec.and_zero (byteB_reserved pat), rfl⟩

theorem dchar (pos : Byte) (c : Byte) : Statement (.dchar pos c) :=
  ⟨select_opWord (m := .DCHAR) BitVec.and_zero (byteB_reserved c), rfl⟩

theorem dcolon (v : Bool) : Statement (.dcolon v) :=
  ⟨by cases v <;> decide, rfl⟩

theorem dstr (c0 : Byte) (c1 : Byte) (c2 : Byte) (c3 : Byte) : Statement (.dstr c0 c1 c2 c3) :=
  ⟨select_opWord (m := .DSTR) rfl rfl, rfl⟩

theorem dint (n : Int) : Statement (.dint n) :=
  ⟨select_opWord (m := .DINT) rfl BitVec.and_zero, rfl⟩

theorem clear : Statement .clear :=
  ⟨by decide, rfl⟩

theorem enable (v : Bool) : Statement (.enable v) :=
  ⟨by cases v <;> decide, rfl⟩

theorem setbri (v : Int) : Statement (.setbri v) :=
  ⟨select_opWord (m := .SETBRI) rfl BitVec.and_zero, rfl⟩

end Sys2Proof.Laws.Words
end

