-- ==== Sys2Proof/Laws/Table.lean ====
section
/-! SUPPORT. Facts about what the ops compute from their operands: the encoder table (R80, R82), the colon bit (R87,
R92), position masks (R84) and the strings of DSTR (R93). -/

namespace Sys2Proof.Machine

theorem maskPos_toNat (pos : Byte) : (maskPos pos).toNat = pos.toNat % 4 := Nat.and_two_pow_sub_one_eq_mod pos.toNat 2

/-- Every pattern of the table has bit 7 clear (R82). -/
theorem rom_bit7 {l : Launch} {c p : Byte} (h : rom l c = some p) : p.getLsbD 7 = false := by
  have hd : ∀ k : Fin 10, (digitPatterns[k]).getLsbD 7 = false := by decide
  have hc : ∀ q : BitVec 7, (clearBit7 q).getLsbD 7 = false := fun q => by
    simp only [clearBit7, BitVec.getLsbD_append]
    rfl
  unfold rom at h
  split_ifs at h with h1 h2 h3 <;> cases h
  · exact hd ⟨c.toNat - 0x30, by omega⟩
  · exact hc _
  · exact hc _
  · rfl
  · rfl
  · rfl
  · exact hc _
  · exact hc _
  · exact hc _

theorem byte_bits_cases {i : Nat} (h : i < 8) :
    i = 0 ∨ i = 1 ∨ i = 2 ∨ i = 3 ∨ i = 4 ∨ i = 5 ∨ i = 6 ∨ i = 7 := by omega

/-- A pattern with bit 7 clear is its glyph bits. -/
theorem glyph_of_bit7 {p : Byte} (h : p.getLsbD 7 = false) : p &&& 0x7F = p := by
  have h' : p[7] = false := h
  apply BitVec.eq_of_getLsbD_eq
  intro i hi
  rcases byte_bits_cases hi with rfl | rfl | rfl | rfl | rfl | rfl | rfl | rfl <;> simp [h']

/-- Merging the cached colon bit keeps the glyph (R87). -/
theorem glyph_withColon {p : Byte} (c : Byte) (h : p.getLsbD 7 = false) : withColon 1 p c &&& 0x7F = p := by
  apply BitVec.eq_of_getLsbD_eq
  intro i hi
  have h' : p[7] = false := h
  unfold withColon
  rcases byte_bits_cases hi with rfl | rfl | rfl | rfl | rfl | rfl | rfl | rfl <;> simp [h']

/-- Merging the cached colon bit keeps the colon (R87). -/
theorem colon_withColon {p : Byte} (c : Byte) (h : p.getLsbD 7 = false) :
    (withColon 1 p c).getLsbD 7 = c.getLsbD 7 := by
  have h' : p[7] = false := h
  simp [withColon, h']

theorem colonSet_colon (c : Byte) (on : Bool) : (colonSet c on).getLsbD 7 = on := by
  cases on <;> simp [colonSet]

theorem colonSet_glyph (c : Byte) (on : Bool) {k : Nat} (hk : k < 7) : (colonSet c on).getLsbD k = c.getLsbD k := by
  rcases byte_bits_cases (show k < 8 by omega) with rfl | rfl | rfl | rfl | rfl | rfl | rfl | rfl <;>
    cases on <;> simp [colonSet] at *

/-- Four table reads that all give a pattern. -/
theorem romAll_four {l : Launch} {a b c d pa pb pc pd : Byte} (h0 : rom l a = some pa) (h1 : rom l b = some pb)
    (h2 : rom l c = some pc) (h3 : rom l d = some pd) : romAll l [a, b, c, d] = .ok [pa, pb, pc, pd] := by
  simp [romAll, h0, h1, h2, h3]

/-- The four characters DSTR shows (R49, R93): a blank from the first 0x00 on. -/
theorem padString_four (c0 c1 c2 c3 : Byte) : padString [c0, c1, c2, c3] =
    [if c0 = 0 then 0x20 else c0, if c0 = 0 ∨ c1 = 0 then 0x20 else c1,
      if c0 = 0 ∨ c1 = 0 ∨ c2 = 0 then 0x20 else c2, if c0 = 0 ∨ c1 = 0 ∨ c2 = 0 ∨ c3 = 0 then 0x20 else c3] := by
  simp only [padString]
  by_cases h0 : c0 = 0 <;> by_cases h1 : c1 = 0 <;> by_cases h2 : c2 = 0 <;> by_cases h3 : c3 = 0 <;>
    simp only [h0, h1, h2, h3, if_true, if_false, or_true, true_or, or_self, List.map_cons, List.map_nil]

/-- A position that holds a character's pattern, whatever its colon bit, renders it (R115). -/
theorem renders_of {l : Launch} {rx : Rx} {p : Nat} {c d pat : Byte} (h : rx.dispAt p = some d)
    (hr : rom l c = some pat) (hd : d &&& 0x7F = pat) : renders l rx p c = true := by
  simp only [renders, Rx.glyphAt, h, hr, Option.map_some, hd, decide_true]

/-! ### What the display lights (R115) -/

/-- A display that is on lights what it holds. -/
theorem lit_on {α : Type} [DecidableEq α] {rx : Rx} (dark : α) (held : Option α) (h : rx.dctrlEn = some true) :
    rx.lit dark held = held := by
  simp only [Rx.lit, Rx.displayOn, h]

/-- A display that is off lights nothing. -/
theorem lit_off {α : Type} [DecidableEq α] {rx : Rx} (dark : α) (held : Option α) (h : rx.dctrlEn = some false) :
    rx.lit dark held = some dark := by
  simp only [Rx.lit, Rx.displayOn, h]

/-- What is dark as it is held is not lit, whether the display is on or off. -/
@[simp] theorem lit_dark {α : Type} [DecidableEq α] (rx : Rx) (dark : α) : rx.lit dark (some dark) = some dark := by
  unfold Rx.lit
  split <;> simp

/-- A character of a formatted integer has a pattern, and the pattern gives it back (R82). -/
theorem rom_integerChar (l : Launch) {c : Byte} (h : (0x30 ≤ c.toNat ∧ c.toNat ≤ 0x39) ∨ c = 0x2D ∨ c = 0x20) :
    ∃ p, rom l c = some p ∧ glyphChar p = some c := by
  have hd : ∀ k : Fin 10, glyphChar (digitPatterns[k]) = some (BitVec.ofNat 8 (0x30 + k)) := by decide
  rcases h with h | rfl | rfl
  · refine ⟨digitPatterns[c.toNat - 0x30]'(by omega), ?_, ?_⟩
    · unfold rom
      rw [dif_pos h]
    · refine (hd ⟨c.toNat - 0x30, by omega⟩).trans (congrArg some ?_)
      apply BitVec.eq_of_toNat_eq
      simp
      omega
  · exact ⟨0x40, rfl, by decide⟩
  · exact ⟨0x00, rfl, by decide⟩

end Sys2Proof.Machine
end

