-- ==== Sys2Proof/Machine/Assembler.lean ====
section
/-! DEFINITION. The assembly syntax (R55) and the pseudo-instruction TXN (R56): from the text of a program to its ops
and their words. The machine does not use it; a program reaches the machine as words (R34). -/

namespace Sys2Proof.Machine

/-- Why the assembler refuses a line. -/
inductive AsmError where
  | unknownMnemonic
  | wrongOperands
  /-- An immediate that does not fit its field (R55). -/
  | doesNotFit
  deriving DecidableEq, Repr

/-- One operand as it is written (R55). -/
inductive AsmOperand where
  | num (v : Int)
  /-- `'c'`, by its ASCII code. -/
  | chr (code : Nat)
  /-- `CLK`, `DIO`. -/
  | line (l : Line)
  /-- `OUT`, `IN`. -/
  | dir (d : Dir)
  /-- `"..."`, by the ASCII codes. -/
  | str (codes : List Nat)
  deriving DecidableEq, Repr

/-- A blank of the assembly text. -/
def isBlank (c : Char) : Bool := c = ' ' || c = '\t' || c = '\r'

/-- Text without the blanks around it. -/
def trimBlanks (cs : List Char) : List Char := ((cs.dropWhile isBlank).reverse.dropWhile isBlank).reverse

/-- The comma-separated fields of a line's operands, up to a `;` (R55). Commas, semicolons and quotes inside a
character or a string operand are its own; `cur` is the field so far, reversed. -/
def splitFields : (inStr : Bool) → List Char → (cur : List Char) → List (List Char)
  | _, [], cur => [trimBlanks cur.reverse]
  | true, c :: rest, cur => splitFields (c != '"') rest (c :: cur)
  | false, '\'' :: c :: '\'' :: rest, cur => splitFields false rest ('\'' :: c :: '\'' :: cur)
  | false, c :: rest, cur =>
    if c = ';' then [trimBlanks cur.reverse]
    else if c = ',' then trimBlanks cur.reverse :: splitFields false rest []
    else splitFields (c = '"') rest (c :: cur)

/-- The value of a digit character in a base of at most 16. -/
def digitValue (base : Nat) (c : Char) : Option Nat :=
  let n := c.toNat
  let v := if 48 ≤ n ∧ n ≤ 57 then n - 48 else if 65 ≤ n ∧ n ≤ 70 then n - 55 else if 97 ≤ n ∧ n ≤ 102 then n - 87 else 99
  if v < base then some v else none

/-- An unsigned numeral, at least one digit. -/
def readNumeral (base : Nat) : List Char → Option Nat
  | [] => none
  | cs => cs.foldl (fun acc c => acc.bind fun a => (digitValue base c).map (a * base + ·)) (some 0)

/-- One operand (R55): decimal, optionally negative, or 0x hexadecimal; a character; a line; a direction; a string. -/
def readOperand (cs : List Char) : Option AsmOperand :=
  match cs with
  | ['C', 'L', 'K'] => some (.line .clk)
  | ['D', 'I', 'O'] => some (.line .dio)
  | ['O', 'U', 'T'] => some (.dir .out)
  | ['I', 'N'] => some (.dir .inp)
  | ['\'', c, '\''] => if c.toNat < 128 then some (.chr c.toNat) else none
  | '"' :: rest =>
    if rest.getLast? = some '"' ∧ rest.dropLast.all (fun c => decide (c.toNat < 128)) then
      some (.str (rest.dropLast.map Char.toNat))
    else none
  | '0' :: 'x' :: rest => (readNumeral 16 rest).map fun n => .num n
  | '-' :: rest => (readNumeral 10 rest).map fun n => .num (-(n : Int))
  | rest => (readNumeral 10 rest).map fun n => .num n

/-- A bit operand: 0 or 1 (R55). -/
def AsmOperand.bit? : AsmOperand → Except AsmError Bool
  | .num v => if v = 0 then .ok false else if v = 1 then .ok true else .error .doesNotFit
  | _ => .error .wrongOperands

/-- A byte operand: 0 to 0xFF (R55). -/
def AsmOperand.byte? : AsmOperand → Except AsmError Byte
  | .num v => if 0 ≤ v ∧ v ≤ 255 then .ok (BitVec.ofInt 8 v) else .error .doesNotFit
  | _ => .error .wrongOperands

/-- A character operand: a byte, or `'c'` (R55). -/
def AsmOperand.char? : AsmOperand → Except AsmError Byte
  | .chr c => .ok (BitVec.ofNat 8 c)
  | o => o.byte?

/-- An int16 operand (R55); its range is that of `Instr.wf`. -/
def AsmOperand.int? : AsmOperand → Except AsmError Int
  | .num v => .ok v
  | _ => .error .wrongOperands

/-- A line operand: a name or its bit (R50, R55). -/
def AsmOperand.line? : AsmOperand → Except AsmError Line
  | .line l => .ok l
  | o => o.bit?.map fun b => if b then .dio else .clk

/-- A direction operand: a name or its bit (R50, R55). -/
def AsmOperand.dir? : AsmOperand → Except AsmError Dir
  | .dir d => .ok d
  | o => o.bit?.map fun b => if b then .out else .inp

/-- The lanes of a string operand: its first four characters, 0x00 in the lanes it does not fill (R49, R55). -/
def AsmOperand.lanes? : AsmOperand → Except AsmError (Byte × Byte × Byte × Byte)
  | .str cs => .ok (BitVec.ofNat 8 (cs.getD 0 0), BitVec.ofNat 8 (cs.getD 1 0),
      BitVec.ofNat 8 (cs.getD 2 0), BitVec.ofNat 8 (cs.getD 3 0))
  | _ => .error .wrongOperands

/-- The spelling of the mnemonics (R51). -/
def mnemonicNames : List (List Char × Mnemonic) :=
  [("SETCLK".toList, .SETCLK), ("SETDIO".toList, .SETDIO), ("SETDIR".toList, .SETDIR), ("WAIT".toList, .WAIT),
   ("SAMPLE".toList, .SAMPLE), ("START".toList, .START), ("STOP".toList, .STOP), ("WRBYTE".toList, .WRBYTE),
   ("SENDCMD".toList, .SENDCMD), ("ENCODE".toList, .ENCODE), ("INIT".toList, .INIT), ("DSEG".toList, .DSEG),
   ("DCHAR".toList, .DCHAR), ("DCOLON".toList, .DCOLON), ("DSTR".toList, .DSTR), ("DINT".toList, .DINT),
   ("CLEAR".toList, .CLEAR), ("ENABLE".toList, .ENABLE), ("SETBRI".toList, .SETBRI)]

/-- The op of a mnemonic and its operands, in the order of R51's operands column. -/
def asmOp (m : Mnemonic) (ops : List AsmOperand) : Except AsmError Instr :=
  match m, ops with
  | .SETCLK, [v] => v.bit?.map .setclk
  | .SETDIO, [v] => v.bit?.map .setdio
  | .SETDIR, [l, d] => l.line?.bind fun l => d.dir?.map (.setdir l)
  | .WAIT, [] => .ok .wait
  | .SAMPLE, [] => .ok .sample
  | .START, [] => .ok .start
  | .STOP, [] => .ok .stop
  | .WRBYTE, [b] => b.byte?.map .wrbyte
  | .SENDCMD, [b] => b.byte?.map .sendcmd
  | .ENCODE, [c] => c.char?.map .encode
  | .INIT, [e, b] => e.bit?.bind fun e => b.int?.map (.init e)
  | .DSEG, [p, b] => p.byte?.bind fun p => b.byte?.map (.dseg p)
  | .DCHAR, [p, c] => p.byte?.bind fun p => c.char?.map (.dchar p)
  | .DCOLON, [v] => v.bit?.map .dcolon
  | .DSTR, [s] => s.lanes?.map fun (c0, c1, c2, c3) => .dstr c0 c1 c2 c3
  | .DINT, [n] => n.int?.map .dint
  | .CLEAR, [] => .ok .clear
  | .ENABLE, [v] => v.bit?.map .enable
  | .SETBRI, [v] => v.int?.map .setbri
  | _, _ => .error .wrongOperands

/-- The bytes of TXN's operands (R56). -/
def asmBytes : List AsmOperand → Except AsmError (List Byte)
  | [] => .ok []
  | o :: os => o.byte?.bind fun b => (asmBytes os).map (b :: ·)

/-- TXN b0, ..., bk (R56). -/
def asmTxn (ops : List AsmOperand) : Except AsmError (List Instr) :=
  match asmBytes ops with
  | .error e => .error e
  | .ok [] => .error .wrongOperands
  | .ok (b :: bs) => .ok (txn b bs)

/-- The operands of a line, or the refusal of one that cannot be read. -/
def asmOperands : List (List Char) → Except AsmError (List AsmOperand)
  | [] => .ok []
  | f :: fs =>
    match readOperand f with
    | none => .error .wrongOperands
    | some o => (asmOperands fs).map (o :: ·)

/-- One line of assembly (R55): no op for a blank line or a comment, one op for a mnemonic, k + 3 for TXN. -/
def assembleLine (line : List Char) : Except AsmError (List Instr) :=
  let text := line.dropWhile isBlank
  let isPlain := fun c => !isBlank c && c != ';'
  let name := text.takeWhile isPlain
  let fields := splitFields false (text.dropWhile isPlain) []
  let fields := if fields = [[]] then [] else fields
  if name = [] then (if fields = [] then .ok [] else .error .unknownMnemonic)
  else
    match asmOperands fields with
    | .error e => .error e
    | .ok ops =>
      if name = "TXN".toList then asmTxn ops
      else
        match mnemonicNames.lookup name with
        | none => .error .unknownMnemonic
        | some m =>
          match asmOp m ops with
          | .error e => .error e
          | .ok i => if i.wf then .ok [i] else .error .doesNotFit

/-- The lines of a text. -/
def splitLines : List Char → (cur : List Char) → List (List Char)
  | [], cur => [cur.reverse]
  | c :: rest, cur => if c = '\n' then cur.reverse :: splitLines rest [] else splitLines rest (c :: cur)

/-- The ops of a list of lines, in order. -/
def assembleLines : List (List Char) → Except AsmError (List Instr)
  | [] => .ok []
  | l :: ls => (assembleLine l).bind fun is => (assembleLines ls).map (is ++ ·)

/-- The op stream of a program (R34, R55). -/
def assemble (text : String) : Except AsmError (List Word) :=
  (assembleLines (splitLines text.toList [])).map (·.flatMap encode)

end Sys2Proof.Machine
end

