-- ==== Sys2Proof/Tests/Slice0.lean ====
section
/-! SUPPORT. The model's own tests. Expected values are the spec's: spec/30_encoding.md for the words,
spec/95_test_vectors.md for the steps (the table of each is named). Then one witness for the hypotheses of each
statement of Certificates/Slice0/Obligations.lean. -/

namespace Sys2Proof.Tests

open Sys2Proof.Machine

/-! ### Well-formedness (R50, R55) -/

theorem test_wf_init : (Instr.init true 32768).wf = false ∧ (Instr.init true (-32769)).wf = false ∧
    (Instr.init true 32767).wf = true ∧ (Instr.init false (-32768)).wf = true := by decide

theorem test_wf_dint : (Instr.dint 32768).wf = false ∧ (Instr.dint (-32769)).wf = false ∧
    (Instr.dint 32767).wf = true ∧ (Instr.dint (-32768)).wf = true := by decide

theorem test_wf_setbri : (Instr.setbri 32768).wf = false ∧ (Instr.setbri (-32769)).wf = false ∧
    (Instr.setbri 9).wf = true := by decide

/-! ### Decoding: words written out from R48 to R51 -/

theorem test_decode_setclk : decodeTableWord 32 0b00000001_00000000_0000000000000001 = some (.setclk true) := by decide
theorem test_decode_setdio : decodeTableWord 32 0b00000010_00000000_0000000000000000 = some (.setdio false) := by decide
theorem test_decode_setdir_dio : decodeTableWord 32 0b00000011_00000001_0000000000000000 = some (.setdir .dio .inp) := by
  decide
theorem test_decode_setdir_clk : decodeTableWord 32 0b00000011_00000000_0000000000000001 = some (.setdir .clk .out) := by
  decide
theorem test_decode_wait : decodeTableWord 32 0b00000100_00000000_0000000000000000 = some .wait := by decide
theorem test_decode_sample : decodeTableWord 32 0b00000101_00000000_0000000000000000 = some .sample := by decide
theorem test_decode_start : decodeTableWord 32 0b00010000_00000000_0000000000000000 = some .start := by decide
theorem test_decode_stop : decodeTableWord 32 0b00010001_00000000_0000000000000000 = some .stop := by decide
theorem test_decode_wrbyte : decodeTableWord 32 0b00010010_00000000_0000000001000000 = some (.wrbyte 0x40) := by decide
theorem test_decode_sendcmd : decodeTableWord 32 0b00010011_00000000_0000000010001111 = some (.sendcmd 0x8F) := by decide
theorem test_decode_encode : decodeTableWord 32 0b00100000_00000000_0000000000110111 = some (.encode 0x37) := by decide
theorem test_decode_init : decodeTableWord 32 0b00110000_00000001_1111111111111111 = some (.init true (-1)) := by decide
theorem test_decode_dseg : decodeTableWord 32 0b00110001_00000101_0000000010000000 = some (.dseg 5 0x80) := by decide
theorem test_decode_dchar : decodeTableWord 32 0b00110010_00000001_0000000000110101 = some (.dchar 1 0x35) := by decide
theorem test_decode_dcolon : decodeTableWord 32 0b00110011_00000000_0000000000000001 = some (.dcolon true) := by decide
theorem test_decode_dstr :
    decodeTableWord 64 0b01100100_01100011_01100010_01100001_00110100_00000000_0000000000000000 =
      some (.dstr 0x61 0x62 0x63 0x64) := by decide +kernel
theorem test_decode_dint : decodeTableWord 32 0b00110101_00000000_1111111111010110 = some (.dint (-42)) := by decide
theorem test_decode_clear : decodeTableWord 32 0b00110110_00000000_0000000000000000 = some .clear := by decide
theorem test_decode_enable : decodeTableWord 32 0b00110111_00000000_0000000000000000 = some (.enable false) := by decide
theorem test_decode_setbri : decodeTableWord 32 0b00111000_00000000_1000000000000000 = some (.setbri (-32768)) := by decide

/-- Table L2.1: the words that are no op. -/
theorem test_decode_illegal : [0x00000000, 0x06000000, 0xFF000000, 0x01000002, 0x03020001, 0x12000140, 0x30030007,
    0x34000001].map selectRow = List.replicate 8 none := by decide

/-- R55's examples, and R56. -/
theorem test_assemble_examples :
    (match assemble "SETDIR DIO, IN\nWRBYTE 0x40\nINIT 1, 7 ; comment\nDCHAR 1, '5'\nDINT -42\nDSTR \"ab\"\nTXN 0xC0, 0x3F" with
      | .ok ws => decide (ws = [0x03010000, 0x12000040, 0x30010007, 0x32010035, 0x3500FFD6, 0x34000000, 0x00006261,
          0x10000000, 0x120000C0, 0x1200003F, 0x11000000])
      | .error _ => false) = true := by decide +kernel

theorem test_assemble_refuses :
    (match assemble "WRBYTE 256", assemble "SETCLK 2", assemble "DINT 32768" with
      | .error a, .error b, .error c => decide (a = .doesNotFit ∧ b = .doesNotFit ∧ c = .doesNotFit)
      | _, _, _ => false) = true := by decide +kernel

/-! ### States to test in -/

/-- Parameters: no pull-up, and the illustrative letters of spec/93_implementation_defined.md G11. -/
def params : Launch where
  extPullup := false
  irqMasked := false
  letterPattern := #v[0x77, 0x7C, 0x39, 0x5E, 0x79, 0x71, 0x3D, 0x76, 0x30, 0x1E, 0x75, 0x38, 0x15, 0x54, 0x3F, 0x73, 0x67,
    0x50, 0x6D, 0x78, 0x3E, 0x1C, 0x2A, 0x76, 0x6E, 0x5B]
  punctEq := 0x48
  punctApos := 0x02
  punctComma := 0x04
  tDelay := 5
  tMin := 5

/-- S0 of spec/95_test_vectors.md, under `RX_ALWAYS_ACKS`. -/
def s0 : State :=
  { State.reset with
    clkOut := false, dioOut := false, launch := params, rx := { Rx.reset with shift := 0, ackPlan := .always } }

/-- A receiver on high levels, synchronised and outside a frame. -/
def rxIdle : Rx :=
  { Rx.reset with
    shift := 0, ackPlan := .always, sync := true, dctrlEn := some true, dctrlBri := some 7, pclk := .bit true,
    pdio := .bit true }

/-- The state the row [I17] of table L2.8 describes, its trace left out. -/
def ready : State :=
  { s0 with
    clkOut := true, dioOut := true, clkDir := some .out, dioDir := some .out, ack := some true, smp := some false,
    cfgEn := some true, cfgBri := some 7, colonCache := some 0x00, inited := true, rx := rxIdle }

/-- `ready` with another colon cache. -/
def readyColon (c : Byte) : State := { ready with colonCache := some c }

/-- `ready` after START: a frame is open. -/
def framed : State :=
  { ready with
    dioOut := false, rx := { rxIdle with frame := true, pdio := .bit false, dctrlEn := none, dctrlBri := none } }

/-- `framed` after a first byte: command c, mode m, pointer p. -/
def framedAt (c : RxCmd) (m : Option RxMode) (p : Option Nat) : State :=
  { framed with rx := { framed.rx with nbyte := 1, cmd := c, mode := m, ptr := p } }

/-- The step answers a next state with this `FAULT`, of which p holds. -/
def ends (o : Host.Outcome State Fault Refusal) (f : Option FaultRecord) (p : State → Bool) : Bool :=
  match o with
  | .next t => decide (t.fault = f) && p t
  | .fault _ => false
  | .refused _ => false

/-! ### One step of each op -/

/-- Table L2.3, first row. -/
theorem test_setdir_clk : ends (exec (.setdir .clk .out) { s0 with clkOut := true }) none (fun t =>
      t.clkDir == some .out && t.clkBus == .bit true && t.trace == [.dir .clk .out]) = true := by decide +kernel

/-- Table L2.3: SETDIR CLK,IN after INIT desynchronises. -/
theorem test_setdir_clk_in : ends (exec (.setdir .clk .inp) ready) none (fun t =>
      t.clkBus == .unknown && t.rx.sync == false && t.rx.dctrlEn == none) = true := by decide +kernel

/-- Table L2.3: SETCLK 1 with an unwritten direction. -/
theorem test_setclk : ends (exec (.setclk true) s0) none (fun t =>
      t.clkOut == true && t.clkBus == .unknown && t.trace == [.lat .clk true] && t.fg.opidx == 1) = true := by
  decide +kernel

/-- Table L2.3: the start condition. -/
theorem test_setdio_start : ends (exec (.setdio false) { ready with rx := { rxIdle with sync := false } })
    none (fun t =>
      t.rx.sync == true && t.rx.frame == true && t.dioBus == .bit false) = true := by decide +kernel

/-- Table L2.3: the stop condition. -/
theorem test_setdio_stop : ends (exec (.setdio true) framed) none (fun t =>
      t.rx.sync == true && t.rx.frame == false) = true := by decide +kernel

/-- Table L2.3: WAIT. -/
theorem test_wait : ends (exec .wait s0) none (fun t =>
      t.trace == [.wait] && t.clkOut == false && t.rx.steps == 1 && t.rx.sync == false) = true := by decide +kernel

/-- Table L2.3: SAMPLE of an input line held high by the host's pull-up. -/
theorem test_sample_pullup : ends (exec .sample { s0 with dioDir := some .inp, dioOut := true }) none (fun t =>
      t.smp == some true && t.trace == [.smp true]) = true := by decide +kernel

/-- Table L2.3: SAMPLE of a floating line takes a draw. -/
theorem test_sample_draw : ends (exec .sample { s0 with dioDir := some .inp, smpTape := [true, false] })
    none (fun t =>
      t.dioBus == .float && t.smp == some true && t.smpTape == [false]) = true := by decide +kernel

/-- Table L2.4, START. -/
theorem test_start : ends (exec .start ready) none (fun t =>
      t.trace == [.lat .dio true, .lat .clk true, .wait, .lat .dio false] && t.clkOut == true && t.dioOut == false &&
      t.rx.frame == true && t.rx.bits == 0 && t.busy == false) = true := by
  decide +kernel

/-- Table L2.9: START refused while DIO is IN. -/
theorem test_start_lines : ends (exec .start { ready with dioDir := some .inp, fg := ⟨[0x10000000], 0⟩ })
    (some ⟨.linesNotOutput, 0, 0, 0x10000000, 0x10000000⟩) (fun t =>
      t.trace.length == 0 && t.busy == false) = true := by decide +kernel

/-- Table L2.4, STOP. -/
theorem test_stop : ends (exec .stop { framed with clkOut := false, rx := { framed.rx with pclk := .bit false } })
    none (fun t =>
      t.trace == [.lat .clk false, .wait, .lat .dio false, .wait, .lat .clk true, .wait, .lat .dio true] &&
      t.clkOut == true && t.dioOut == true && t.rx.frame == false && t.rx.bits == 0) = true := by decide +kernel

/-- Table L2.4, WRBYTE 0x40, acknowledged: events 41 to 52 and the end. -/
theorem test_wrbyte_ack : ends (exec (.wrbyte 0x40) framed) none (fun t =>
      t.trace.drop 40 == [.lat .clk false, .dir .dio .inp, .lat .dio true, .wait, .smp false, .lat .dio false, .wait,
        .lat .clk true, .wait, .lat .clk false, .wait, .dir .dio .out] &&
      t.ack == some true && t.smp == some false && t.dioOut == false && t.rx.nbyte == 1 &&
      t.rx.mode == some .autoinc && t.rx.received == [(0x40, true)]) = true := by decide +kernel

/-- Table L2.4, WRBYTE 0x40, not acknowledged: 51 events, bit 6 at event 33, and the end. -/
theorem test_wrbyte_nack : ends (exec (.wrbyte 0x40) { framed with rx := { framed.rx with ackPlan := .tape [false] } })
    none (fun t =>
      t.trace.length == 51 && t.trace[32]? == some (.lat .dio true) && t.ack == some false && t.smp == some true &&
      t.dioOut == true && t.rx.sync == false) = true := by decide +kernel

/-- Table L2.4: SENDCMD 0x40 after INIT. -/
theorem test_sendcmd : ends (exec (.sendcmd 0x40) ready) none (fun t =>
      t.trace.length == 63 && t.trace.count .wait == 24 && t.ack == some true && t.rx.mode == some .autoinc &&
      t.clkOut == true && t.dioOut == true) = true := by decide +kernel

/-- Table L2.4: SENDCMD 0x00 desynchronises, acknowledged. -/
theorem test_sendcmd_unknown : ends (exec (.sendcmd 0x00) ready) none (fun t =>
      t.ack == some true && t.rx.sync == false) = true := by decide +kernel

/-- Table L2.6. -/
theorem test_encode : ends (exec (.encode 0x35) s0) none (fun t =>
      t.pat == some 0x6D && t.trace == [] && t.fg.opidx == 1) = true := by decide +kernel

/-- Table L2.6: a code outside the table. -/
theorem test_encode_unencodable : ends (exec (.encode 0x21) { s0 with fg := ⟨[0x20000021], 0⟩ })
    (some ⟨.unencodable, 0, 0, 0x20000021, 0x21⟩) (fun t =>
      t.pat == none && t.fg.opidx == 0) = true := by decide +kernel

/-- Table L2.8, [I17]. -/
theorem test_init : ends (exec (.init true 7) s0) none (fun t =>
      t.trace.length == 67 && t.clkBus == .bit true && t.dioBus == .bit true && t.cfgBri == some 7 &&
      t.colonCache == some 0x00 && t.inited == true && t.rx.dctrlBri == some 7 && t.rx.mode == none &&
      t.rx.received == [(0x8F, true)]) = true := by decide +kernel

/-- Table L2.7: INIT 1,-1; table L2.10: INIT alone with a nack. -/
theorem test_init_nack : ends (exec (.init true (-1)) { s0 with rx := { s0.rx with ackPlan := .tape [false] } })
    none (fun t =>
      t.trace.length == 66 && t.cfgBri == some 0 && t.inited == true && t.ack == some false && t.rx.sync == false) = true := by
  decide +kernel

/-- Table L2.8, DSEG 5,0x80. -/
theorem test_dseg : ends (exec (.dseg 5 0x80) ready) none (fun t =>
      t.trace.length == 178 && t.rx.dispAt 1 == some 0x80 && t.rx.mode == some .autoinc && t.rx.ptr == some 2 &&
      t.colonCache == some 0x00) = true := by decide +kernel

/-- Table L2.10: DSEG with a nack on the address byte. -/
theorem test_dseg_nack : ends (exec (.dseg 0 0x3F) { ready with rx := { rxIdle with ackPlan := .tape [true, false] } })
    none (fun t =>
      t.trace.length == 176 && t.ack == some false && t.rx.sync == false && t.rx.dispAt 0 == none) = true := by
  decide +kernel

/-- Table L2.8: DCHAR 1,'5' after DCOLON 1. -/
theorem test_dchar_colon : ends (exec (.dchar 1 0x35) (readyColon 0x80)) none (fun t =>
      t.rx.dispAt 1 == some 0xED && t.colonCache == some 0xED) = true := by decide +kernel

/-- Table L2.8: DCHAR 5,'5' after DCOLON 1. -/
theorem test_dchar_unmasked : ends (exec (.dchar 5 0x35) (readyColon 0x80)) none (fun t =>
      t.rx.dispAt 1 == some 0x6D && t.colonCache == some 0x80) = true := by decide +kernel

/-- Table L2.8: DCOLON 0 over 0xFF. -/
theorem test_dcolon : ends (exec (.dcolon false) (readyColon 0xFF)) none (fun t =>
      t.rx.dispAt 1 == some 0x7F && t.colonCache == some 0x7F) = true := by decide +kernel

/-- Table L2.9: DCOLON before INIT. -/
theorem test_dcolon_early : ends (exec (.dcolon true) { s0 with fg := ⟨[0x33000001], 0⟩ })
    (some ⟨.notInitialised, 0, 0, 0x33000001, 0x33000001⟩) (fun t =>
      t.colonCache == none && t.busy == false) = true := by decide +kernel

/-- Table L2.8: DSTR 'a', 0x00, 'c', 'd'. -/
theorem test_dstr : ends (exec (.dstr 0x61 0x00 0x63 0x64) ready) none (fun t =>
      t.rx.disp == #v[some 0x77, some 0x00, some 0x00, some 0x00] && t.fg.opidx == 2 && t.trace.length == 712) = true := by
  decide +kernel

/-- Table L2.8: DSTR "a!". -/
theorem test_dstr_unencodable : ends (exec (.dstr 0x61 0x21 0x00 0x00) { ready with fg := ⟨[0x34000000, 0x2161], 0⟩ })
    (some ⟨.unencodable, 0, 0, 0x34000000, 0x21⟩) (fun t =>
      t.trace.length == 0 && t.busy == false) = true := by
  decide +kernel

/-- Table L2.7: DINT -42. -/
theorem test_dint : ends (exec (.dint (-42)) ready) none (fun t =>
      t.rx.disp == #v[some 0x00, some 0x40, some 0x66, some 0x5B] && t.colonCache == some 0x40) = true := by
  decide +kernel

/-- Table L2.7: the strings of the sentinels and of the numbers at the ends of their range. -/
theorem test_formatInt : formatInt 10000 = [0x45, 0x39, 0x39, 0x39] ∧ formatInt (-1000) = [0x45, 0x2D, 0x39, 0x39] ∧
    formatInt (-999) = [0x2D, 0x39, 0x39, 0x39] ∧ formatInt 9999 = [0x39, 0x39, 0x39, 0x39] ∧
    formatInt 0 = [0x20, 0x20, 0x20, 0x30] ∧ formatInt 100 = [0x20, 0x31, 0x30, 0x30] := by decide +kernel

/-- Table L2.8: CLEAR after DCOLON 1. -/
theorem test_clear : ends (exec .clear (readyColon 0x80)) none (fun t =>
      t.rx.disp == #v[some 0x00, some 0x00, some 0x00, some 0x00] && t.colonCache == some 0x80 &&
      t.trace.length == 712) = true := by decide +kernel

/-- Table L2.8: ENABLE 0. -/
theorem test_enable : ends (exec (.enable false) ready) none (fun t =>
      t.cfgEn == some false && t.cfgBri == some 7 && t.rx.dctrlEn == some false && t.rx.received == [(0x87, true)] &&
      t.trace.length == 63) = true := by decide +kernel

/-- Table L2.7: SETBRI 3 and SETBRI -1. -/
theorem test_setbri : ends (exec (.setbri 3) ready) none (fun t =>
      t.cfgBri == some 3 && t.rx.dctrlBri == some 3 && t.rx.received == [(0x8B, true)]) = true ∧
    ends (exec (.setbri (-1)) ready) none (fun t =>
      t.cfgBri == some 0 && t.rx.received == [(0x88, true)]) = true := by
  decide +kernel

/-- R115: the colon bit and the segments are kept and not lit while the display is off; while it is not known to be on,
only a dark colon is known. -/
theorem test_lit :
    (let rx := { rxIdle with disp := #v[some 0x3F, some 0xED, some 0x00, none] }
     rx.colonBit = some true ∧ rx.colonLit = some true ∧ rx.litSegments 1 = some 0x6D ∧ rx.litSegments 3 = none ∧
      { rx with dctrlEn := some false }.colonBit = some true ∧ { rx with dctrlEn := some false }.colonLit = some false ∧
      { rx with dctrlEn := some false }.litSegments 3 = some 0 ∧ { rx with dctrlEn := none }.colonLit = none ∧
      { rx with dctrlEn := none }.litSegments 2 = some 0) := by decide

/-! ### The op cycle and the agents -/

/-- Table L2.9: INIT twice, found by the step. -/
theorem test_step_init_twice : ends (step { ready with fg := ⟨[0x30010007, 0x30010007], 1⟩ })
    (some ⟨.initTwice, 0, 1, 0x30010007, 0x30010007⟩) (fun t =>
      t.trace.length == 0) = true := by decide +kernel

/-- Table L2.9: LINES_NOT_OUTPUT outranks UNENCODABLE. -/
theorem test_step_order : ends (step { ready with dioDir := some .inp, fg := ⟨[0x32010021], 0⟩ })
    (some ⟨.linesNotOutput, 0, 0, 0x32010021, 0x32010021⟩) (fun t =>
      t.colonCache == some 0x00) = true := by decide +kernel

/-- Table L2.1: TRUNCATED. -/
theorem test_step_truncated : ends (step { ready with fg := ⟨[0x30010007, 0x34000000], 1⟩ })
    (some ⟨.truncated, 0, 1, 0x34000000, 0x34000000⟩) (fun t =>
      t.fg.opidx == 1) = true := by decide +kernel

/-- L2.9, "REENTRANT, with two agents": ten events of DSEG, then agent 1 tries SETCLK. -/
def reentrant (w : Word) : State :=
  { ready with
    fg := ⟨[0x3100003F], 0⟩, irqs := [⟨[w], 0⟩]
    sched := .agent 0 :: List.replicate 9 .proceed ++ [.agent 1] }

theorem test_reentrant : ends (step (reentrant 0x01000000))
    (some ⟨.reentrant, 1, 0, 0x01000000, 0x01000000⟩) (fun t =>
      t.trace.length == 10 && t.busy == true && t.fg.opidx == 0 && t.rx.frame == true && t.rx.bits == 1) = true := by
  decide +kernel

/-- L2.9, "ENCODE during another agent's op". -/
theorem test_encode_during : ends (step (reentrant 0x20000035)) none (fun t =>
      t.pat == some 0x6D && t.irqs.map Agent.opidx == [1] && t.rx.dispAt 0 == some 0x3F && t.trace.length == 178) = true := by
  decide +kernel

/-- R105: the end of a run. -/
theorem test_ended : (match step { ready with fg := ⟨[0x10000000], 1⟩ } with
    | .fault f => decide (f = .ended)
    | .next _ => false
    | .refused _ => false) = true := by decide +kernel

/-- The word the host places is the one the next step runs. -/
theorem test_withFetchWord : ends (step (State.reset.withFetchWord 32 0x04000000)) none (fun t =>
      t.trace == [.wait]) = true := by decide +kernel

/-! ### Witnesses: states and operands that meet the hypotheses of the statements -/

theorem rxIdle_inv : rxIdle.Inv := by
  constructor <;> simp [rxIdle, Rx.reset]

theorem framed_rx_inv (c : RxCmd) (m : Option RxMode) (p : Option Nat) (n : Nat) (hp : ∀ q, p = some q → q ≤ 8)
    (hc : c = .addr → p.isSome = true ∧ m.isSome = true) :
    { framed.rx with nbyte := n, cmd := c, mode := m, ptr := p }.Inv := by
  constructor <;> simp [framed, rxIdle, Rx.reset] <;> assumption

theorem ready_wire : ready.WireInv := by
  refine ⟨rxIdle_inv, rfl, rfl, rfl, ?_, ?_⟩
  · decide
  · intro _ h
    exact absurd rfl (h true)

theorem framed_wire : framed.WireInv := by
  refine ⟨framed_rx_inv .none none none 0 (by simp) (by simp), rfl, rfl, rfl, ?_, ?_⟩
  · decide
  · intro _ h
    exact absurd rfl (h false)

theorem framedAt_wire (c : RxCmd) (m : Option RxMode) (p : Option Nat) (hp : ∀ q, p = some q → q ≤ 8)
    (hc : c = .addr → p.isSome = true ∧ m.isSome = true) : (framedAt c m p).WireInv := by
  refine ⟨framed_rx_inv c m p 1 hp hc, rfl, rfl, rfl, ?_, ?_⟩
  · intro h
    cases h
  · intro _ h
    exact absurd rfl (h false)

theorem ready_restful : ready.restful := ⟨rfl, rfl, rfl⟩
theorem ready_transport : ready.transportReady := ⟨ready_restful, rfl, rfl⟩
theorem ready_driver : ready.driverReady := ⟨ready_transport, rfl⟩
theorem ready_working : ready.workingReceiver := ⟨rfl, by decide⟩

/-- The hypotheses every statement about a driver op with a working receiver shares. -/
theorem ready_all : ready.driverReady ∧ ready.WireInv ∧ ready.workingReceiver ∧ ready.rx.drv = false :=
  ⟨ready_driver, ready_wire, ready_working, rfl⟩

/-- Every well-formed op: the ends of the int16 range and a two-word op. -/
theorem witness_DecodeInvertsEncode : (Instr.dint (-32768)).wf = true ∧ (Instr.setbri 32767).wf = true ∧
    (Instr.dstr 0x61 0 0xFF 0).wf = true := by decide

theorem witness_EncodeInvertsDecode : decode [0x3500FFD6, 0x04000000] = .ok (.dint (-42), [0x04000000]) ∧
    decode [0x34000000, 0xFFFFFFFF] = .ok (.dstr 0xFF 0xFF 0xFF 0xFF, []) := ⟨rfl, rfl⟩

theorem witness_WordSelectsAtMostOneRow : (0x31FF00FF : Word) &&& Mnemonic.DSEG.row.mask = Mnemonic.DSEG.row.pattern ∧
    selectRow 0x34000000 = some .DSTR ∧ selectRow 0x31FF00FF = some .DSEG := by decide

theorem witness_StepRunsDecodedOp :
    (let s := { ready with fg := ⟨[0x04000000], 0⟩, sched := [.agent 0] }
     s.fault = none ∧ decode (s.wordsOf 0) = .ok (.wait, []) ∧ s.sched = .agent 0 :: [] ∧ s.irqs = []) ∧
    (let s := reentrant 0x20000035
     { s with sched := [.agent 1] }.fault = none ∧ decode (s.wordsOf 1) = .ok (.encode 0x35, [])) :=
  ⟨⟨rfl, rfl, rfl, rfl⟩, rfl, rfl⟩

theorem witness_UndecodableWordsFault :
    (let s := { ready with fg := ⟨[0x06000000], 0⟩, sched := [.agent 0] }
     s.fault = none ∧ s.sched = .agent 0 :: [] ∧ s.wordsOf 0 = 0x06000000 :: [] ∧ selectRow 0x06000000 = none) ∧
    (let s := { ready with fg := ⟨[0x34000000], 0⟩, sched := [.agent 0] }
     s.fault = none ∧ s.sched = .agent 0 :: [] ∧ s.wordsOf 0 = 0x34000000 :: []) :=
  ⟨⟨rfl, rfl, rfl, by decide⟩, rfl, rfl, rfl⟩

theorem witness_EntryChecksFaultInOrder :
    (Instr.wait.mnemonic.row.family ≠ .encoder ∧ { ready with busy := true }.busy = true) ∧
    (s0.busy = false ∧ Instr.clear.mnemonic.row.family = .driver ∧ Instr.clear.mnemonic ≠ .INIT ∧ s0.inited = false) ∧
    (ready.busy = false ∧ (Instr.init true 7).mnemonic = .INIT ∧ ready.inited = true) ∧
    (s0.busy = false ∧ Instr.start.mnemonic.row.family = .transport ∧ s0.clkDir ≠ some .out) ∧
    (let s := { ready with dioDir := some .inp }
     s.busy = false ∧ Instr.clear.mnemonic.row.family = .driver ∧ s.inited = true ∧ s.dioDir ≠ some .out) := by decide

theorem witness_UnencodableCharacterFaults :
    (ready.driverReady ∧ rom ready.launch 0x21 = none ∧ rom ready.launch 0x00 = none) ∧
    (padString [0x61, 0x21, 0x3A, 0x00] = [0x61] ++ 0x21 :: [0x3A, 0x20] ∧
      (∀ b ∈ [(0x61 : Byte)], (rom ready.launch b).isSome = true)) :=
  ⟨⟨ready_driver, rfl, rfl⟩, rfl, by decide⟩

theorem witness_FaultsArePrecise :
    (let s := { ready with fg := ⟨[0x30010007, 0x30010007], 1⟩ }
     s.midOp = false ∧ ∃ t r, step s = .next t ∧ t.fault = some r ∧ r.agent = t.cur) :=
  ⟨rfl, _, _, rfl, rfl, rfl⟩

theorem witness_FaultIsFinal : { ready with fault := some ⟨.initTwice, 0, 0, 0, 0⟩ }.fault =
      some ⟨.initTwice, 0, 0, 0, 0⟩ ∧ ∃ t, step { ready with fg := ⟨[0x04000000], 0⟩ } = .next t :=
  ⟨rfl, _, rfl⟩

/-- A foreground op is running and agent 1 has the op w next. -/
def inOp (w : Word) : State := { reentrant w with busy := true, sched := [.agent 1] }

/-- Agent 1 with ENCODE '5', ENCODE '!', SETCLK 0, a word that is no op and a DSTR without its extension word. -/
theorem witness_InterruptAgentAtAGap :
    (∀ w, (inOp w).fault = none ∧ (inOp w).busy = true ∧ (inOp w).cur = 0 ∧ (inOp w).launch.irqMasked = false ∧
      (inOp w).irqs[0]? = some ⟨[w], 0⟩ ∧ [w].drop 0 = w :: [] ∧ (inOp w).sched = .agent 1 :: []) ∧
    { inOp 0x20000035 with sched := [.agent 1, .proceed] }.sched = .agent 1 :: .proceed :: [] ∧
    decode [0x20000035] = .ok (.encode 0x35, []) ∧ rom params 0x35 = some 0x6D ∧
    decode [0x20000021] = .ok (.encode 0x21, []) ∧ rom params 0x21 = none ∧
    decode [0x01000000] = .ok (.setclk false, []) ∧ (Instr.setclk false).mnemonic ≠ .ENCODE ∧
    selectRow 0x06000000 = none :=
  ⟨fun _ => ⟨rfl, rfl, rfl, rfl, rfl, rfl, rfl⟩, rfl, rfl, rfl, rfl, rfl, rfl, by decide, by decide⟩

/-- INIT from power-on, and DSEG from `ready`, with SETCLK 0 of agent 1 after the first event. -/
theorem witness_PreemptedOpStops :
    (let s := { s0 with irqs := [⟨[0x01000000], 0⟩], sched := [.agent 1] }
     s.fault = none ∧ s.busy = false ∧ s.cur = 0 ∧ s.launch.irqMasked = false ∧
      (Instr.init true 7).mnemonic.row.family = .driver ∧ encodable s.launch (.init true 7) = true ∧
      s.inited = false ∧ s.irqs[0]? = some ⟨[0x01000000], 0⟩ ∧ s.sched = [.agent 1]) ∧
    (let s := { reentrant 0x01000000 with sched := [.agent 1] }
     s.fault = none ∧ s.busy = false ∧ s.cur = 0 ∧ s.launch.irqMasked = false ∧
      encodable s.launch (.dchar 1 0x35) = true ∧ s.clkDir = some .out ∧ s.dioDir = some .out ∧ s.inited = true ∧
      s.irqs[0]? = some ⟨[0x01000000], 0⟩ ∧ s.sched = [.agent 1]) :=
  ⟨⟨rfl, rfl, rfl, rfl, rfl, rfl, rfl, rfl, rfl⟩, rfl, rfl, rfl, rfl, rfl, rfl, rfl, rfl, rfl, rfl⟩

theorem witness_MaskedStepFaultsOnlyForItself :
    (let s := { ready with launch := { params with irqMasked := true }, fg := ⟨[0x06000000], 0⟩ }
     s.launch.irqMasked = true ∧ ∃ t r, step s = .next t ∧ t.fault = some r) :=
  ⟨rfl, _, _, rfl, rfl⟩

/-- A step, for the statements about every step. -/
theorem witness_StreamsAndTableNeverWritten : ∃ t, step { ready with fg := ⟨[0x04000000], 0⟩ } = .next t := ⟨_, rfl⟩

theorem witness_OneReceiverStepPerEvent : ∃ t, step { ready with fg := ⟨[0x04000000], 0⟩ } = .next t := ⟨_, rfl⟩

theorem s0_atPowerOn : s0.atPowerOn := ⟨rfl, rfl, by simp [s0, State.reset]⟩

theorem witness_InvariantAtPowerOn : s0.atPowerOn := s0_atPowerOn

theorem witness_StepKeepsInvariant : { ready with fg := ⟨[0x04000000], 0⟩ }.Inv ∧
    ∃ t, step { ready with fg := ⟨[0x04000000], 0⟩ } = .next t := by
  refine ⟨⟨wireInv_of_eq ready_wire rfl rfl rfl rfl, fun _ => ⟨rfl, rfl, rfl⟩, fun _ => ⟨rfl, rfl⟩, ?_, ?_, ?_⟩, _, rfl⟩
  · intro g a h
    cases g with
    | zero =>
      cases h
      decide
    | succ k => cases h
  · intro r h
    cases h
  · intro r h
    cases h

/-- The three kinds of data direction, each with the receiver pulling and not. -/
theorem witness_BusLevels : s0.dioDir = none ∧ ready.dioDir = some .out ∧
    { ready with dioDir := some .inp }.dioDir = some .inp := by decide

theorem witness_LinePrimitivesComplete : s0.restful ∧ ready.restful := ⟨⟨rfl, rfl, rfl⟩, ready_restful⟩

/-- A line with a level, and a floating one with a draw recorded. -/
theorem witness_SampleReadsTheDataLine : ready.restful ∧ ready.dioBus = .bit true ∧
    (let s := { ready with dioDir := some .inp, dioOut := false, smpTape := [true] }
     s.restful ∧ s.dioBus = .float ∧ s.smpTape = true :: []) ∧ ready.WireInv ∧ ready.clkBus ≠ .unknown :=
  ⟨ready_restful, rfl, ⟨⟨rfl, rfl, rfl⟩, rfl, rfl⟩, ready_wire, by decide⟩

theorem witness_WaitChangesNoState : ready.restful ∧ ready.WireInv ∧ ready.clkBus ≠ .unknown :=
  ⟨ready_restful, ready_wire, by decide⟩

/-- Both lines outputs, CLK high, DIO low, and a receiver that has seen no start condition. -/
def unsynced : State :=
  { ready with
    dioOut := false, rx := { Rx.reset with shift := 0, ackPlan := .always, pclk := .bit true, pdio := .bit false } }

theorem unsynced_wire : unsynced.WireInv := by
  refine ⟨?_, rfl, rfl, rfl, fun _ => rfl, fun _ _ => rfl⟩
  constructor <;> simp [unsynced, Rx.reset]

/-- A high data latch before a start condition, a low one in a frame before a stop condition, and a low one before a rise
that an unsynchronised receiver ignores. -/
theorem witness_RawDataEdgesFrameTheReceiver :
    (ready.restful ∧ ready.WireInv ∧ ready.clkDir = some .out ∧ ready.dioDir = some .out ∧ ready.clkOut = true ∧
      ready.rx.drv = false ∧ ready.dioOut = true) ∧
    (framed.restful ∧ framed.WireInv ∧ framed.clkDir = some .out ∧ framed.dioDir = some .out ∧ framed.clkOut = true ∧
      framed.rx.drv = false ∧ framed.dioOut = false ∧ framed.rx.sync = true) ∧
    (unsynced.restful ∧ unsynced.WireInv ∧ unsynced.clkDir = some .out ∧ unsynced.dioDir = some .out ∧
      unsynced.clkOut = true ∧ unsynced.rx.drv = false ∧ unsynced.dioOut = false ∧ unsynced.rx.sync = false) :=
  ⟨⟨ready_restful, ready_wire, rfl, rfl, rfl, rfl, rfl⟩, ⟨⟨rfl, rfl, rfl⟩, framed_wire, rfl, rfl, rfl, rfl, rfl, rfl⟩,
    ⟨rfl, rfl, rfl⟩, unsynced_wire, rfl, rfl, rfl, rfl, rfl, rfl⟩

/-- `framed` with n bits taken, in phase p, the clock at c. -/
def inByte (c : Bool) (p : RxPhase) (n : Nat) (a : Bool) : State :=
  { framed with
    clkOut := c
    rx := { framed.rx with pclk := .bit c, phase := p, bits := n, acked := a, drv := decide (p = .ack) && a } }

theorem inByte_wire (c : Bool) (n : Nat) (hn : n ≤ 8) : (inByte c .data n false).WireInv := by
  refine ⟨?_, by cases c <;> rfl, by cases c <;> rfl, rfl, ?_, ?_⟩
  · constructor <;> simp [inByte, framed, rxIdle, Rx.reset]
    exact hn
  · intro h
    cases c <;> cases h
  · intro _ h
    exact absurd (by cases c <;> rfl) (h false)

theorem inAck_wire (a : Bool) : (inByte true .ack 8 a).WireInv := by
  refine ⟨?_, rfl, by cases a <;> rfl, rfl, ?_, ?_⟩
  · cases a <;> constructor <;> simp [inByte, framed, rxIdle, Rx.reset]
  · intro h
    cases h
  · intro _ h
    exact absurd (by cases a <;> rfl) (h false)

/-- The first and the last data bit, the end of a byte, and both acknowledge bits. -/
theorem witness_RawClockEdgesClockBits :
    (∀ n, n = 0 ∨ n = 7 → (let s := inByte false .data n false
      s.restful ∧ s.WireInv ∧ s.clkDir = some .out ∧ s.dioDir = some .out ∧ s.rx.frame = true ∧ s.clkOut = false ∧
        s.rx.phase = .data ∧ s.rx.bits < 8)) ∧
    (let s := inByte true .data 8 false
     s.restful ∧ s.WireInv ∧ s.clkDir = some .out ∧ s.dioDir = some .out ∧ s.rx.frame = true ∧ s.clkOut = true ∧
      s.rx.phase = .data ∧ s.rx.bits = 8 ∧ s.rx.ackPlan = .always) ∧
    (∀ a, (let s := inByte true .ack 8 a
      s.restful ∧ s.WireInv ∧ s.clkDir = some .out ∧ s.dioDir = some .out ∧ s.rx.frame = true ∧ s.clkOut = true ∧
        s.rx.phase = .ack ∧ s.rx.acked = a)) := by
  refine ⟨?_, ⟨⟨rfl, rfl, rfl⟩, inByte_wire true 8 (by decide), rfl, rfl, rfl, rfl, rfl, rfl, rfl⟩, ?_⟩
  · rintro n (rfl | rfl)
    · exact ⟨⟨rfl, rfl, rfl⟩, inByte_wire false 0 (by decide), rfl, rfl, rfl, rfl, rfl, by decide⟩
    · exact ⟨⟨rfl, rfl, rfl⟩, inByte_wire false 7 (by decide), rfl, rfl, rfl, rfl, rfl, by decide⟩
  · intro a
    exact ⟨⟨rfl, rfl, rfl⟩, inAck_wire a, rfl, rfl, rfl, rfl, rfl, rfl⟩

theorem witness_ClockInputDesynchronises : ready.restful := ready_restful

theorem witness_StartOpensAFrame : ready.transportReady ∧ ready.WireInv ∧ ready.rx.drv = false :=
  ⟨ready_transport, ready_wire, rfl⟩

/-- STOP outside a frame, between bytes, and in a byte of seven bits. -/
theorem witness_StopClosesTheFrame : (ready.transportReady ∧ ready.WireInv ∧ ready.rx.phase = .data ∧ ready.rx.bits < 8) ∧
    (let s := inByte false .data 7 false
     s.transportReady ∧ s.WireInv ∧ s.rx.drv = false ∧ s.rx.phase = .data ∧ s.rx.bits < 8) :=
  ⟨⟨ready_transport, ready_wire, rfl, by decide⟩, ⟨⟨rfl, rfl, rfl⟩, rfl, rfl⟩, inByte_wire false 7 (by decide), rfl, rfl,
    by decide⟩

theorem witness_WrbyteShiftsOutTheByte : ready.transportReady := ready_transport

/-- A receiver that acknowledges, and one that will refuse the byte. -/
theorem witness_WrbyteReachesTheReceiver :
    (framed.transportReady ∧ framed.WireInv ∧ framed.rx.frame = true ∧ framed.rx.phase = .data ∧ framed.rx.bits = 0 ∧
      framed.rx.ackPlan = .always) ∧
    (let s := { framed with rx := { framed.rx with ackPlan := .tape [false] } }
     s.transportReady ∧ s.WireInv ∧ s.rx.frame = true ∧ s.rx.phase = .data ∧ s.rx.bits = 0 ∧ s.rx.ackDraw = false) := by
  refine ⟨⟨⟨⟨rfl, rfl, rfl⟩, rfl, rfl⟩, framed_wire, rfl, rfl, rfl, rfl⟩, ⟨⟨rfl, rfl, rfl⟩, rfl, rfl⟩, ?_, rfl, rfl, rfl, rfl⟩
  obtain ⟨h1, h2, h3, h4, h5, h6⟩ := framed_wire
  exact ⟨h1.of_eq rfl, h2, h3, h4, h5, h6⟩

theorem witness_WrbyteOutsideAFrameIsIgnored : ready.transportReady ∧ ready.WireInv ∧ ready.rx.frame = false :=
  ⟨ready_transport, ready_wire, rfl⟩

/-- The first byte of a frame, with the address mode known and not; and the bytes at the ends of each clause. -/
theorem witness_CommandByteInterpreted :
    (framed.transportReady ∧ framed.WireInv ∧ framed.workingReceiver ∧ framed.rx.frame = true ∧ framed.rx.phase = .data ∧
      framed.rx.bits = 0 ∧ framed.rx.nbyte = 0 ∧ framed.rx.mode = none) ∧
    (let s := { framed with rx := { framed.rx with mode := some .autoinc } }
     s.transportReady ∧ s.WireInv ∧ s.workingReceiver ∧ s.rx.frame = true ∧ s.rx.phase = .data ∧ s.rx.bits = 0 ∧
      s.rx.nbyte = 0 ∧ s.rx.mode ≠ none) ∧
    (0xC0 ≤ (0xC0 : Byte).toNat ∧ (0xC7 : Byte).toNat ≤ 0xC7 ∧ (0x80 : Byte) = ctrlByte false 0 ∧
      (0x8F : Byte) = ctrlByte true 7) ∧
    (∀ v ∈ [(0x00 : Byte), 0x45, 0x7F, 0x90, 0xBF, 0xC8, 0xFF], v ≠ 0x40 ∧ v ≠ 0x44 ∧ (v.toNat < 0xC0 ∨ 0xC7 < v.toNat) ∧
      ∀ e b, v ≠ ctrlByte e b) := by
  refine ⟨⟨⟨⟨rfl, rfl, rfl⟩, rfl, rfl⟩, framed_wire, ⟨rfl, by decide⟩, rfl, rfl, rfl, rfl, rfl⟩,
    ⟨⟨⟨rfl, rfl, rfl⟩, rfl, rfl⟩, ?_, ⟨rfl, by decide⟩, rfl, rfl, rfl, rfl, by decide⟩, by decide, by decide +kernel⟩
  obtain ⟨-, h2, h3, h4, h5, h6⟩ := framed_wire
  exact ⟨framed_rx_inv .none (some .autoinc) none 0 (by simp) (by simp), h2, h3, h4, h5, h6⟩

/-- A data byte at addresses 0, 3, 4, 5, 6 and 8, in both modes, and one that follows no address command. -/
theorem witness_DataByteInterpreted :
    (∀ p ∈ [0, 3, 4, 5, 6, 8], ∀ m, (let s := framedAt .addr (some m) (some p)
      s.transportReady ∧ s.WireInv ∧ s.workingReceiver ∧ s.rx.frame = true ∧ s.rx.phase = .data ∧ s.rx.bits = 0 ∧
        s.rx.nbyte ≠ 0 ∧ s.rx.cmd = .addr ∧ s.rx.ptr = some p)) ∧
    (let s := framedAt .data (some .autoinc) none
     s.transportReady ∧ s.WireInv ∧ s.workingReceiver ∧ s.rx.frame = true ∧ s.rx.phase = .data ∧ s.rx.bits = 0 ∧
      s.rx.nbyte ≠ 0 ∧ s.rx.cmd ≠ .addr) := by
  refine ⟨?_, ⟨⟨rfl, rfl, rfl⟩, rfl, rfl⟩, framedAt_wire _ _ _ (by simp) (by simp), ⟨rfl, by decide⟩, rfl, rfl, rfl,
    by decide, by decide⟩
  intro p hp m
  refine ⟨⟨⟨rfl, rfl, rfl⟩, rfl, rfl⟩, framedAt_wire _ _ _ ?_ (fun _ => ⟨rfl, rfl⟩), ⟨rfl, Nat.le_refl 5⟩, rfl, rfl, rfl,
    by simp [framedAt], rfl, rfl⟩
  intro q hq
  cases hq
  revert p
  decide

theorem witness_SendcmdSendsOneTransaction : ready.transportReady ∧ ready.WireInv ∧ ready.workingReceiver :=
  ⟨ready_transport, ready_wire, ready_working⟩

/-- `ready` after a data command: the address mode is known. -/
def readyMode : State := { ready with rx := { rxIdle with mode := some .autoinc } }

theorem readyMode_wire : readyMode.WireInv := by
  obtain ⟨-, h2, h3, h4, h5, h6⟩ := ready_wire
  refine ⟨?_, h2, h3, h4, h5, h6⟩
  constructor <;> simp [readyMode, rxIdle, Rx.reset]

/-- The bytes at the ends of each clause; an address command has its mode known. -/
theorem witness_DataLineMovesOnlyAtStartAndStop : readyMode.transportReady ∧ readyMode.WireInv ∧
    readyMode.workingReceiver ∧ readyMode.rx.drv = false ∧ (readyMode.clkOut = true → readyMode.dioOut = true) ∧
    readyMode.inited = true ∧ (0x80 : Byte) = ctrlByte false 0 ∧ (0x8F : Byte) = ctrlByte true 7 ∧
    0xC0 ≤ (0xC0 : Byte).toNat ∧ (0xC7 : Byte).toNat ≤ 0xC7 ∧ readyMode.rx.mode ≠ none :=
  ⟨⟨⟨rfl, rfl, rfl⟩, rfl, rfl⟩, readyMode_wire, ⟨rfl, by decide⟩, rfl, fun _ => rfl, rfl, by decide, by decide, by decide,
    by decide, by decide⟩

theorem witness_TxnOpsEqualSendcmd : ready.transportReady := ready_transport

/-- The first and last digit, letters of both cases and the punctuation have an entry. -/
theorem witness_EncodeWritesThePattern : rom params 0x30 = some 0x3F ∧ rom params 0x39 = some 0x6F ∧
    rom params 0x41 = some 0x77 ∧ rom params 0x7A = some 0x5B ∧ rom params 0x2C = some 0x04 := by decide

theorem witness_EncoderProperties : ∃ t t', exec (.encode 0x35) ready = .next t ∧ exec (.encode 0x35) s0 = .next t' ∧
    t.fault = none ∧ t'.fault = none ∧ ready.launch = params ∧ s0.launch = params ∧ rom params 0x35 = some 0x6D :=
  ⟨_, _, rfl, rfl, rfl, rfl, rfl, rfl, rfl⟩

/-- The ends of the range, and the first integers beyond it. -/
theorem witness_FormattedIntegerReadsBack : (-999 : Int) ≤ -999 ∧ (9999 : Int) ≤ 9999 ∧ (9999 : Int) < 10000 ∧
    (-1000 : Int) < -999 := by decide

theorem witness_InitConfigures : s0.initReady ∧ s0.WireInv ∧ s0.workingReceiver := by
  refine ⟨⟨⟨rfl, rfl, rfl⟩, rfl⟩, ⟨?_, rfl, rfl, rfl, fun _ => rfl, fun h => by cases h⟩, rfl, by decide⟩
  constructor <;> simp [s0, Rx.reset]

theorem witness_InitWritesNoPosition : s0.initReady ∧ s0.WireInv ∧ s0.workingReceiver ∧ s0.rx.sync = false :=
  ⟨witness_InitConfigures.1, witness_InitConfigures.2.1, witness_InitConfigures.2.2, rfl⟩

/-- Any position operand and pattern. -/
theorem witness_DsegWritesThePosition : ready.driverReady ∧ ready.WireInv ∧ ready.workingReceiver ∧
    ready.rx.drv = false := ready_all

theorem witness_DsegIsTwoTransactions : ready.driverReady := ready_driver

/-- The colon merged (position 1) and not merged (position 5, and a position that is not 1 when masked). -/
theorem witness_DcharWritesTheCharacter : (readyColon 0x80).driverReady ∧ (readyColon 0x80).WireInv ∧
    (readyColon 0x80).workingReceiver ∧ (readyColon 0x80).rx.drv = false ∧ rom (readyColon 0x80).launch 0x35 = some 0x6D ∧
    (readyColon 0x80).colonCache = some 0x80 :=
  ⟨⟨⟨⟨rfl, rfl, rfl⟩, rfl, rfl⟩, rfl⟩, wireInv_of_eq ready_wire rfl rfl rfl rfl, ⟨rfl, by decide⟩, rfl, rfl, rfl⟩

theorem witness_DcolonSetsTheColon : ready.driverReady ∧ ready.WireInv ∧ ready.workingReceiver ∧ ready.rx.drv = false ∧
    ready.colonCache = some 0x00 ∧ ready.rx.dctrlEn = some true :=
  ⟨ready_driver, ready_wire, ready_working, rfl, rfl, rfl⟩

/-- A terminator in the first lane, in the last lane, and none. -/
theorem witness_DstrShowsTheString : ready.driverReady ∧ ready.WireInv ∧ ready.workingReceiver ∧ ready.rx.drv = false ∧
    ready.colonCache = some 0x00 ∧ encodable ready.launch (.dstr 0 0x21 0x21 0x21) = true ∧
    encodable ready.launch (.dstr 0x61 0x62 0x63 0) = true ∧ encodable ready.launch (.dstr 0x35 0x36 0x37 0x38) = true :=
  ⟨ready_driver, ready_wire, ready_working, rfl, rfl, by decide, by decide, by decide⟩

theorem witness_DintShowsTheInteger : ready.driverReady ∧ ready.WireInv ∧ ready.workingReceiver ∧ ready.rx.drv = false ∧
    ready.colonCache = some 0x00 ∧ (-999 : Int) ≤ -999 ∧ (9999 : Int) ≤ 9999 ∧ (9999 : Int) < 10000 ∧ (-1000 : Int) < -999 :=
  ⟨ready_driver, ready_wire, ready_working, rfl, rfl, by decide, by decide, by decide, by decide⟩

theorem witness_ClearBlanksEveryPosition : ready.driverReady ∧ ready.WireInv ∧ ready.workingReceiver ∧
    ready.rx.drv = false := ready_all

theorem witness_EnableAndSetbriConfigure : ready.driverReady ∧ ready.WireInv ∧ ready.workingReceiver ∧
    ready.rx.drv = false ∧ ready.cfgEn = some true ∧ ready.cfgBri = some 7 :=
  ⟨ready_driver, ready_wire, ready_working, rfl, rfl, rfl⟩

/-- One op of each of the three lengths, and one for each register written; the patterns of the characters exist. -/
theorem witness_DriverOpsCompleteWithAnyReceiver : ready.driverReady ∧ ready.colonCache = some 0x00 ∧
    (∀ i ∈ [Instr.dseg 0xFF 0xAA, .dcolon true, .dchar 1 0x35, .dstr 0x61 0x62 0 0, .dint 9999, .enable false,
      .setbri (-1)], i.mnemonic.row.family = .driver ∧ i.mnemonic ≠ .INIT ∧ encodable ready.launch i = true) ∧
    rom ready.launch 0x35 = some 0x6D ∧ rom ready.launch 0x62 = some 0x7C ∧ (formatInt 9999)[1]? = some 0x39 ∧
    rom ready.launch 0x39 = some 0x6F := ⟨ready_driver, rfl, by decide, rfl, rfl, by decide, rfl⟩

theorem witness_ConfigurationFieldsIndependent : ready.driverReady ∧ ready.WireInv ∧ ready.workingReceiver ∧
    ready.rx.drv = false ∧ ready.cfgEn = some true ∧ ready.cfgBri = some 7 := witness_EnableAndSetbriConfigure

theorem witness_ColonSurvivesCharacterWrites : ready.driverReady ∧ ready.WireInv ∧ ready.workingReceiver ∧
    ready.rx.drv = false ∧ rom ready.launch 0x38 = some 0x7F ∧ ready.colonCache = some 0x00 :=
  ⟨ready_driver, ready_wire, ready_working, rfl, rfl, rfl⟩

theorem witness_BootReachesAKnownDisplay : s0.atPowerOn ∧ s0.workingReceiver ∧ s0.sched = [] ∧ (-999 : Int) ≤ -999 ∧
    (9999 : Int) ≤ 9999 := ⟨s0_atPowerOn, witness_InitConfigures.2.2, rfl, by decide, by decide⟩

end Sys2Proof.Tests
end

section
/-! The trace and the receiver's step count over one step of the machine (R8, R110): nothing but the events of the running
op touches either, so the fact `Underway.trace` gives for an op underway is that of the whole step. -/

namespace Sys2Proof.Machine

/-- From `s` to `t` the trace is extended, and the receiver has taken one step for each event added (R110). -/
def TraceExtends (s t : State) : Prop :=
  ∃ ev, t.traceRev = ev ++ s.traceRev ∧ t.rx.steps = s.rx.steps + ev.length

theorem TraceExtends.of_same {s t : State} (htrace : t.traceRev = s.traceRev) (hrx : t.rx = s.rx) :
    TraceExtends s t :=
  ⟨[], htrace, by rw [hrx]; rfl⟩

/-- Only the trace and the receiver at both ends matter. -/
theorem TraceExtends.congr {s s' t t' : State} (h : TraceExtends s t) (hs : s'.traceRev = s.traceRev)
    (hsrx : s'.rx = s.rx) (ht : t'.traceRev = t.traceRev) (htrx : t'.rx = t.rx) : TraceExtends s' t' := by
  unfold TraceExtends
  rw [hs, hsrx, ht, htrx]
  exact h

theorem raise_traceExtends (s : State) (c : FaultCode) (w : Word) (g : Nat) (b : Bool) :
    TraceExtends s (s.raise c w g b) :=
  .of_same rfl rfl

/-- ENCODE records no event (R81). -/
theorem encodeBy_traceExtends (g : Nat) (c : Byte) (s : State) : TraceExtends s (encodeBy g c s) := by
  unfold encodeBy
  cases rom s.launch c with
  | none => exact raise_traceExtends ..
  | some p => exact .of_same (advance_traceRev _ g 1) (advance_rx _ g 1)

/-- The end of an op records no event (R61). -/
theorem complete_traceRev_rx {m : Mnemonic} (u : State) (hm : m.row.family ≠ .encoder) :
    (complete m u).traceRev = u.traceRev ∧ (complete m u).rx = u.rx := by
  obtain ⟨-, hc⟩ | ⟨-, b, hc, -, -⟩ := complete_cases m u hm
  · rw [hc]
    exact ⟨rfl, rfl⟩
  · rw [hc]
    exact ⟨advance_traceRev .., advance_rx ..⟩

/-- Every op extends the trace with one receiver step per event: by what it does while it is underway, and by nothing
when a check fails, when it is ENCODE, and as it begins and completes. -/
theorem exec_traceExtends {i : Instr} {s t : State} (h : exec i s = .next t) : TraceExtends s t := by
  obtain ⟨c, rfl⟩ | ⟨c, rfl⟩ | ⟨c, -, rfl⟩ | ⟨hi, -, u, hu, rfl⟩ := exec_cases h
  · exact raise_traceExtends ..
  · exact .of_same rfl rfl
  · exact encodeBy_traceExtends ..
  · obtain ⟨htrace, hrx⟩ := complete_traceRev_rx u hi
    have hunder : TraceExtends (enter i.mnemonic s) u := hu.trace
    exact hunder.congr (enter_traceRev ..).symm (enter_rx ..).symm htrace hrx

theorem stepAgent_traceExtends {s t : State} (h : stepAgent s = .next t) : TraceExtends s t := by
  obtain ⟨w, rfl⟩ | ⟨w, rfl⟩ | ⟨i, ws, -, he⟩ := stepAgent_cases h
  · exact raise_traceExtends ..
  · exact raise_traceExtends ..
  · exact exec_traceExtends he

/-- Settles O17: the step is the turn of the agent that is chosen, and choosing it records no event. -/
theorem oneReceiverStepPerEvent : Obligations.OneReceiverStepPerEvent := by
  intro s t h
  obtain ⟨-, g, rest, -, -, hturn⟩ := step_cases h
  have hchosen : TraceExtends (s.dispatched g rest) t := stepAgent_traceExtends hturn
  exact hchosen.congr rfl rfl rfl rfl

end Sys2Proof.Machine
end

section
/-! The bus levels as functions of the state (R18), and the end of a run by a fault (R27, R101). -/

namespace Sys2Proof.Machine

/-! ### Bus levels -/

/-- The clock line has a known level only as an output (R18). -/
theorem clkBus_eq (s : State) : s.clkBus = if s.clkDir = some .out then .bit s.clkOut else .unknown := by
  unfold State.clkBus clkLevel
  cases s.clkDir with
  | none => rfl
  | some d => cases d <;> rfl

theorem dioBus_unwritten {s : State} (h : s.dioDir = none) : s.dioBus = .unknown := by
  simp only [State.dioBus, dioLevel, h]

theorem dioBus_out {s : State} (h : s.dioDir = some .out) :
    s.dioBus = if s.rx.drv = true then (if s.dioOut = true then .float else .bit false) else .bit s.dioOut := by
  simp only [State.dioBus, dioLevel, h]
  cases s.rx.drv <;> rfl

theorem dioBus_inp {s : State} (h : s.dioDir = some .inp) :
    s.dioBus = if s.rx.drv = true then .bit false else if s.dioOut = true then .bit true
      else if s.launch.extPullup = true then .bit true else .float := by
  simp only [State.dioBus, dioLevel, h]

/-- Settles O21: the clock's level in one equation, the data line's by its direction. -/
theorem busLevels : Obligations.BusLevels :=
  ⟨clkBus_eq, fun _ => dioBus_unwritten, fun _ => dioBus_out, fun _ => dioBus_inp⟩

/-! ### After a fault -/

/-- A machine that a fault has stopped takes no step (R27). -/
theorem step_stopped {s : State} {r : FaultRecord} (h : s.fault = some r) : step s = .fault (.stopped r) := by
  simp only [step, h]

/-- Settles O10: `step` looks at `FAULT` first, and `step_cases` says what a step that is taken found there. -/
theorem faultIsFinal : Obligations.FaultIsFinal :=
  ⟨fun _ _ => step_stopped, fun _ _ h => (step_cases h).1⟩

end Sys2Proof.Machine
end

section
/-! The power-on state (R29, R117) and the invariant of the machine between two steps. The invariant is proved of a
state in two ways, one for each kind of state a step can leave: one without a fault, in which no op is running, and one
that a fault has stopped. -/

namespace Sys2Proof.Machine

/-! ### How the invariant is proved -/

/-- Every agent's `OPIDX` is at most the length of its stream (R13, R105). -/
def OpidxInRange (s : State) : Prop := ∀ g a, s.agent? g = some a → a.opidx ≤ a.stream.length

/-- The invariant where no fault has stopped the machine. -/
theorem State.Inv.of_running {t : State} (hfault : t.fault = none) (hwire : t.WireInv) (hwritten : Written t)
    (hbusy : t.busy = false) (hmid : t.midOp = false) (hopidx : OpidxInRange t) : t.Inv where
  wire := hwire
  written := hwritten
  idle := fun _ => ⟨hbusy, hmid⟩
  opidx_le := hopidx
  faultPlace := by simp [hfault]
  faultBusy := by simp [hfault]

/-- The invariant where a fault has stopped the machine. -/
theorem State.Inv.of_stopped {t : State} {r : FaultRecord} (hfault : t.fault = some r) (hwire : t.WireInv)
    (hwritten : Written t) (hopidx : OpidxInRange t) (hplace : FaultAt t r) (hbusy : t.busy = true → r.agent ≠ 0) :
    t.Inv where
  wire := hwire
  written := hwritten
  idle := by simp [hfault]
  opidx_le := hopidx
  faultPlace := by
    intro r' hr'
    cases hfault.symm.trans hr'
    exact hplace
  faultBusy := by
    intro r' hr'
    cases hfault.symm.trans hr'
    exact hbusy

/-! ### Power-on -/

/-- At power-on the receiver is as a desynchronisation leaves it (R29, R114). -/
theorem rx_reset_inv : Rx.reset.Inv := (desync_inv Rx.reset).of_eq rfl

/-- At power-on no position of the display is known (R29). -/
theorem dispAt_reset (p : Nat) : Rx.reset.dispAt p = none := by
  simp only [Rx.dispAt, Rx.reset, Vector.getElem?_replicate]
  split <;> rfl

/-- Settles O18: `State.reset` holds the values R29 gives, and what `DISP` holds is `dispAt_reset`. -/
theorem powerOnValues : Obligations.PowerOnValues :=
  ⟨rfl, rfl, rfl, rfl, rfl, rfl, rfl, rfl, rfl, rfl, rfl, rfl, rfl, rfl, rfl, rfl, rfl, rfl, rfl, rfl, rfl, rfl, rfl,
    dispAt_reset, rfl, rfl, rfl, rfl, rfl, rfl⟩

theorem reset_atPowerOn : State.reset.atPowerOn := ⟨rfl, rfl, by simp [State.reset]⟩

/-- The lines have no direction yet, so both levels are unknown, as the receiver's record of them is (R29, R18). -/
theorem atPowerOn_wireInv {s : State} (h : s.atPowerOn) : s.WireInv := by
  obtain ⟨hs, -, -⟩ := h
  rw [hs]
  exact ⟨rx_reset_inv.of_eq rfl, rfl, rfl, rfl, fun _ => rfl, fun _ _ => rfl⟩

/-- At power-on every agent stands at the start of its stream (R29). -/
theorem atPowerOn_opidxInRange {s : State} (h : s.atPowerOn) : OpidxInRange s := by
  obtain ⟨-, hfg, hirqs⟩ := h
  have hzero : ∀ g a, s.agent? g = some a → a.opidx = 0 := by
    intro g a ha
    cases g with
    | zero =>
      rw [agent?_zero, Option.some.injEq] at ha
      rw [← ha, hfg]
    | succ k => exact hirqs a (List.mem_of_getElem? ha)
  intro g a ha
  rw [hzero g a ha]
  exact Nat.zero_le _

theorem atPowerOn_inv {s : State} (h : s.atPowerOn) : s.Inv := by
  have hs := h.1
  have hinited : s.inited = false := by rw [hs]; rfl
  exact .of_running (by rw [hs]; rfl) (atPowerOn_wireInv h) (by simp [Written, hinited]) (by rw [hs]; rfl)
    (by rw [hs]; rfl) (atPowerOn_opidxInRange h)

/-- Settles O19: `State.reset` is one of the power-on states. -/
theorem invariantAtPowerOn : Obligations.InvariantAtPowerOn :=
  ⟨atPowerOn_inv reset_atPowerOn, fun _ => atPowerOn_inv⟩

end Sys2Proof.Machine
end

section
/-! The invariant over one step (R13, R26, R101, R110). An op that runs ends in one of three ways, by `exec_cases`: a
fault of its own stops the machine where the op began (`raise_inv`), another agent's fault stops it on the way
(`Underway.preempted_inv`), or the op completes and its agent moves past its words (`advance_inv`). -/

namespace Sys2Proof.Machine

/-! ### Agents, and the room in their streams -/

/-- The agents are those of `fg` and `irqs`. -/
theorem agent?_congr {s t : State} (hfg : t.fg = s.fg) (hirqs : t.irqs = s.irqs) (g : Nat) :
    t.agent? g = s.agent? g := by
  cases g with
  | zero => rw [agent?_zero, agent?_zero, hfg]
  | succ k => rw [agent?_succ, agent?_succ, hirqs]

/-- The agents after one of them has moved: that one has, and no other (R13). -/
theorem agent?_advance (s : State) (g n h : Nat) :
    (s.advance g n).agent? h = if g = h then (s.agent? h).map (·.advance n) else s.agent? h := by
  cases g with
  | zero => cases h <;> simp [agent?_zero, agent?_succ]
  | succ k =>
    cases h with
    | zero => simp [agent?_zero]
    | succ j =>
      simp only [advance_succ, agent?_succ, List.getElem?_modify, Nat.add_right_cancel_iff]
      split <;> simp

/-- Agent g has at least n words to go. -/
def HasRoom (s : State) (g n : Nat) : Prop := ∀ a, s.agent? g = some a → a.opidx + n ≤ a.stream.length

theorem HasRoom.of_agent {s t : State} {g h n : Nat} (hs : HasRoom s g n) (ht : t.agent? h = s.agent? g) :
    HasRoom t h n :=
  fun a ha => hs a (ht.symm.trans ha)

/-- An op that decodes fits in what is left of its agent's stream (R52). -/
theorem hasRoom_of_decode {s : State} {g : Nat} {i : Instr} {ws : List Word} (hs : OpidxInRange s)
    (hd : decode (s.wordsOf g) = .ok (i, ws)) : HasRoom s g i.mnemonic.row.words := by
  intro a ha
  have hle := hs g a ha
  have hlen := decode_len hd
  simp only [State.wordsOf, ha, List.length_drop] at hlen
  omega

theorem OpidxInRange.advance {s : State} {g n : Nat} (hs : OpidxInRange s) (hroom : HasRoom s g n) :
    OpidxInRange (s.advance g n) := by
  intro h b hb
  rw [agent?_advance] at hb
  split at hb
  · next hg =>
    subst hg
    obtain ⟨a, ha, rfl⟩ := Option.map_eq_some_iff.1 hb
    exact hroom a ha
  · exact hs h b hb

/-- Only the agents matter. -/
theorem OpidxInRange.of_agents {s t : State} (hs : OpidxInRange s) (hfg : t.fg = s.fg) (hirqs : t.irqs = s.irqs) :
    OpidxInRange t := by
  intro g a ha
  rw [agent?_congr hfg hirqs] at ha
  exact hs g a ha

/-- While an op is underway the other agents stay within their streams. -/
theorem Underway.opidxInRange {s u : State} (hu : Underway s u) (hs : OpidxInRange s) : OpidxInRange u := by
  intro g a ha
  cases g with
  | zero =>
    rw [agent?_zero, hu.fg] at ha
    exact hs 0 a ha
  | succ k =>
    obtain ⟨b, hb, hstream, -, hkeeps⟩ := hu.irqs.get ha
    rw [hstream]
    exact hkeeps (hs (k + 1) b hb)

/-- The agent whose op is underway has not moved: no other agent moves it (R103). -/
theorem Underway.runner {s u : State} (hu : Underway s u) : u.agent? s.cur = s.agent? s.cur := by
  cases hc : s.cur with
  | zero => rw [agent?_zero, agent?_zero, hu.fg]
  | succ k =>
    obtain ⟨hirqs, -⟩ := hu.alone (.inl (by simp [hc]))
    rw [agent?_succ, agent?_succ, hirqs]

/-! ### How a turn can end -/

/-- Choosing an agent changes nothing the invariant speaks of. -/
theorem dispatched_inv {s : State} (h : s.Inv) (hf : s.fault = none) (g : Nat) (rest : List Turn) :
    (s.dispatched g rest).Inv := by
  obtain ⟨hbusy, hmid⟩ := h.idle hf
  have hopidx : OpidxInRange s := h.opidx_le
  exact .of_running hf (wireInv_of_eq h.wire rfl rfl rfl rfl) h.written hbusy hmid (hopidx.of_agents rfl rfl)

/-- A fault of the agent whose turn it is leaves that agent at the faulting op and `BUSY` 0 (R101). -/
theorem raise_inv {s : State} (h : s.Inv) (hf : s.fault = none) (hnext : s.hasNext s.cur = true) (c : FaultCode)
    (w : Word) : (s.raise c w s.cur s.busy).Inv := by
  obtain ⟨hbusy, -⟩ := h.idle hf
  have hopidx : OpidxInRange s := h.opidx_le
  have hplace : FaultAt (s.raise c w s.cur s.busy) _ := fault_place (rest := s.sched) c w s.busy hnext
  exact .of_stopped rfl (wireInv_of_eq h.wire rfl rfl rfl rfl) h.written (hopidx.of_agents rfl rfl) hplace
    (by simp [hbusy])

/-- A fault of another agent while an op is underway stands where that agent stands; `BUSY` may stay 1, for the agent is
an interrupt agent (R101, R123). -/
theorem Underway.preempted_inv {s u : State} (hu : Underway s u) (hf : s.fault = none) (hwire : s.WireInv)
    (hopidx : OpidxInRange s) (hwritten : Written u) (hstopped : u.fault.isSome = true) : u.Inv := by
  obtain hnone | ⟨r, hr, hplace, hagent, -, -⟩ := hu.fault hf
  · simp [hnone] at hstopped
  · exact .of_stopped hr (hu.wire hwire) hwritten (hu.opidxInRange hopidx) hplace fun _ => hagent

/-- An agent with room in its stream moves on, with no op running (R13, R26). -/
theorem advance_inv {u : State} {g n : Nat} (hf : u.fault = none) (hwire : u.WireInv) (hopidx : OpidxInRange u)
    (hbusy : u.busy = false) (hmid : u.midOp = false) (hwritten : Written (u.advance g n))
    (hroom : HasRoom u g n) : (u.advance g n).Inv := by
  obtain ⟨afault, -, -, arx, atrace, aclk, adio, abusy, amid⟩ := adv_same u g n
  exact .of_running (afault.trans hf) (wireInv_of_eq hwire arx aclk adio atrace) hwritten (abusy.trans hbusy)
    (amid.trans hmid) (hopidx.advance hroom)

/-- ENCODE writes `PAT` and moves on, or faults (R81). -/
theorem encodeBy_inv {s : State} {c : Byte} (h : s.Inv) (hf : s.fault = none) (hnext : s.hasNext s.cur = true)
    (hwritten : Written (encodeBy s.cur c s)) (hroom : HasRoom s s.cur 1) : (encodeBy s.cur c s).Inv := by
  obtain ⟨hbusy, hmid⟩ := h.idle hf
  have hopidx : OpidxInRange s := h.opidx_le
  unfold encodeBy at hwritten ⊢
  cases hp : rom s.launch c with
  | none => exact raise_inv h hf hnext _ _
  | some p =>
    simp only [hp] at hwritten
    exact advance_inv hf (wireInv_of_eq h.wire rfl rfl rfl rfl) (hopidx.of_agents rfl rfl) hbusy hmid hwritten
      (hroom.of_agent (agent?_congr rfl rfl _))

/-- An op that passed its checks ends in the invariant, whether it completes or is stopped on the way. -/
theorem complete_inv {s u : State} {m : Mnemonic} (h : s.Inv) (hf : s.fault = none) (hm : m.row.family ≠ .encoder)
    (hu : Underway (enter m s) u) (hwritten : Written (complete m u)) (hroom : HasRoom s s.cur m.row.words) :
    (complete m u).Inv := by
  obtain ⟨efault, -, ecur, efg, eirqs, erx, etrace, eclk, edio⟩ := enter_same m s
  have hopidx : OpidxInRange s := h.opidx_le
  have eopidx : OpidxInRange (enter m s) := hopidx.of_agents efg eirqs
  have ewire : (enter m s).WireInv := wireInv_of_eq h.wire erx eclk edio etrace
  obtain ⟨hstopped, hc⟩ | ⟨hclear, b, hc, hline, hother⟩ := complete_cases m u hm
  · rw [hc] at hwritten ⊢
    exact hu.preempted_inv (efault.trans hf) ewire eopidx hwritten hstopped
  · rw [hc] at hwritten ⊢
    have hb : b = false := by
      by_cases hfam : m.row.family = .line
      · rw [hline hfam, hu.busy, enter_busy, (h.idle hf).1, hfam]
        rfl
      · exact hother hfam
    have hrunner : u.agent? u.cur = s.agent? s.cur := by
      rw [hu.cur, hu.runner, ecur, agent?_congr efg eirqs]
    exact advance_inv hclear (wireInv_of_eq (hu.wire ewire) rfl rfl rfl rfl)
      ((hu.opidxInRange eopidx).of_agents rfl rfl) hb rfl hwritten
      ((hroom.of_agent hrunner).of_agent (agent?_congr rfl rfl _))

/-! ### A step -/

theorem exec_inv {i : Instr} {s t : State} {ws : List Word} (h : s.Inv) (hf : s.fault = none)
    (hnext : s.hasNext s.cur = true) (hd : decode (s.wordsOf s.cur) = .ok (i, ws)) (he : exec i s = .next t) :
    t.Inv := by
  have hwritten : Written t := exec_written h.written he
  have hroom := hasRoom_of_decode h.opidx_le hd
  obtain ⟨c, rfl⟩ | ⟨c, rfl⟩ | ⟨c, rfl, rfl⟩ | ⟨hi, -, u, hu, rfl⟩ := exec_cases he
  · exact raise_inv h hf hnext _ _
  · obtain ⟨-, hmid⟩ := h.idle hf
    have hsame : { s with midOp := false } = s := congrArg (fun b => { s with midOp := b }) hmid.symm
    rw [hsame]
    exact raise_inv h hf hnext _ _
  · exact encodeBy_inv h hf hnext hwritten hroom
  · exact complete_inv h hf hi hu hwritten hroom

theorem stepAgent_inv {s t : State} (h : s.Inv) (hf : s.fault = none) (hnext : s.hasNext s.cur = true)
    (ht : stepAgent s = .next t) : t.Inv := by
  obtain ⟨w, rfl⟩ | ⟨w, rfl⟩ | ⟨i, ws, hd, he⟩ := stepAgent_cases ht
  · exact raise_inv h hf hnext _ _
  · exact raise_inv h hf hnext _ _
  · exact exec_inv h hf hnext hd he

/-- Settles O20: a step that is taken is the turn of an agent that has a next op, before any fault. -/
theorem stepKeepsInvariant : Obligations.StepKeepsInvariant := by
  intro s t h ht
  obtain ⟨hf, g, rest, -, hnext, hturn⟩ := step_cases ht
  exact stepAgent_inv (dispatched_inv h hf g rest) hf hnext hturn

end Sys2Proof.Machine
end

section
/-! Characters without a table entry (R33, R81, R91, R93): the table read fails at the first of them, and an op of the
driver family that reads one stops before its first event, with `BUSY` as it was when the op began (R101). -/

namespace Sys2Proof.Machine

/-- The table read of a list of characters stops at the first without an entry (R33, R93). -/
theorem romAll_first_invalid {l : Launch} {before : List Byte} {c : Byte} (after : List Byte)
    (hbefore : ∀ b ∈ before, (rom l b).isSome = true) (hc : rom l c = none) :
    romAll l (before ++ c :: after) = .error c := by
  induction before with
  | nil => simp only [List.nil_append, romAll, hc]
  | cons b bs ih =>
    obtain ⟨hb, hbs⟩ := List.forall_mem_cons.1 hbefore
    obtain ⟨p, hp⟩ := Option.isSome_iff_exists.1 hb
    simp only [List.cons_append, romAll, hp, ih hbs]

/-- The fault of ENCODE (R81). -/
theorem encodeBy_unencodable {s : State} {c : Byte} (g : Nat) (hc : rom s.launch c = none) :
    encodeBy g c s = s.raise .unencodable (c.zeroExtend 32) g s.busy := by
  simp only [encodeBy, hc]

/-- The op cycle of a driver op that passes its checks and then only raises `UNENCODABLE`: `BUSY`, which the op set as it
began, is set back (R101). -/
theorem opCycle_unencodable {m : Mnemonic} {s : State} (info : Word) (hm : m.row.family = .driver) (hinit : m ≠ .INIT)
    (h : s.driverReady) :
    opCycle m (fun t => t.raise .unencodable info t.cur s.busy) s = .next
      { s with fault := some ⟨.unencodable, s.cur, s.opidxOf s.cur, s.wordOf s.cur, info⟩, midOp := false } := by
  obtain ⟨⟨⟨-, hbusy, -⟩, hclk, hdio⟩, hinited⟩ := h
  rw [opCycle_run _ (entryFault_driver hm hinit hbusy hinited hclk hdio), complete_faulted rfl, enter_eq_busy (.inr hm)]
  rfl

/-- Settles O8: ENCODE raises the fault itself; DCHAR and DSTR look their characters up first, and a failed read leaves
them the op cycle of `opCycle_unencodable`. -/
theorem unencodableCharacterFaults : Obligations.UnencodableCharacterFaults := by
  refine ⟨fun s c hc => ?_, fun s pos c h hc => ?_, fun s c0 c1 c2 c3 before after c h hpad hbefore hc => ?_⟩
  · exact congrArg Host.Outcome.next (encodeBy_unencodable s.cur hc)
  · simp only [exec, execDchar, hc]
    exact opCycle_unencodable _ rfl (by decide) h
  · have hread : romAll s.launch (padString [c0, c1, c2, c3]) = .error c := by
      rw [hpad]
      exact romAll_first_invalid after hbefore hc
    simp only [exec, execDstr, hread]
    exact opCycle_unencodable _ rfl (by decide) h

end Sys2Proof.Machine
end

section
/-! What no step writes (R34, R46, R103): the streams and the parameters. An op changes an agent only by moving its
`OPIDX`, and the agents that act while it is underway do no more, by `Underway.irqs`. -/

namespace Sys2Proof.Machine

/-- `t` has the op streams and the parameters of `s`. -/
structure SameProgram (s t : State) : Prop where
  fg : t.fg.stream = s.fg.stream
  irqs : t.irqs.map Agent.stream = s.irqs.map Agent.stream
  launch : t.launch = s.launch

theorem SameProgram.of_same {s t : State} (hfg : t.fg = s.fg) (hirqs : t.irqs = s.irqs) (hlaunch : t.launch = s.launch) :
    SameProgram s t :=
  ⟨by rw [hfg], by rw [hirqs], hlaunch⟩

theorem SameProgram.trans {s t u : State} (h : SameProgram s t) (h' : SameProgram t u) : SameProgram s u :=
  ⟨h'.fg.trans h.fg, h'.irqs.trans h.irqs, h'.launch.trans h.launch⟩

theorem raise_sameProgram (s : State) (c : FaultCode) (w : Word) (g : Nat) (b : Bool) :
    SameProgram s (s.raise c w g b) :=
  .of_same rfl rfl rfl

/-- Moving one agent's `OPIDX` leaves every agent its stream (R13, R34). -/
theorem map_stream_modify_advance (l : List Agent) (k n : Nat) :
    (l.modify k (·.advance n)).map Agent.stream = l.map Agent.stream := by
  refine List.ext_getElem? fun j => ?_
  simp only [List.getElem?_map, List.getElem?_modify]
  cases l[j]? with
  | none => rfl
  | some a => by_cases hkj : k = j <;> simp [hkj, Agent.advance]

theorem advance_sameProgram (s : State) (g n : Nat) : SameProgram s (s.advance g n) := by
  cases g with
  | zero => exact ⟨rfl, rfl, rfl⟩
  | succ k => exact ⟨rfl, map_stream_modify_advance s.irqs k n, rfl⟩

/-- ENCODE reads the table and writes `PAT` (R81). -/
theorem encodeBy_sameProgram (g : Nat) (c : Byte) (s : State) : SameProgram s (encodeBy g c s) := by
  unfold encodeBy
  cases rom s.launch c with
  | none => exact raise_sameProgram ..
  | some p =>
    have hpat : SameProgram s { s with pat := some p } := .of_same rfl rfl rfl
    exact hpat.trans (advance_sameProgram _ g 1)

theorem Underway.sameProgram {s u : State} (hu : Underway s u) : SameProgram s u :=
  ⟨by rw [hu.fg], hu.irqs.streams, hu.launch⟩

theorem complete_sameProgram {m : Mnemonic} (u : State) (hm : m.row.family ≠ .encoder) :
    SameProgram u (complete m u) := by
  obtain ⟨-, hc⟩ | ⟨-, b, hc, -, -⟩ := complete_cases m u hm
  · rw [hc]
    exact .of_same rfl rfl rfl
  · rw [hc]
    have hended : SameProgram u { u with busy := b, midOp := false } := .of_same rfl rfl rfl
    exact hended.trans (advance_sameProgram ..)

theorem exec_sameProgram {i : Instr} {s t : State} (h : exec i s = .next t) : SameProgram s t := by
  obtain ⟨c, rfl⟩ | ⟨c, rfl⟩ | ⟨c, -, rfl⟩ | ⟨hi, -, u, hu, rfl⟩ := exec_cases h
  · exact raise_sameProgram ..
  · exact .of_same rfl rfl rfl
  · exact encodeBy_sameProgram ..
  · have hentered : SameProgram s (enter i.mnemonic s) := .of_same (enter_fg ..) (enter_irqs ..) (enter_launch ..)
    exact (hentered.trans hu.sameProgram).trans (complete_sameProgram u hi)

theorem stepAgent_sameProgram {s t : State} (h : stepAgent s = .next t) : SameProgram s t := by
  obtain ⟨w, rfl⟩ | ⟨w, rfl⟩ | ⟨i, ws, -, he⟩ := stepAgent_cases h
  · exact raise_sameProgram ..
  · exact raise_sameProgram ..
  · exact exec_sameProgram he

theorem step_sameProgram {s t : State} (h : step s = .next t) : SameProgram s t := by
  obtain ⟨-, g, rest, -, -, hturn⟩ := step_cases h
  have hchosen : SameProgram s (s.dispatched g rest) := .of_same rfl rfl rfl
  exact hchosen.trans (stepAgent_sameProgram hturn)

/-- Settles O16: the table is a function of the parameters, so it stays with them. -/
theorem streamsAndTableNeverWritten : Obligations.StreamsAndTableNeverWritten := by
  intro s t h
  obtain ⟨hfg, hirqs, hlaunch⟩ := step_sameProgram h
  exact ⟨hfg, hirqs, fun c => by rw [hlaunch], hlaunch⟩

end Sys2Proof.Machine
end

section
/-! How a word selects a row and a list of words decodes (R51 to R54), in one rule per outcome, and the two directions
of the encoding (R48 to R52): an op comes back from its words, and words that decode come back from their op. -/

namespace Sys2Proof

/-! ### The row a word selects -/

/-- The row selected is the one whose mask and match the word meets (R51). -/
theorem selectRow_iff {w : Word} {m : Mnemonic} : selectRow w = some m ↔ w &&& m.row.mask = m.row.pattern := by
  constructor
  · intro h
    unfold selectRow at h
    split at h
    · cases h
    · split at h
      · cases h
        assumption
      · cases h
  · exact fun h => Laws.Words.select_of_fields ((matches_iff w m).1 h)

/-- The fields of a word that selects a row: its `OPC`, and no reserved bit set (R51, R53). -/
theorem selectRow_fields {w : Word} {m : Mnemonic} (h : selectRow w = some m) :
    opcField w = m.row.opc ∧ aField w &&& m.aMask = 0 ∧ bField w &&& m.bMask = 0 :=
  (matches_iff w m).1 (selectRow_iff.1 h)

/-- The operation codes of the table (R51); every other one is unassigned (R54). -/
theorem row_opc_mem (m : Mnemonic) : m.row.opc.toNat ∈
    [0x01, 0x02, 0x03, 0x04, 0x05, 0x10, 0x11, 0x12, 0x13, 0x20, 0x30, 0x31, 0x32, 0x33, 0x34, 0x35, 0x36, 0x37,
     0x38] := by
  cases m <;> decide

/-- Only `OPC` 0x34 has two words (R52). -/
theorem row_words (m : Mnemonic) : m.row.words = if m.row.opc = 0x34 then 2 else 1 := by
  cases m <;> rfl

/-- Settles O3: selecting a row is meeting its mask and match, so two rows met are one selected row, and what the table
says of the row's `OPC` holds of the word's. -/
theorem wordSelectsAtMostOneRow : Obligations.WordSelectsAtMostOneRow := by
  refine ⟨fun w m => selectRow_iff, fun w m m' h h' => ?_, fun w h => ?_, fun w m h => ?_⟩
  · exact Option.some.inj ((selectRow_iff.2 h).symm.trans (selectRow_iff.2 h'))
  · obtain ⟨m, hm⟩ := Option.ne_none_iff_exists'.1 h
    rw [(selectRow_fields hm).1]
    exact row_opc_mem m
  · rw [(selectRow_fields h).1]
    exact row_words m

/-! ### What a list of words decodes to -/

theorem decode_illegal {w : Word} (rest : List Word) (h : selectRow w = none) :
    decode (w :: rest) = .error (.illegal w) := by
  simp only [decode, h]

theorem decode_truncated {w : Word} {m : Mnemonic} (h : selectRow w = some m) (hw : m.row.words = 2) :
    decode [w] = .error (.truncated w) := by
  simp only [decode, h, hw, if_true]

theorem decode_oneWord {w : Word} {m : Mnemonic} (rest : List Word) (h : selectRow w = some m) (hw : m.row.words ≠ 2) :
    decode (w :: rest) = .ok (m.instr w 0, rest) := by
  simp only [decode, h, hw, if_false]

theorem decode_twoWords {w : Word} {m : Mnemonic} (e : Word) (rest : List Word) (h : selectRow w = some m)
    (hw : m.row.words = 2) : decode (w :: e :: rest) = .ok (m.instr w e, rest) := by
  simp only [decode, h, hw, if_true]

/-- The words that decode: a word that selects a row, with the word after it where the row has two. -/
theorem decode_cases {ws rest : List Word} {i : Instr} (h : decode ws = .ok (i, rest)) :
    ∃ w m, selectRow w = some m ∧
      ((m.row.words ≠ 2 ∧ ws = w :: rest ∧ i = m.instr w 0) ∨
        (m.row.words = 2 ∧ ∃ e, ws = w :: e :: rest ∧ i = m.instr w e)) := by
  cases ws with
  | nil => cases h
  | cons w ws =>
    cases hs : selectRow w with
    | none =>
      rw [decode_illegal ws hs] at h
      cases h
    | some m =>
      refine ⟨w, m, hs, ?_⟩
      by_cases hw : m.row.words = 2
      · cases ws with
        | nil =>
          rw [decode_truncated hs hw] at h
          cases h
        | cons e ws =>
          rw [decode_twoWords e ws hs hw] at h
          cases h
          exact .inr ⟨hw, e, rfl, rfl⟩
      · rw [decode_oneWord ws hs hw] at h
        cases h
        exact .inl ⟨hw, rfl, rfl⟩

/-! ### From an op to its words and back -/

/-- The second word the decoder reads an op from: DSTR's extension word (R49), nothing for any other op. -/
def Instr.extension : Instr → Word
  | .dstr c0 c1 c2 c3 => extWord c0 c1 c2 c3
  | _ => 0

theorem extension_eq_zero {i : Instr} (h : i.mnemonic.row.words ≠ 2) : i.extension = 0 := by
  cases i with
  | dstr c0 c1 c2 c3 => exact absurd rfl h
  | _ => rfl

/-- The words of an op are those its row counts (R49, R52). -/
theorem encode_eq (i : Instr) :
    encode i = if i.mnemonic.row.words = 2 then [encodeWord0 i, i.extension] else [encodeWord0 i] := by
  cases i <;> rfl

/-- Word 0 of an op selects the op's row (R51, R53). -/
theorem selectRow_encodeWord0 : ∀ i : Instr, selectRow (encodeWord0 i) = some i.mnemonic
  | .setclk v => (Laws.Words.setclk v).1
  | .setdio v => (Laws.Words.setdio v).1
  | .setdir l d => (Laws.Words.setdir l d).1
  | .wait => Laws.Words.wait.1
  | .sample => Laws.Words.sample.1
  | .start => Laws.Words.start.1
  | .stop => Laws.Words.stop.1
  | .wrbyte b => (Laws.Words.wrbyte b).1
  | .sendcmd b => (Laws.Words.sendcmd b).1
  | .encode c => (Laws.Words.encode c).1
  | .init en bri => (Laws.Words.init en bri).1
  | .dseg pos pat => (Laws.Words.dseg pos pat).1
  | .dchar pos c => (Laws.Words.dchar pos c).1
  | .dcolon v => (Laws.Words.dcolon v).1
  | .dstr c0 c1 c2 c3 => (Laws.Words.dstr c0 c1 c2 c3).1
  | .dint n => (Laws.Words.dint n).1
  | .clear => Laws.Words.clear.1
  | .enable v => (Laws.Words.enable v).1
  | .setbri v => (Laws.Words.setbri v).1

/-- A line comes back from field `A` (R50). -/
theorem lineOperand_opWord (opc : Byte) (l : Line) (b : BitVec 16) : lineOperand (opWord opc (bitA l.bit) b) = l := by
  unfold lineOperand
  rw [aField_opWord]
  cases l <;> rfl

/-- A direction comes back from field `B` (R50). -/
theorem dirOperand_opWord (opc a : Byte) (d : Dir) : dirOperand (opWord opc a (bitB d.bit)) = d := by
  unfold dirOperand
  rw [bField_opWord]
  cases d <;> rfl

/-- A bit operand comes back from field `A` (R50). -/
theorem enOperand_opWord (opc : Byte) (v : Bool) (b : BitVec 16) : enOperand (opWord opc (bitA v) b) = v := by
  unfold enOperand
  rw [aField_opWord]
  cases v <;> rfl

/-- The operands of a well-formed op come back from its words (R49, R50). -/
theorem instr_encodeWord0 {i : Instr} (h : i.wf = true) : i.mnemonic.instr (encodeWord0 i) i.extension = i := by
  cases i with
  | wait | sample | start | stop | clear => rfl
  | setclk v => exact congrArg Instr.setclk (bitOperand_opWord ..)
  | setdio v => exact congrArg Instr.setdio (bitOperand_opWord ..)
  | dcolon v => exact congrArg Instr.dcolon (bitOperand_opWord ..)
  | enable v => exact congrArg Instr.enable (bitOperand_opWord ..)
  | setdir l d => exact congrArg₂ Instr.setdir (lineOperand_opWord ..) (dirOperand_opWord ..)
  | wrbyte b => exact congrArg Instr.wrbyte (byteOperand_opWord ..)
  | sendcmd b => exact congrArg Instr.sendcmd (byteOperand_opWord ..)
  | encode c => exact congrArg Instr.encode (byteOperand_opWord ..)
  | dseg pos pat => exact congrArg₂ Instr.dseg (aField_opWord ..) (byteOperand_opWord ..)
  | dchar pos c => exact congrArg₂ Instr.dchar (aField_opWord ..) (byteOperand_opWord ..)
  | init en bri => exact congrArg₂ Instr.init (enOperand_opWord ..) (int16Operand_opWord _ _ _ h)
  | dint n => exact congrArg Instr.dint (int16Operand_opWord _ _ _ h)
  | setbri v => exact congrArg Instr.setbri (int16Operand_opWord _ _ _ h)
  | dstr c0 c1 c2 c3 =>
    obtain ⟨h0, h1, h2, h3⟩ := strLane_extWord c0 c1 c2 c3
    simp only [Instr.mnemonic, Mnemonic.instr, Instr.extension, h0, h1, h2, h3]

/-- Settles O1: word 0 selects the op's row, the row counts the words that are there, and each operand comes back from
its field. -/
theorem decodeInvertsEncode : Obligations.DecodeInvertsEncode := by
  intro i rest h
  have hsel := selectRow_encodeWord0 i
  have hback := instr_encodeWord0 h
  rw [encode_eq]
  split_ifs with hw
  · exact (decode_twoWords _ rest hsel hw).trans (by rw [hback])
  · have hext : i.extension = 0 := by
      cases i <;> first | rfl | exact absurd rfl hw
    rw [hext] at hback
    exact (decode_oneWord rest hsel hw).trans (by rw [hback])

/-! ### From words to their op and back -/

/-- A word whose fields are given (R48). -/
theorem opWord_eq {w : Word} {opc a : Byte} {b : BitVec 16} (hopc : opcField w = opc) (ha : a = aField w)
    (hb : b = bField w) : opWord opc a b = w := by
  rw [← hopc, ha, hb, opWord_fields]

/-- A field whose bits are all reserved is zero. -/
theorem zero_of_reserved {n : Nat} {x : BitVec n} (h : x &&& BitVec.allOnes n = 0) : 0 = x :=
  (BitVec.and_allOnes.symm.trans h).symm

/-- A field whose bits from k on are reserved is its low k bits. -/
theorem low_of_reserved {n k : Nat} {x : BitVec (n + k)} (h : x &&& (BitVec.allOnes n ++ 0#k) = 0) :
    0#n ++ x.extractLsb' 0 k = x := by
  apply BitVec.eq_of_getLsbD_eq
  intro i hi
  have hbit := congrArg (·.getLsbD i) h
  simp only [BitVec.getLsbD_and, BitVec.getLsbD_append, BitVec.getLsbD_allOnes] at hbit
  rw [BitVec.getLsbD_append, BitVec.getLsbD_extractLsb']
  by_cases hik : i < k
  · simp [hik]
  · have hin : i - k < n := by omega
    simpa [hik, hin] using hbit.symm

/-- The low bit of a field, as the bit operand reads it. -/
theorem ofBool_getLsbD_zero {n : Nat} (x : BitVec n) : BitVec.ofBool (x.getLsbD 0) = x.extractLsb' 0 1 := by
  apply BitVec.eq_of_getLsbD_eq
  intro i hi
  obtain rfl : i = 0 := by omega
  simp

/-- Field `B` is its bit operand where the bits above it are clear (R50). -/
theorem bitB_of_reserved {b : BitVec 16} (h : b &&& 0xFFFE = 0) : bitB (b.getLsbD 0) = b := by
  unfold bitB
  rw [ofBool_getLsbD_zero]
  exact low_of_reserved (n := 15) (k := 1) h

/-- Field `A` is its bit operand where the bits above it are clear (R50). -/
theorem bitA_of_reserved {a : Byte} (h : a &&& 0xFE = 0) : bitA (a.getLsbD 0) = a := by
  unfold bitA
  rw [ofBool_getLsbD_zero]
  exact low_of_reserved (n := 7) (k := 1) h

/-- Field `B` is its byte operand where the bits above it are clear (R50). -/
theorem byteB_of_reserved {b : BitVec 16} (h : b &&& 0xFF00 = 0) : byteB (b.extractLsb' 0 8) = b :=
  low_of_reserved (n := 8) (k := 8) h

theorem lineOperand_bit (w : Word) : (lineOperand w).bit = (aField w).getLsbD 0 := by
  unfold lineOperand
  cases (aField w).getLsbD 0 <;> rfl

theorem dirOperand_bit (w : Word) : (dirOperand w).bit = (bField w).getLsbD 0 := by
  unfold dirOperand
  cases (bField w).getLsbD 0 <;> rfl

/-- The extension word is its four character lanes (R49). -/
theorem extWord_strLane (e : Word) : extWord (strLane e 0) (strLane e 1) (strLane e 2) (strLane e 3) = e := by
  unfold extWord strLane
  rw [BitVec.extractLsb'_append_extractLsb'_eq_extractLsb' (by rfl),
    BitVec.extractLsb'_append_extractLsb'_eq_extractLsb' (by rfl),
    BitVec.extractLsb'_append_extractLsb'_eq_extractLsb' (by rfl), BitVec.extractLsb'_eq_self]

/-- The op of a row has that row. -/
theorem mnemonic_instr (m : Mnemonic) (w e : Word) : (m.instr w e).mnemonic = m := by
  cases m <;> rfl

theorem instr_wf (m : Mnemonic) (w e : Word) : (m.instr w e).wf = true := by
  cases m with
  | INIT | DINT | SETBRI => exact isInt16_operand w
  | _ => rfl

/-- The second word the op of a row was read from. -/
theorem instr_extension {m : Mnemonic} (w e : Word) (h : m.row.words = 2) : (m.instr w e).extension = e := by
  cases m with
  | DSTR => exact extWord_strLane e
  | _ => cases h

/-- Word 0 comes back from the op read from it: its `OPC` is the row's, its reserved bits are clear, and the other bits
are the operands' (R50, R53). -/
theorem encodeWord0_instr {w : Word} {m : Mnemonic} (e : Word) (h : selectRow w = some m) :
    encodeWord0 (m.instr w e) = w := by
  obtain ⟨hopc, ha, hb⟩ := selectRow_fields h
  cases m with
  | WAIT | SAMPLE | START | STOP | CLEAR | DSTR => exact opWord_eq hopc (zero_of_reserved ha) (zero_of_reserved hb)
  | SETCLK | SETDIO | DCOLON | ENABLE => exact opWord_eq hopc (zero_of_reserved ha) (bitB_of_reserved hb)
  | WRBYTE | SENDCMD | ENCODE => exact opWord_eq hopc (zero_of_reserved ha) (byteB_of_reserved hb)
  | DSEG | DCHAR => exact opWord_eq hopc rfl (byteB_of_reserved hb)
  | DINT | SETBRI => exact opWord_eq hopc (zero_of_reserved ha) (BitVec.ofInt_toInt ..)
  | INIT => exact opWord_eq hopc (bitA_of_reserved ha) (BitVec.ofInt_toInt ..)
  | SETDIR =>
    refine opWord_eq hopc ?_ ?_
    · rw [lineOperand_bit]
      exact bitA_of_reserved ha
    · rw [dirOperand_bit]
      exact bitB_of_reserved hb

/-- Settles O2: every word read comes back, word 0 from the fields and the extension word from its lanes. -/
theorem encodeInvertsDecode : Obligations.EncodeInvertsDecode := by
  intro ws rest i h
  obtain ⟨w, m, hsel, ⟨hw, rfl, rfl⟩ | ⟨hw, e, rfl, rfl⟩⟩ := decode_cases h
  · refine ⟨instr_wf m w 0, ?_⟩
    rw [encode_eq, mnemonic_instr, if_neg hw, encodeWord0_instr 0 hsel]
    rfl
  · refine ⟨instr_wf m w e, ?_⟩
    rw [encode_eq, mnemonic_instr, if_pos hw, encodeWord0_instr e hsel, instr_extension w e hw]
    rfl

/-! ### Words of the spec -/

/-- The words of a well-formed op alone decode to it. -/
theorem decode_of_encode {i : Instr} {ws : List Word} (h : encode i = ws) (hwf : i.wf = true) :
    decode ws = .ok (i, []) := by
  rw [← h, ← List.append_nil (encode i)]
  exact decodeInvertsEncode i [] hwf

/-- Settles O4: each of the words is the encoding of the op the spec gives it, so it decodes to the op. -/
theorem specWordsDecode : Obligations.SpecWordsDecode :=
  ⟨decode_of_encode rfl rfl, decode_of_encode rfl rfl, decode_of_encode rfl rfl, decode_of_encode rfl rfl,
    decode_of_encode rfl rfl, decode_of_encode rfl rfl, decode_of_encode rfl rfl, decode_of_encode rfl rfl,
    decode_of_encode rfl rfl, rfl⟩

end Sys2Proof
end

section
/-! What a word that is no op does to a step (R52 to R54, R61), and TXN of one byte against SENDCMD (R56, R71). -/

namespace Sys2Proof.Machine

/-! ### Words that are no op -/

/-- The scheduler's next decision names an agent that has words left: that agent is chosen (R103). -/
theorem pick_named {s : State} {g : Nat} {sch : List Turn} (hs : s.sched = .agent g :: sch) (hw : s.wordsOf g ≠ []) :
    pick s = some (g, sch) := by
  simp only [pick, hs, (hasNext_wordsOf s g).2 hw, if_true]

/-- The first of an agent's words is the one a fault of it records (R101). -/
theorem wordOf_cons {s : State} {g : Nat} {w : Word} {ws : List Word} (h : s.wordsOf g = w :: ws) : s.wordOf g = w := by
  simp only [State.wordOf, h, List.headD_cons]

/-- A fault the chosen agent raises before its op begins changes only `FAULT`, beside the record of whose turn it is. -/
theorem dispatched_raise {s : State} {g : Nat} {w : Word} {ws : List Word} (sch : List Turn) (c : FaultCode)
    (hw : s.wordsOf g = w :: ws) :
    (s.dispatched g sch).raise c w (s.dispatched g sch).cur (s.dispatched g sch).busy =
      { s with cur := g, sched := sch, fault := some ⟨c, g, s.opidxOf g, w, w⟩ } := by
  simp only [State.raise, dispatched_cur, dispatched_opidxOf, dispatched_wordOf, wordOf_cons hw]
  rfl

/-- Settles O6: the chosen agent's words are decoded before anything else is checked, and the fault is raised in the
state as it was. -/
theorem undecodableWordsFault : Obligations.UndecodableWordsFault := by
  intro s g sch w ws hf hs hw
  have hturn : step s = stepAgent (s.dispatched g sch) := step_pick hf (pick_named hs (by simp [hw]))
  have hwords : (s.dispatched g sch).wordsOf (s.dispatched g sch).cur = w :: ws := (dispatched_wordsOf ..).trans hw
  refine ⟨fun hnone => ?_, ?_⟩
  · have hd := (congrArg decode hwords).trans (decode_illegal ws hnone)
    rw [hturn, stepAgent_illegal hd, dispatched_raise sch .illegalOp hw]
  · rintro rfl rfl
    have hd := (congrArg decode hwords).trans (decode_truncated (m := .DSTR) rfl rfl)
    rw [hturn, stepAgent_truncated hd, dispatched_raise sch .truncated hw]

/-! ### TXN of one byte -/

/-- Settles O38: the sequences of the three ops, one after another, are the sequence of SENDCMD, and each op moves
`OPIDX` by one. -/
theorem txnOpsEqualSendcmd : Obligations.TxnOpsEqualSendcmd := by
  intro s b h
  have hstartOuts : Outs startSeq := start_drives.outs
  have hbyteOuts : Outs (writeByteSeq b) := (writeByte_sends b).outs
  obtain ⟨⟨hf, -, hq⟩, -, -⟩ := id h
  refine ⟨(run (sendCmdSeq b) s.entered).ended s.cur 1, opCycle_transport h rfl, ?_⟩
  calc runOps (txn b []) s
      = runOps [.wrbyte b, .stop] ((run startSeq s.entered).ended s.cur 1) :=
        runOps_cons (opCycle_transport (m := .START) h rfl)
          ((ended_fault ..).trans (run_unfaulted (s := s.entered) startSeq hq hf))
    _ = runOps [.stop] ((run (startSeq ++ writeByteSeq b) s.entered).ended s.cur 2) :=
        runOps_more (mn := .WRBYTE) h hstartOuts (fun _ => rfl) rfl rfl rfl
    _ = runOps [] ((run (sendCmdSeq b) s.entered).ended s.cur 3) :=
        runOps_more (mn := .STOP) h (hstartOuts.append hbyteOuts) (fun _ => rfl) rfl rfl rfl
    _ = some (((run (sendCmdSeq b) s.entered).ended s.cur 1).advance s.cur 2) :=
        congrArg some (ended_advance _ s.cur 1 2).symm

/-! ### The command bytes of the device -/

/-- Settles O39: the definition is R58's own, and its bits are those of each of the four positions. -/
theorem addressCommandByte : Obligations.AddressCommandByte := by
  refine fun p => ⟨rfl, ?_⟩
  revert p
  decide

/-- Settles O40: the bits of the display-control byte for each enable and brightness. -/
theorem configurationCommandBytes : Obligations.ConfigurationCommandBytes := by
  refine ⟨rfl, ?_⟩
  decide

end Sys2Proof.Machine
end

section
/-! The checks of the op cycle after decoding (R61, R99, R100), in one rule for each fault they name, and the op that a
step runs where its words decode (R103). -/

namespace Sys2Proof.Machine

/-! ### The checks after decoding -/

/-- No op but ENCODE starts while another runs. -/
theorem entryFault_reentrant {m : Mnemonic} {s : State} (hm : m.row.family ≠ .encoder) (hb : s.busy = true) :
    entryFault m s = some .reentrant := by
  simp only [entryFault, hm, hb, ne_eq, not_false_eq_true, and_self, if_true]

/-- Before INIT no other op of the driver starts. -/
theorem entryFault_notInitialised {m : Mnemonic} {s : State} (hb : s.busy = false) (hm : m.row.family = .driver)
    (hinit : m ≠ .INIT) (hn : s.inited = false) : entryFault m s = some .notInitialised := by
  have hidle : ¬ (m.row.family ≠ .encoder ∧ s.busy = true) := by simp [hb]
  rw [entryFault, if_neg hidle, if_pos ⟨hm, hinit, hn⟩]

/-- INIT runs once. -/
theorem entryFault_initTwice {s : State} (hb : s.busy = false) (hn : s.inited = true) :
    entryFault .INIT s = some .initTwice := by
  simp [entryFault, hb, hn]

theorem linesOut_eq_false {s : State} : s.linesOut = false ↔ s.clkDir ≠ some .out ∨ s.dioDir ≠ some .out := by
  simp [State.linesOut, ← not_and_or]

/-- An op that drives the lines needs both as outputs; INIT makes them so itself. -/
theorem entryFault_linesNotOutput {m : Mnemonic} {s : State} (hb : s.busy = false)
    (hm : m.row.family = .transport ∨ (m.row.family = .driver ∧ m ≠ .INIT ∧ s.inited = true))
    (hlines : s.linesOut = false) : entryFault m s = some .linesNotOutput := by
  have hidle : ¬ (m.row.family ≠ .encoder ∧ s.busy = true) := by simp [hb]
  obtain ⟨hfam, hinit, hready⟩ : (m.row.family = .transport ∨ m.row.family = .driver) ∧ m ≠ .INIT ∧
      ¬ (m.row.family = .driver ∧ m ≠ .INIT ∧ s.inited = false) := by
    rcases hm with ht | ⟨hd, hinit, hn⟩
    · exact ⟨.inl ht, fun hinit => absurd ht (by simp [hinit, Mnemonic.row]), by simp [ht]⟩
    · exact ⟨.inr hd, hinit, by simp [hn]⟩
  rw [entryFault, if_neg hidle, if_neg hready, if_neg (fun ⟨hm, _⟩ => hinit hm), if_pos ⟨hfam, hinit, hlines⟩]

/-- An op whose check fails raises that check's fault with the op's word, and changes nothing but `FAULT`. -/
theorem exec_entryFault {i : Instr} {s : State} {c : FaultCode} (hi : i.mnemonic.row.family ≠ .encoder)
    (hc : entryFault i.mnemonic s = some c) :
    exec i s = .next { s with fault := some ⟨c, s.cur, s.opidxOf s.cur, s.wordOf s.cur, s.wordOf s.cur⟩ } := by
  obtain ⟨body, hexec⟩ := exec_opCycle i hi s
  rw [hexec, opCycle_fault body hc]
  rfl

/-- Settles O7: each clause's premises are those under which `entryFault` names its fault. -/
theorem entryChecksFaultInOrder : Obligations.EntryChecksFaultInOrder := by
  intro i s
  refine ⟨fun hi hb => ?_, fun hb hm hinit hn => ?_, fun hb hm hn => ?_, fun hb hm hdir => ?_⟩
  · exact exec_entryFault hi (entryFault_reentrant hi hb)
  · exact exec_entryFault (by simp [hm]) (entryFault_notInitialised hb hm hinit hn)
  · exact exec_entryFault (by simp [hm, Mnemonic.row]) (hm ▸ entryFault_initTwice hb hn)
  · have hi : i.mnemonic.row.family ≠ .encoder := by
      rcases hm with ht | ⟨hd, -, -⟩
      · simp [ht]
      · simp [hd]
    exact exec_entryFault hi (entryFault_linesNotOutput hb hm (linesOut_eq_false.2 hdir))

/-! ### The op of a step -/

/-- Without interrupt agents only the foreground agent has a next op. -/
theorem hasNext_foreground {s : State} {g : Nat} (hirqs : s.irqs = []) (h : s.hasNext g = true) : g = 0 := by
  obtain ⟨a, ha, -⟩ := (hasNext_iff s g).1 h
  cases g with
  | zero => rfl
  | succ k => simp [agent?_succ, hirqs] at ha

/-- The foreground agent has the lowest number. -/
theorem firstReady_foreground {s : State} (h : s.hasNext 0 = true) : s.firstReady = some 0 := by
  simp [State.firstReady, List.range_succ_eq_map, h]

/-- The only agent there is is chosen, whatever the scheduler's next decision says; that decision is used up. -/
theorem pick_foreground {s : State} (hirqs : s.irqs = []) (h : s.hasNext 0 = true) :
    pick s = some (0, s.sched.tail) := by
  have hfirst := firstReady_foreground h
  unfold pick
  cases s.sched with
  | nil => simp [hfirst]
  | cons turn rest =>
    cases turn with
    | proceed => simp [hfirst]
    | agent g =>
      by_cases hg : s.hasNext g = true
      · obtain rfl := hasNext_foreground hirqs hg
        simp [h]
      · simp [hg, hfirst]

/-- The step of the agent that is chosen runs the op its words decode to. -/
theorem step_runs_decoded {s : State} {g : Nat} {rest : List Turn} {i : Instr} {ws : List Word} (hf : s.fault = none)
    (hp : pick s = some (g, rest)) (hd : decode (s.wordsOf g) = .ok (i, ws)) :
    step s = exec i { s with cur := g, sched := rest } := by
  have hwords : decode ((s.dispatched g rest).wordsOf (s.dispatched g rest).cur) = .ok (i, ws) := by
    rw [dispatched_cur, dispatched_wordsOf, hd]
  rw [step_pick hf hp, stepAgent_ok hwords]
  rfl

/-- Settles O5: an agent whose words decode has words, so the scheduler's word for it, or its being alone, makes it the
one chosen. -/
theorem stepRunsDecodedOp : Obligations.StepRunsDecodedOp := by
  intro s g i ws hf hd
  have hw : s.wordsOf g ≠ [] := by
    intro hnil
    rw [(decode_empty_iff _).2 hnil] at hd
    cases hd
  refine ⟨fun rest hs => step_runs_decoded hf (pick_named hs hw) hd, ?_⟩
  rintro hirqs rfl
  exact step_runs_decoded hf (pick_foreground hirqs ((hasNext_wordsOf s 0).2 hw)) hd

end Sys2Proof.Machine
end

section
/-! The five line primitives in a restful state (R62 to R66): their events as `exec_setclk` to `exec_sample` give them,
and what the one receiver step after each (`Rx.see`) does. -/

namespace Sys2Proof.Machine

/-! ### Events on the lines -/

/-- Settles O22: one event and one receiver step each; the receiver ends with the new levels on record. -/
theorem linePrimitivesComplete : Obligations.LinePrimitivesComplete := by
  intro s h
  exact ⟨fun v => ⟨_, exec_setclk v h, see_pclk .., see_pdio .., see_steps ..⟩,
    fun v => ⟨_, exec_setdio v h, see_pclk .., see_pdio .., see_steps ..⟩,
    fun d => ⟨_, exec_setdir_clk d h, see_pclk .., see_pdio .., see_steps ..⟩,
    fun d => ⟨_, exec_setdir_dio d h, see_pclk .., see_pdio .., see_steps ..⟩,
    ⟨_, exec_wait h, see_pclk .., see_pdio .., see_steps ..⟩⟩

/-- Settles O24: WAIT changes no line, and `see_idle` is the receiver's step then. -/
theorem waitChangesNoState : Obligations.WaitChangesNoState := by
  intro s h hw
  obtain ⟨hsame, hlog⟩ := see_idle hw
  refine ⟨_, exec_wait h, ?_, fun hclk => ?_⟩
  · rw [advance_rx]
    exact hsame
  · rw [advance_rx]
    exact hlog hclk

/-! ### Reading the data line -/

/-- A read of a line with a level gives the level and uses up no draw (R20, R66). -/
theorem read_of_level {s : State} {b : Bool} (h : s.dioBus = .bit b) :
    s.readLevel = b ∧ s.useDraw = s := by
  simp only [State.readLevel, State.useDraw, h, and_self]

/-- A read of a line without a level gives the next draw and uses it up (R20, R66). -/
theorem read_of_noLevel {s : State} (h : ∀ b, s.dioBus ≠ .bit b) :
    s.readLevel = s.smpDraw ∧
    s.useDraw = { s with smpTape := s.smpTape.tail, smpDraws := s.smpDraws + 1 } := by
  unfold State.readLevel State.useDraw
  cases hbus : s.dioBus with
  | bit b => exact absurd hbus (h b)
  | float => exact ⟨rfl, rfl⟩
  | unknown => exact ⟨rfl, rfl⟩

/-- Settles O23: what is read is `read_of_level` or `read_of_noLevel`; SAMPLE changes no line, and `see_idle` is the
receiver's step then. -/
theorem sampleReadsTheDataLine : Obligations.SampleReadsTheDataLine := by
  intro s h
  refine ⟨_, _, _, _, exec_sample h, fun b hb => ?_, fun hb => ?_, see_idle⟩
  · obtain ⟨hread, hdraw⟩ := read_of_level hb
    exact ⟨hread, by rw [hdraw], by rw [hdraw]⟩
  · obtain ⟨hread, hdraw⟩ := read_of_noLevel hb
    refine ⟨by rw [hdraw], by rw [hdraw], fun d ds htape => ?_⟩
    rw [hread, State.smpDraw, htape, List.headD_cons]

/-! ### A clock without a level -/

/-- An event that leaves the clock unknown desynchronises the receiver (R111). -/
theorem see_unknown_clock (rx : Rx) (dir : Option Dir) (out ext : Bool) :
    rx.see .unknown dir out ext =
      { ({ rx with steps := rx.steps + 1 } : Rx).desync with
        pclk := .unknown, pdio := dioLevel dir out false ext } := by
  simp only [Rx.see, Rx.levels, if_true]
  rfl

/-- Settles O27: the clock as an input has no level (R18), and the receiver's step is that of `see_unknown_clock`; no
position is known after it, as at power-on. -/
theorem clockInputDesynchronises : Obligations.ClockInputDesynchronises := by
  intro s h
  have hrx := see_unknown_clock s.rx s.dioDir s.dioOut s.launch.extPullup
  refine ⟨_, exec_setdir_clk .inp h, ?_, ?_⟩
  · rw [clkBus_eq, advance_clkDir]
    rfl
  · rw [advance_rx]
    simp only [clkLevel, hrx]
    exact ⟨rfl, rfl, rfl, rfl, rfl, rfl, dispAt_reset, rfl, rfl⟩

end Sys2Proof.Machine
end

section
/-! The four transport ops from every state that passes their checks (R68 to R74): the op cycle around one sequence, what
the sequence does to the lines whatever the receiver does, and what it does to the receiver. -/

namespace Sys2Proof.Machine

/-! ### The op cycle around a transport sequence -/

/-- What the op cycle makes of a sequence's last state: `BUSY` and the mark of the op's first event are as before the op
(R61). -/
theorem entered_ended {s : State} (hb : s.busy = false) (c d : Bool) (ack smp : Option Bool) (tr : List Event) (rx' : Rx)
    (n : Nat) :
    ({ s.entered with clkOut := c, dioOut := d, ack := ack, smp := smp, midOp := true, traceRev := tr, rx := rx' } :
      State).ended s.cur n =
    ({ s with clkOut := c, dioOut := d, ack := ack, smp := smp, traceRev := tr, rx := rx', midOp := false } :
      State).advance s.cur n := by
  obtain ⟨⟩ := s
  cases hb
  rfl

/-- A transport op that passes its checks leaves of the block what its sequence leaves. -/
theorem transport_completes {m : Mnemonic} {ms : List Micro} {s : State} {c d : Bool} {ack smp : Option Bool}
    {tr : List Event} {rx' : Rx} (h : s.transportReady) (hm : m.row.family = .transport)
    (e : run ms s.entered = { s.entered with
      clkOut := c, dioOut := d, ack := ack, smp := smp, midOp := true, traceRev := tr, rx := rx' }) :
    opCycle m (run ms) s = .next (({ s with
      clkOut := c, dioOut := d, ack := ack, smp := smp, traceRev := tr, rx := rx', midOp := false } :
        State).advance s.cur m.row.words) := by
  obtain ⟨⟨-, hb, -⟩, -, -⟩ := id h
  rw [opCycle_transport h hm, e, entered_ended hb]

theorem received_of_receivedRev {r r' : Rx} (h : r'.receivedRev = r.receivedRev) : r'.received = r.received :=
  congrArg List.reverse h

/-! ### START and STOP -/

/-- Settles O29: `run_start` gives the lines and the opened frame, `run_start_seen` that no byte is completed. -/
theorem startOpensAFrame : Obligations.StartOpensAFrame := by
  intro s h hw
  obtain ⟨⟨hf, -, hq⟩, hc, hd⟩ := id h
  obtain ⟨rx', e, hin, hnbyte, hcmd, -, hheld⟩ := run_start (s := s.entered) hq hf hc hd (entered_wireInv hw)
  obtain ⟨hseen, -⟩ := run_start_seen (s := s.entered) hq hf hc hd (entered_wireInv hw)
  rw [e] at hseen
  refine ⟨rx', transport_completes (m := .START) h rfl e, hin.sync, hin.frame, hin.phase, hin.bits, hnbyte, hcmd,
    hin.drv, received_of_receivedRev hseen, fun hdrv => ?_⟩
  have hheld := hheld hdrv
  simp only [Rx.held, Prod.mk.injEq] at hheld
  exact hheld

/-- Settles O30: `stop_drives` gives the lines for every receiver, `run_stop` the closed frame where the receiver is not
in the ninth clock of a byte. -/
theorem stopClosesTheFrame : Obligations.StopClosesTheFrame := by
  intro s h
  obtain ⟨⟨hf, -, hq⟩, hc, hd⟩ := id h
  obtain ⟨rx', e⟩ := stop_drives s.entered hq hf
  refine ⟨rx', transport_completes (m := .STOP) h rfl e, fun hw hdrv hphase hbits => ?_⟩
  have hpclk : s.rx.pclk = .bit s.clkOut := by rw [hw.pclk, State.clkBus, hc]; rfl
  have hpdio : s.rx.pdio = .bit s.dioOut := by rw [hw.pdio, State.dioBus, hd, hdrv]; rfl
  obtain ⟨r, er, hsync, hframe, -, hbits', hdrv', -, -, -, hheld, hevents⟩ :=
    run_stop (s := s.entered) hq hf hc hd hw.rx.frame_sync hphase hbits hw.rx.noFrame_bits hdrv hpclk hpdio
  obtain rfl : rx' = r := congrArg State.rx (e.symm.trans er)
  simp only [Rx.held, Prod.mk.injEq] at hheld
  exact ⟨hsync, hframe, hbits', hdrv', received_of_receivedRev (receivedRev_stop hevents), hheld⟩

/-! ### WRBYTE -/

/-- Settles O31: `writeByte_lines` names the one answer; the counts are those of `byteTrace`, the same events newest
first. -/
theorem wrbyteShiftsOutTheByte : Obligations.WrbyteShiftsOutTheByte := by
  intro s v h
  obtain ⟨⟨hf, -, hq⟩, -, hd⟩ := id h
  obtain ⟨a, rx', e⟩ := writeByte_lines (s := s.entered) v hq hf hd
  refine ⟨a, rx', ?_, by simp [dataEvents], ?_, ?_⟩
  · rw [byteTrace_eq]
    exact transport_completes (m := .WRBYTE) h rfl e
  · rw [← List.length_reverse, byteTrace_eq, byteTrace_length]
  · rw [← List.count_reverse, byteTrace_eq, byteTrace_waits]

/-- A receiver outside a frame pulls nothing, so its record of the bus is the host's own levels. -/
theorem outOfFrame_of_wireInv {s : State} (hw : s.WireInv) (hc : s.clkDir = some .out) (hd : s.dioDir = some .out)
    (hframe : s.rx.frame = false) : s.rx.OutOfFrame s.clkOut s.dioOut := by
  have hdrv : s.rx.drv = false := by
    by_contra hpull
    have hin := (hw.rx.drv_ack (by simpa using hpull)).1
    simp [hframe] at hin
  refine ⟨hframe, hdrv, ?_, ?_⟩
  · rw [hw.pclk, State.clkBus, hc]
    rfl
  · rw [hw.pdio, State.dioBus, hd, hdrv]
    rfl

/-- Settles O33: outside a frame `run_writeByte_out` gives the whole state. -/
theorem wrbyteOutsideAFrameIsIgnored : Obligations.WrbyteOutsideAFrameIsIgnored := by
  intro s v h hw hframe
  obtain ⟨⟨hf, -, hq⟩, hc, hd⟩ := id h
  have e := run_writeByte_out (s := s.entered) v hq hf hc hd (outOfFrame_of_wireInv (s := s) hw hc hd hframe)
  exact ⟨_, transport_completes (m := .WRBYTE) h rfl e, advance_ack .., advance_smp .., advance_dioOut ..,
    (advance_fault ..).trans hf, advance_rx ..⟩

/-! ### SENDCMD -/

/-- `SendCmdSeq` (R71) with a receiver that acknowledges every byte, whether or not it pulls the line at the beginning:
the start condition ends the pull (R111), and the receiver sees the one byte. -/
theorem run_sendCmd_acked {s : State} (v : Byte) (hq : s.quiet = true) (hf : s.fault = none) (hc : s.clkDir = some .out)
    (hd : s.dioDir = some .out) (hw : s.WireInv) (hacks : s.rx.ackPlan = .always) :
    (run (sendCmdSeq v) s).ack = some true ∧ (run (sendCmdSeq v) s).rx.receivedRev = (v, true) :: s.rx.receivedRev ∧
    (run (sendCmdSeq v) s).rx.frame = false := by
  obtain ⟨r1, e1, hin, -, -, hacks1, -⟩ := run_start hq hf hc hd hw
  obtain ⟨hseen, -⟩ := run_start_seen hq hf hc hd hw
  rw [e1] at hseen
  obtain ⟨r2, e2, hlike, hphase, hbits, hdrv, hpclk, hpdio, hacks2, hbyte, -⟩ := acked_byte v (s := { s with
    clkOut := true, dioOut := false, midOp := true, traceRev := startTrace ++ s.traceRev, rx := r1 })
    hq hf hc hd hin (hacks1.trans hacks)
  obtain ⟨hsync, hframe, -, -, -⟩ := hlike
  have hframeSync : r2.frame = true → r2.sync = true := by
    rw [hsync, hframe]
    exact byte_frame_sync (fun _ => hin.sync) v true
  obtain ⟨r3, e3, -, hclosed, -, -, -, -, -, hevents⟩ := stop_after (s := { s with
      clkOut := false, dioOut := false, smp := some false, ack := some true, midOp := true,
      traceRev := byteTrace v true ++ (startTrace ++ s.traceRev), rx := r2 })
    hq hf hc hd rfl rfl hframeSync hphase hbits hdrv hpclk hpdio hacks2
  rw [sendCmdSeq, run_append, run_append, e1, e2, e3]
  exact ⟨rfl, by rw [receivedRev_stop hevents, hbyte, hseen], hclosed⟩

/-- The events of a one-byte transaction, oldest first. -/
theorem sendCmdEvents_eq (v : Byte) (a : Bool) (tr : List Event) :
    (stopTrace ++ (byteTrace v a ++ (startTrace ++ tr))).reverse =
      tr.reverse ++ startEvents ++ dataEvents v ++ ackEvents a ++ stopEvents := by
  simp only [← byteTrace_eq, List.reverse_append, List.reverse_reverse, List.append_assoc]
  rfl

/-- Settles O36: `sendCmd_lines` gives the events and the frame with the answer named, and `run_sendCmd_acked` what a
working receiver answers and sees. -/
theorem sendcmdSendsOneTransaction : Obligations.SendcmdSendsOneTransaction := by
  intro s v h
  obtain ⟨⟨hf, hb, hq⟩, hc, hd⟩ := id h
  obtain ⟨a, rx', e⟩ := sendCmd_lines (s := s.entered) v hq hf hd
  have hexec : exec (.sendcmd v) s = .next ((run (sendCmdSeq v) s.entered).ended s.cur 1) :=
    opCycle_transport (m := .SENDCMD) h rfl
  refine ⟨a, _, hexec, ?_, ?_, fun hw ⟨hacks, _⟩ => ?_⟩
  · have hsent := sentFrom_ended (u := s) 1 a (stopTrace ++ byteTrace v a ++ startTrace) rx' hb
    simp only [List.append_assoc] at hsent
    rw [e]
    exact hsent
  · rw [State.trace, ended_traceRev, e]
    exact sendCmdEvents_eq v a s.traceRev
  · obtain ⟨hack, hseen, hframe⟩ := run_sendCmd_acked (s := s.entered) v hq hf hc hd (entered_wireInv hw) hacks
    rw [ended_rx]
    refine ⟨?_, ?_, hframe⟩
    · rw [e] at hack
      exact Option.some.inj hack
    · rw [Rx.received, hseen, List.reverse_cons]
      rfl

/-! ### Start and stop conditions -/

/-- Each command byte of the device (R60), as the first byte of a frame, leaves a receiver that acknowledges it
synchronised; an address command does where the address mode is known (R113). -/
theorem opened_command_sync {rx : Rx} {v : Byte} (h : v = 0x40 ∨ v = 0x44 ∨ (∃ e b, v = ctrlByte e b) ∨
    (0xC0 ≤ v.toNat ∧ v.toNat ≤ 0xC7 ∧ rx.mode ≠ none)) : (rx.opened.byte v true).sync = true := by
  rcases h with rfl | rfl | ⟨e, b, rfl⟩ | ⟨hlo, hhi, hmode⟩
  · rfl
  · rfl
  · rw [opened_ctrl]
    rfl
  · have haddr : ∀ w : Byte, 0xC0 ≤ w.toNat → w.toNat ≤ 0xC7 → w ≠ 0x40 ∧ w ≠ 0x44 ∧ w &&& 0xF8 = 0xC0 := by
      decide
    obtain ⟨h40, h44, hmask⟩ := haddr v hlo hhi
    obtain ⟨m, hm⟩ := Option.ne_none_iff_exists'.1 hmode
    simp only [Rx.byte, Rx.opened, Rx.commandByte, h40, h44, hmask, hm, if_true, if_false]

/-- A state that passes a transport op's checks, as the op begins, with a working receiver that does not pull the line. -/
theorem fits_entered {s : State} (h : s.transportReady) (hw : s.WireInv) (hacks : s.rx.ackPlan = .always)
    (hdrv : s.rx.drv = false) : Fits s.entered := by
  obtain ⟨⟨hf, -, hq⟩, hc, hd⟩ := h
  exact ⟨hq, hf, hc, hd, entered_wireInv hw, hdrv, hacks⟩

/-- Settles O37: the derived events that `fits_sendCmd` and `fits_dseg` give, newest first, hold no other start or
stop. -/
theorem dataLineMovesOnlyAtStartAndStop : Obligations.DataLineMovesOnlyAtStartAndStop := by
  intro s h hw ⟨hacks, _⟩ hdrv hhigh
  have hfit := fits_entered h hw hacks hdrv
  refine ⟨fun v hv => ?_, fun pos pat hinit => ?_⟩
  · obtain ⟨rx', e, -, -, -, -, hsync, -, -, hevents⟩ := fits_sendCmd v hfit
    refine ⟨_, opCycle_transport (m := .SENDCMD) h rfl, ?_⟩
    rw [ended_rx, e, Rx.events, hevents hhigh (hsync.trans (opened_command_sync hv)), List.reverse_append]
    rfl
  · obtain ⟨rx', e, -, -, -, -, hevents⟩ := fits_dseg pos pat hfit
    refine ⟨_, opCycle_driver (m := .DSEG) ⟨h, hinit⟩ rfl (by decide), ?_⟩
    rw [ended_rx, e, Rx.events, hevents hhigh, List.reverse_append]
    rfl

end Sys2Proof.Machine
end

section
/-! The driver's ops but INIT, whatever the receiver answers (R72, R86 to R97, R131): each op's body leaves the lines idle
and the last answer in `ACK` and `SMP`, writes registers that do not depend on the answers, and has a number of events
that does so by at most one for each byte. -/

namespace Sys2Proof.Machine

/-! ### Bodies -/

/-- The op's body leaves, from `s` as the op begins, the lines idle, the last answer in `ACK` and `SMP`, the driver's
registers at en, bri and cache, and between n - k and n more events, w of them `WAIT`, whatever the receiver does. -/
def BodySends (body : State → State) (s : State) (en : Option Bool) (bri : Option (BitVec 3)) (cache : Option Byte)
    (n k w : Nat) : Prop :=
  ∃ a tr rx', body s.entered =
    { s.entered with
      clkOut := true, dioDir := some .out, dioOut := true, smp := some (!a), ack := some a, midOp := true,
      cfgEn := en, cfgBri := bri, colonCache := cache, traceRev := tr ++ s.traceRev, rx := rx' } ∧
    tr.length ≤ n ∧ n ≤ tr.length + k ∧ tr.count .wait = w

/-- A body that writes the driver's registers and then runs one sequence. -/
theorem Sends.body {ms : List Micro} {n k w : Nat} (hms : Sends ms (fun _ => true) (fun _ => true) n k w) {s : State}
    (hq : s.quiet = true) (hf : s.fault = none) (en : Option Bool) (bri : Option (BitVec 3)) (cache : Option Byte)
    {body : State → State}
    (hbody : body s.entered = run ms { s.entered with cfgEn := en, cfgBri := bri, colonCache := cache }) :
    BodySends body s en bri cache n k w := by
  obtain ⟨a, tr, rx', e, hcount⟩ := hms { s.entered with cfgEn := en, cfgBri := bri, colonCache := cache } hq hf
  exact ⟨a, tr, rx', hbody.trans e, hcount⟩

/-- The body of CLEAR (R95) on the lines. -/
theorem clear_sends : Sends (dsegSeq 0 0x00 ++ dsegSeq 1 0x00 ++ dsegSeq 2 0x00 ++ dsegSeq 3 0x00) (fun _ => true)
    (fun _ => true) 712 12 272 :=
  (((dseg_sends 0 0x00).append (dseg_sends 1 0x00)).append (dseg_sends 2 0x00)).append (dseg_sends 3 0x00)

/-- The body of DCHAR (R87, R91): the cache is written at operand 1 alone. -/
theorem dchar_body {s : State} (pos pat : Byte) (hq : s.quiet = true) (hf : s.fault = none) :
    BodySends (dcharSeq pos pat) s s.cfgEn s.cfgBri (colonAfter pos (withColon 1 pat s.colonValue) s.colonCache)
      178 3 68 := by
  by_cases hp : pos = 1
  · subst hp
    exact dcharOne_sends (s := s.entered) pat hq hf
  · rw [colonAfter, if_neg hp]
    exact (dseg_sends pos pat).body hq hf _ _ _ (dcharSeq_other pat s.entered hp)

/-- The body of DSTR and DINT (R93, R94): the cache is the pattern sent to position 1. -/
theorem chars_body {s : State} (p0 p1 p2 p3 : Byte) (hq : s.quiet = true) (hf : s.fault = none) :
    BodySends (dcharsFrom 0 [p0, p1, p2, p3]) s s.cfgEn s.cfgBri (some (withColon 1 p1 s.colonValue)) 712 12 272 :=
  chars_sends (s := s.entered) p0 p1 p2 p3 hq hf

/-! ### Whole ops -/

/-- The op completes with the lines idle, the last answer in `ACK` and `SMP`, the driver's registers at en, bri and cache,
and between n - k and n more events, w of them `WAIT`, whatever the receiver does. -/
def Completes (i : Instr) (s : State) (en : Option Bool) (bri : Option (BitVec 3)) (cache : Option Byte) (n k w : Nat) :
    Prop :=
  ∃ a t, exec i s = .next t ∧
    SentFrom { s with cfgEn := en, cfgBri := bri, colonCache := cache } i.mnemonic.row.words a t ∧
    t.cfgEn = en ∧ t.cfgBri = bri ∧ t.colonCache = cache ∧
    t.trace.length ≤ s.trace.length + n ∧ s.trace.length + n ≤ t.trace.length + k ∧
    t.trace.count .wait = s.trace.count .wait + w

/-- A driver op whose checks pass and whose body sends. -/
theorem BodySends.completes {body : State → State} {s : State} {en : Option Bool} {bri : Option (BitVec 3)}
    {cache : Option Byte} {n k w : Nat} (hbody : BodySends body s en bri cache n k w) {i : Instr} (h : s.driverReady)
    (hm : i.mnemonic.row.family = .driver) (hi : i.mnemonic ≠ .INIT) (hexec : exec i s = opCycle i.mnemonic body s) :
    Completes i s en bri cache n k w := by
  obtain ⟨⟨⟨hf, hb, -⟩, -, hd⟩, -⟩ := id h
  obtain ⟨a, tr, rx', e, hle, hge, hwait⟩ := hbody
  rw [← hd] at e
  have hend := opCycle_body body h hm hi e hf rfl
  have hsent := sentFrom_ended (u := { s with cfgEn := en, cfgBri := bri, colonCache := cache }) i.mnemonic.row.words a tr
    rx' hb
  refine ⟨a, _, hexec.trans hend, hsent, advance_cfgEn .., advance_cfgBri .., advance_colonCache .., ?_⟩
  simp only [State.trace, ended_traceRev, List.length_reverse, List.count_reverse, List.length_append, List.count_append]
  omega

/-- A driver op whose checks pass and whose body writes registers and then runs one sequence. -/
theorem Sends.completes {ms : List Micro} {n k w : Nat} (hms : Sends ms (fun _ => true) (fun _ => true) n k w)
    {i : Instr} {s : State} {body : State → State} (h : s.driverReady) (hm : i.mnemonic.row.family = .driver)
    (hi : i.mnemonic ≠ .INIT) (hexec : exec i s = opCycle i.mnemonic body s) (en : Option Bool)
    (bri : Option (BitVec 3)) (cache : Option Byte)
    (hbody : body s.entered = run ms { s.entered with cfgEn := en, cfgBri := bri, colonCache := cache }) :
    Completes i s en bri cache n k w := by
  obtain ⟨⟨⟨hf, -, hq⟩, -, -⟩, -⟩ := id h
  exact (hms.body hq hf en bri cache hbody).completes h hm hi hexec

/-! ### Characters with table entries -/

/-- Four characters with table entries: the table read gives four patterns (R33, R93). -/
theorem romAll_encodable {l : Launch} {cs : List Byte} (hlen : cs.length = 4)
    (hcs : ∀ c ∈ cs, (rom l c).isSome = true) :
    ∃ p0 p1 p2 p3, romAll l cs = .ok [p0, p1, p2, p3] ∧ ∀ c, cs[1]? = some c → rom l c = some p1 := by
  match cs, hlen with
  | [c0, c1, c2, c3], _ =>
    simp only [List.forall_mem_cons, Option.isSome_iff_exists] at hcs
    obtain ⟨⟨p0, h0⟩, ⟨p1, h1⟩, ⟨p2, h2⟩, ⟨p3, h3⟩, -⟩ := hcs
    exact ⟨p0, p1, p2, p3, romAll_four h0 h1 h2 h3, fun c hc => Option.some.inj hc ▸ h1⟩

/-- The digit loop of R85 keeps the number of characters. -/
theorem formatDigits_length (fuel m free : Nat) (cs : List Byte) :
    (formatDigits fuel m free cs).1.length = cs.length := by
  induction fuel generalizing m free cs with
  | zero => rfl
  | succ fuel ih =>
    unfold formatDigits
    dsimp only
    split
    · exact List.length_set
    · rw [ih, List.length_set]

/-- The digit loop of R85 writes digits alone. -/
theorem formatDigits_forall {P : Byte → Prop} (hdigit : ∀ d, d < 10 → P (digitChar d)) (fuel m free : Nat)
    {cs : List Byte} (hcs : ∀ c ∈ cs, P c) : ∀ c ∈ (formatDigits fuel m free cs).1, P c := by
  induction fuel generalizing m free cs with
  | zero => exact hcs
  | succ fuel ih =>
    have hset : ∀ c ∈ cs.set (free - 1) (digitChar (m % 10)), P c := fun c hc => by
      rcases List.mem_or_eq_of_mem_set hc with hc | rfl
      · exact hcs c hc
      · exact hdigit _ (Nat.mod_lt m (by decide))
    unfold formatDigits
    dsimp only
    split
    · exact hset
    · exact ih _ _ hset

/-- `FormatInt` gives four characters (R85). -/
theorem formatInt_length (n : Int) : (formatInt n).length = 4 := by
  unfold formatInt
  dsimp only
  split_ifs
  · rfl
  · rfl
  · rw [List.length_set, formatDigits_length]
    rfl
  · rw [formatDigits_length]
    rfl

theorem rom_digitChar (l : Launch) {d : Nat} (hd : d < 10) : (rom l (digitChar d)).isSome = true := by
  have hrange : 0x30 ≤ (digitChar d).toNat ∧ (digitChar d).toNat ≤ 0x39 := by
    simp [digitChar]
    omega
  obtain ⟨p, hp, -⟩ := rom_integerChar l (.inl hrange)
  rw [hp]
  rfl

/-- Every character of a formatted integer has a table entry (R94), those of the two sentinels too. -/
theorem formatInt_encodable (l : Launch) (n : Int) : ∀ c ∈ formatInt n, (rom l c).isSome = true := by
  have hminus : (rom l 0x2D).isSome = true := rfl
  have hdigits := formatDigits_forall (P := fun c => (rom l c).isSome = true) (fun d hd => rom_digitChar l hd) 4
    n.natAbs 4 (cs := [0x20, 0x20, 0x20, 0x20]) (by simp [rom])
  unfold formatInt
  dsimp only
  split_ifs
  · simp [rom]
  · simp [rom]
  · intro c hc
    rcases List.mem_or_eq_of_mem_set hc with hc | rfl
    · exact hdigits c hc
    · exact hminus
  · exact hdigits

theorem padString_length (c0 c1 c2 c3 : Byte) : (padString [c0, c1, c2, c3]).length = 4 := by
  rw [padString_four]
  rfl

/-! ### Each op -/

theorem exec_dcolon (v : Bool) (s : State) : exec (.dcolon v) s = opCycle .DCOLON (fun u =>
    run (dsegSeq 1 (colonSet u.colonValue v)) { u with colonCache := some (colonSet u.colonValue v) }) s := rfl

theorem exec_enable (on : Bool) (s : State) :
    exec (.enable on) s = opCycle .ENABLE (fun u => ctrlSeq { u with cfgEn := some on }) s := rfl

theorem exec_setbri (v : Int) (s : State) :
    exec (.setbri v) s = opCycle .SETBRI (fun u => ctrlSeq { u with cfgBri := some (clamp v) }) s := rfl

/-- DSTR (R93) of characters with table entries: the pattern of the second is the one cached. -/
theorem dstr_completes {s : State} {c0 c1 c2 c3 : Byte} (h : s.driverReady)
    (henc : encodable s.launch (.dstr c0 c1 c2 c3) = true) :
    ∃ p1, (∀ c, (padString [c0, c1, c2, c3])[1]? = some c → rom s.launch c = some p1) ∧
      Completes (.dstr c0 c1 c2 c3) s s.cfgEn s.cfgBri (some (withColon 1 p1 s.colonValue)) 712 12 272 := by
  obtain ⟨⟨⟨hf, -, hq⟩, -, -⟩, -⟩ := id h
  obtain ⟨p0, p1, p2, p3, hread, hp1⟩ := romAll_encodable (padString_length c0 c1 c2 c3) (List.all_eq_true.1 henc)
  refine ⟨p1, hp1, (chars_body p0 p1 p2 p3 hq hf).completes h rfl nofun ?_⟩
  simp only [exec, execDstr, hread]
  rfl

/-- DINT (R94) of any integer: the pattern of the second character is the one cached. -/
theorem dint_completes {s : State} (n : Int) (h : s.driverReady) :
    ∃ p1, (∀ c, (formatInt n)[1]? = some c → rom s.launch c = some p1) ∧
      Completes (.dint n) s s.cfgEn s.cfgBri (some (withColon 1 p1 s.colonValue)) 712 12 272 := by
  obtain ⟨⟨⟨hf, -, hq⟩, -, -⟩, -⟩ := id h
  obtain ⟨p0, p1, p2, p3, hread, hp1⟩ := romAll_encodable (formatInt_length n) (formatInt_encodable s.launch n)
  refine ⟨p1, hp1, (chars_body p0 p1 p2 p3 hq hf).completes h rfl nofun ?_⟩
  simp only [exec, execDint, hread]
  rfl

/-- DCHAR (R91) of a character with a table entry. -/
theorem dchar_completes {s : State} (pos : Byte) {c pat : Byte} (h : s.driverReady) (hc : rom s.launch c = some pat) :
    Completes (.dchar pos c) s s.cfgEn s.cfgBri (colonAfter pos (withColon 1 pat s.colonValue) s.colonCache) 178 3
      68 := by
  obtain ⟨⟨⟨hf, -, hq⟩, -, -⟩, -⟩ := id h
  refine (dchar_body pos pat hq hf).completes h rfl nofun ?_
  simp only [exec, execDchar, hc]
  rfl

/-- DSEG (R90). -/
theorem dseg_completes {s : State} (pos pat : Byte) (h : s.driverReady) :
    Completes (.dseg pos pat) s s.cfgEn s.cfgBri s.colonCache 178 3 68 :=
  (dseg_sends pos pat).completes (i := .dseg pos pat) h rfl nofun rfl _ _ _ rfl

/-- DCOLON (R92). -/
theorem dcolon_completes {s : State} (v : Bool) (h : s.driverReady) :
    Completes (.dcolon v) s s.cfgEn s.cfgBri (some (colonSet s.colonValue v)) 178 3 68 :=
  (dseg_sends 1 (colonSet s.colonValue v)).completes (i := .dcolon v) h rfl nofun (exec_dcolon v s) _ _ _ rfl

/-- CLEAR (R95). -/
theorem clear_completes {s : State} (h : s.driverReady) :
    Completes .clear s s.cfgEn s.cfgBri s.colonCache 712 12 272 :=
  clear_sends.completes (i := .clear) h rfl nofun rfl _ _ _ rfl

/-- ENABLE (R96). -/
theorem enable_completes {s : State} (on : Bool) (h : s.driverReady) :
    Completes (.enable on) s (some on) s.cfgBri s.colonCache 63 1 24 :=
  (sendCmd_sends (ctrlByte on s.cfgBriValue)).completes (i := .enable on) h rfl nofun (exec_enable on s) _ _ _ rfl

/-- SETBRI (R97). -/
theorem setbri_completes {s : State} (v : Int) (h : s.driverReady) :
    Completes (.setbri v) s s.cfgEn (some (clamp v)) s.colonCache 63 1 24 :=
  (sendCmd_sends (ctrlByte s.cfgEnValue (clamp v))).completes (i := .setbri v) h rfl nofun (exec_setbri v s) _ _ _
    rfl

theorem colonValue_of {s : State} {cache : Byte} (h : s.colonCache = some cache) : s.colonValue = cache := by
  rw [State.colonValue, h]
  rfl

/-! ### All of them -/

/-- What an op that writes `COLON_CACHE`, when it holds `old`, leaves there (R87, R92 to R94). -/
structure CacheWritten (i : Instr) (l : Launch) (old : Byte) (cache : Option Byte) : Prop where
  dcolon : ∀ v, i = .dcolon v →
    ∃ new, cache = some new ∧ (∀ k, k < 7 → new.getLsbD k = old.getLsbD k) ∧ new.getLsbD 7 = v
  dchar : ∀ pos c pat, i = .dchar pos c → rom l c = some pat →
    cache = some (if pos = 1 then pat ||| (old &&& 0x80) else old)
  dstr : ∀ c0 c1 c2 c3 pat, i = .dstr c0 c1 c2 c3 → rom l (if c0 = 0 ∨ c1 = 0 then 0x20 else c1) = some pat →
    cache = some (pat ||| (old &&& 0x80))
  dint : ∀ n c pat, i = .dint n → (formatInt n)[1]? = some c → rom l c = some pat →
    cache = some (pat ||| (old &&& 0x80))

/-- What the driver's registers hold after op `i` begun in `s` (R87, R92 to R97). -/
structure RegistersAfter (i : Instr) (s : State) (en : Option Bool) (bri : Option (BitVec 3)) (cache : Option Byte) :
    Prop where
  enable : ∀ on, i = .enable on → en = some on
  en_kept : i.mnemonic ≠ .ENABLE → en = s.cfgEn
  setbri : ∀ v, i = .setbri v → bri = some (clamp v)
  bri_kept : i.mnemonic ≠ .SETBRI → bri = s.cfgBri
  cache_written : ∀ old, s.colonCache = some old → CacheWritten i s.launch old cache
  cache_kept : i.mnemonic = .DSEG ∨ i.mnemonic = .CLEAR ∨ i.mnemonic = .ENABLE ∨ i.mnemonic = .SETBRI →
    cache = s.colonCache

/-- How many events the op has: n when every byte is acknowledged, at most k fewer, w of them `WAIT` (R131). -/
structure EventCounts (m : Mnemonic) (n k w : Nat) : Prop where
  onePosition : m = .DSEG ∨ m = .DCHAR ∨ m = .DCOLON → n = 178 ∧ k = 3 ∧ w = 68
  allPositions : m = .DSTR ∨ m = .DINT ∨ m = .CLEAR → n = 712 ∧ k = 12 ∧ w = 272
  configuration : m = .ENABLE ∨ m = .SETBRI → n = 63 ∧ k = 1 ∧ w = 24

theorem EventCounts.of_onePosition {m : Mnemonic} (hm : m = .DSEG ∨ m = .DCHAR ∨ m = .DCOLON) :
    EventCounts m 178 3 68 := by
  rcases hm with rfl | rfl | rfl <;> constructor <;> simp

theorem EventCounts.of_allPositions {m : Mnemonic} (hm : m = .DSTR ∨ m = .DINT ∨ m = .CLEAR) :
    EventCounts m 712 12 272 := by
  rcases hm with rfl | rfl | rfl <;> constructor <;> simp

theorem EventCounts.of_configuration {m : Mnemonic} (hm : m = .ENABLE ∨ m = .SETBRI) : EventCounts m 63 1 24 := by
  rcases hm with rfl | rfl <;> constructor <;> simp

/-- An op that writes the cache alone. -/
theorem RegistersAfter.of_cacheWritten {i : Instr} {s : State} {cache : Option Byte}
    (hi : i.mnemonic = .DCHAR ∨ i.mnemonic = .DCOLON ∨ i.mnemonic = .DSTR ∨ i.mnemonic = .DINT)
    (h : ∀ old, s.colonCache = some old → CacheWritten i s.launch old cache) :
    RegistersAfter i s s.cfgEn s.cfgBri cache := by
  refine ⟨?_, fun _ => rfl, ?_, fun _ => rfl, h, ?_⟩
  · rintro on rfl
    simp [Instr.mnemonic] at hi
  · rintro v rfl
    simp [Instr.mnemonic] at hi
  · rcases hi with hi | hi | hi | hi <;> simp [hi]

/-- Every driver op but INIT whose characters have table entries completes, whatever the receiver does. -/
theorem driverOp_completes {s : State} {i : Instr} (h : s.driverReady) (hm : i.mnemonic.row.family = .driver)
    (hi : i.mnemonic ≠ .INIT) (henc : encodable s.launch i = true) :
    ∃ en bri cache n k w, Completes i s en bri cache n k w ∧ RegistersAfter i s en bri cache ∧
      EventCounts i.mnemonic n k w := by
  cases i
  case dseg pos pat =>
    exact ⟨_, _, _, _, _, _, dseg_completes pos pat h,
      ⟨nofun, fun _ => rfl, nofun, fun _ => rfl, fun _ _ => ⟨nofun, nofun, nofun, nofun⟩, fun _ => rfl⟩,
      .of_onePosition (.inl rfl)⟩
  case dchar pos c =>
    obtain ⟨pat, hc⟩ := Option.isSome_iff_exists.1 henc
    refine ⟨_, _, _, _, _, _, dchar_completes pos h hc,
      .of_cacheWritten (.inl rfl) fun old hold => ⟨nofun, ?_, nofun, nofun⟩, .of_onePosition (.inr (.inl rfl))⟩
    rintro _ _ pat' ⟨⟩ hc'
    obtain rfl := Option.some.inj (hc.symm.trans hc')
    rw [colonAfter, colonValue_of hold, hold]
    split <;> rfl
  case dcolon v =>
    refine ⟨_, _, _, _, _, _, dcolon_completes v h,
      .of_cacheWritten (.inr (.inl rfl)) fun old hold => ⟨?_, nofun, nofun, nofun⟩,
      .of_onePosition (.inr (.inr rfl))⟩
    rintro _ ⟨⟩
    rw [colonValue_of hold]
    exact ⟨_, rfl, fun k hk => colonSet_glyph old v hk, colonSet_colon old v⟩
  case dstr c0 c1 c2 c3 =>
    obtain ⟨p1, hp1, hdone⟩ := dstr_completes h henc
    refine ⟨_, _, _, _, _, _, hdone,
      .of_cacheWritten (.inr (.inr (.inl rfl))) fun old hold => ⟨nofun, nofun, ?_, nofun⟩,
      .of_allPositions (.inl rfl)⟩
    rintro _ _ _ _ pat ⟨⟩ hpat
    have hsent := hp1 (if c0 = 0 ∨ c1 = 0 then 0x20 else c1) (by rw [padString_four]; rfl)
    obtain rfl := Option.some.inj (hsent.symm.trans hpat)
    rw [colonValue_of hold]
    rfl
  case dint n =>
    obtain ⟨p1, hp1, hdone⟩ := dint_completes n h
    refine ⟨_, _, _, _, _, _, hdone,
      .of_cacheWritten (.inr (.inr (.inr rfl))) fun old hold => ⟨nofun, nofun, nofun, ?_⟩,
      .of_allPositions (.inr (.inl rfl))⟩
    rintro _ c pat ⟨⟩ hc hpat
    obtain rfl := Option.some.inj ((hp1 c hc).symm.trans hpat)
    rw [colonValue_of hold]
    rfl
  case clear =>
    exact ⟨_, _, _, _, _, _, clear_completes h,
      ⟨nofun, fun _ => rfl, nofun, fun _ => rfl, fun _ _ => ⟨nofun, nofun, nofun, nofun⟩, fun _ => rfl⟩,
      .of_allPositions (.inr (.inr rfl))⟩
  case enable on =>
    refine ⟨_, _, _, _, _, _, enable_completes on h,
      ⟨?_, fun hother => absurd rfl hother, nofun, fun _ => rfl,
        fun _ _ => ⟨nofun, nofun, nofun, nofun⟩, fun _ => rfl⟩,
      .of_configuration (.inl rfl)⟩
    rintro _ ⟨⟩
    rfl
  case setbri v =>
    refine ⟨_, _, _, _, _, _, setbri_completes v h,
      ⟨nofun, fun _ => rfl, ?_, fun hother => absurd rfl hother,
        fun _ _ => ⟨nofun, nofun, nofun, nofun⟩, fun _ => rfl⟩,
      .of_configuration (.inr rfl)⟩
    rintro _ ⟨⟩
    rfl
  case init en bri => exact absurd rfl hi
  all_goals cases hm

/-- Settles O57: `driverOp_completes` names the registers, which depend on the op and `s` alone, and the counts. -/
theorem driverOpsCompleteWithAnyReceiver : Obligations.DriverOpsCompleteWithAnyReceiver := by
  intro s i h hm hi henc
  obtain ⟨_, _, _, n, k, w, ⟨a, t, hexec, hsent, rfl, rfl, rfl, hmost, hleast, hwait⟩, hregs, hcounts⟩ :=
    driverOp_completes h hm hi henc
  refine ⟨a, t, hexec, hsent, hregs.enable, hregs.en_kept, hregs.setbri, hregs.bri_kept, fun cache hcache => ?_,
    hregs.cache_kept, fun hop => ?_, fun hop => ?_, fun hop => ?_⟩
  · obtain ⟨hdcolon, hdchar, hdstr, hdint⟩ := hregs.cache_written cache hcache
    exact ⟨hdcolon, hdchar, hdstr, hdint⟩
  · obtain ⟨rfl, rfl, rfl⟩ := hcounts.onePosition hop
    omega
  · obtain ⟨rfl, rfl, rfl⟩ := hcounts.allPositions hop
    omega
  · obtain ⟨rfl, rfl, rfl⟩ := hcounts.configuration hop
    omega

end Sys2Proof.Machine
end

section
/-! The encoder (R75 to R82): the table's entries in one rule for each kind of character, which codes have one, and the one
outcome of ENCODE for each entry. -/

namespace Sys2Proof.Machine

/-! ### The table -/

/-- The characters '0' to '9'. -/
def digitCodes : List Byte := [0x30, 0x31, 0x32, 0x33, 0x34, 0x35, 0x36, 0x37, 0x38, 0x39]

theorem rom_digitCodes (l : Launch) : digitCodes.map (rom l) = digitPatterns.toList.map some := rfl

/-- Both cases of a letter have its entry (R78). -/
theorem rom_letter (l : Launch) {c : Byte} (k : Fin 26) (hc : c.toNat = 0x61 + k ∨ c.toNat = 0x41 + k) :
    rom l c = some (letterEntry l k) := by
  unfold rom
  rcases hc with hlower | hupper
  · rw [dif_neg (by omega), dif_pos (by omega)]
    simp only [hlower, Nat.add_sub_cancel_left]
  · rw [dif_neg (by omega), dif_neg (by omega), dif_pos (by omega)]
    simp only [hupper, Nat.add_sub_cancel_left]

/-- The codes the encoder accepts (R76): digits, letters of both cases and six other characters. -/
def accepted (c : Byte) : Bool :=
  decide (0x30 ≤ c.toNat ∧ c.toNat ≤ 0x39) || decide (0x61 ≤ c.toNat ∧ c.toNat ≤ 0x7A) ||
    decide (0x41 ≤ c.toNat ∧ c.toNat ≤ 0x5A) || [0x20, 0x2D, 0x5F, 0x3D, 0x27, 0x2C].contains c

/-- The branches of the table that give an entry are the clauses of `accepted` (R80). -/
theorem rom_isSome (l : Launch) (c : Byte) : (rom l c).isSome = accepted c := by
  unfold rom
  split_ifs <;> simp_all [accepted]

theorem accepted_count : ((List.range 256).countP fun n => accepted (BitVec.ofNat 8 n)) = 68 := by
  decide +kernel

/-- Settles O42: the entries by kind of character, and the count over the codes of `rom_isSome`. -/
theorem encoderTable : Obligations.EncoderTable := by
  refine fun l => ⟨rom_digitCodes l, fun k => ⟨rom_letter l k (.inl ?_), rom_letter l k (.inr ?_)⟩, rfl, rfl, rfl, rfl,
    rfl, rfl, ?_⟩
  · exact Nat.mod_eq_of_lt (by omega)
  · exact Nat.mod_eq_of_lt (by omega)
  · simp only [rom_isSome, accepted_count]

/-! ### ENCODE -/

/-- ENCODE of a character with an entry writes it to `PAT` and moves on (R81). -/
theorem encodeBy_entry {s : State} {c p : Byte} (g : Nat) (hc : rom s.launch c = some p) :
    encodeBy g c s = { s with pat := some p }.advance g 1 := by
  simp only [encodeBy, hc]

/-- Settles O41: `exec` of ENCODE is `encodeBy` by the agent whose op runs. -/
theorem encodeWritesThePattern : Obligations.EncodeWritesThePattern :=
  fun s _ _ hc => congrArg Host.Outcome.next (encodeBy_entry s.cur hc)

/-- An ENCODE that ends without a fault leaves the table's entry in `PAT`. -/
theorem encodeBy_pat {g : Nat} {c : Byte} {s : State} (h : (encodeBy g c s).fault = none) :
    (encodeBy g c s).pat = rom s.launch c := by
  cases hc : rom s.launch c with
  | none => simp [encodeBy_unencodable g hc] at h
  | some p => rw [encodeBy_entry g hc, advance_pat]

theorem exec_encode_pat {c : Byte} {s t : State} (h : exec (.encode c) s = .next t) (hf : t.fault = none) :
    t.pat = rom s.launch c := by
  obtain rfl : encodeBy s.cur c s = t := Host.Outcome.next.inj h
  exact encodeBy_pat hf

/-- The patterns of the digits, of '-' and of ' ' are pairwise distinct (R82). -/
theorem rom_integerChars_nodup (l : Launch) : ((digitCodes ++ [0x2D, 0x20]).map (rom l)).Nodup := by
  have hentries : (digitCodes ++ [0x2D, 0x20]).map (rom l) = (digitPatterns.toList ++ [0x40, 0x00]).map some := rfl
  rw [hentries]
  decide

/-- Settles O43: `PAT` is the entry of the character alone, by `exec_encode_pat`; the digits are the first ten of the
characters of `rom_integerChars_nodup`. -/
theorem encoderProperties : Obligations.EncoderProperties := by
  refine fun l => ⟨?_, (rom_integerChars_nodup l).of_append_left, fun _ _ => rom_bit7, rfl, rom_integerChars_nodup l⟩
  rintro s s' c rfl hlaunch t t' ht ht' hf hf'
  rw [exec_encode_pat ht hf, exec_encode_pat ht' hf', hlaunch]

end Sys2Proof.Machine
end

section
/-! What the driver's ops compute from their integer operands: the clamped brightness (R83), the masked position (R84), and
the four characters of a formatted integer, read back (R85). -/

namespace Sys2Proof.Machine

/-! ### Brightness and position -/

/-- In range, clamping changes nothing (R83). -/
theorem clamp_toNat_of_mem {v : Int} (h0 : 0 ≤ v) (h7 : v ≤ 7) : ((clamp v).toNat : Int) = v := by
  rw [clamp, if_neg (by omega), if_neg (by omega), BitVec.toNat_ofInt]
  omega

/-- Settles O44: below and above the range `clamp` is a constant, and in it `clamp_toNat_of_mem` applies. -/
theorem brightnessClamp : Obligations.BrightnessClamp := by
  refine fun v => ⟨?_, by decide, by decide, by decide, by decide, by decide⟩
  split_ifs with hneg hbig
  · simp [clamp, hneg]
  · simp [clamp, hneg, hbig]
  · exact clamp_toNat_of_mem (by omega) (by omega)

/-- Settles O45: the definition is R84's own, and `maskPos_toNat` is its value. -/
theorem positionMask : Obligations.PositionMask :=
  fun pos => ⟨rfl, maskPos_toNat pos, by decide, by decide, by decide, by decide, by decide⟩

/-! ### The characters of a formatted integer -/

/-- The decimal digits of m < 10000, most significant first, without leading zeros. -/
def decimal (m : Nat) : List Byte :=
  if m < 10 then [digitChar (m % 10)]
  else if m < 100 then [digitChar (m / 10 % 10), digitChar (m % 10)]
  else if m < 1000 then [digitChar (m / 100 % 10), digitChar (m / 10 % 10), digitChar (m % 10)]
  else [digitChar (m / 1000 % 10), digitChar (m / 100 % 10), digitChar (m / 10 % 10), digitChar (m % 10)]

/-- The blanks R85 leaves before the digits of m. -/
def blanksBefore (m : Nat) : Nat := 4 - (decimal m).length

/-- The digit loop of R85 right-justifies the digits and stops at the last blank before them. -/
theorem formatDigits_four (m : Nat) : formatDigits 4 m 4 [0x20, 0x20, 0x20, 0x20] =
    (List.replicate (blanksBefore m) 0x20 ++ decimal m, blanksBefore m) := by
  have h1 : m / 10 = 0 ↔ m < 10 := by omega
  have h2 : m / 100 = 0 ↔ m < 100 := by omega
  have h3 : m / 1000 = 0 ↔ m < 1000 := by omega
  simp only [formatDigits, Nat.div_div_eq_div_mul, Nat.reduceMul, h1, h2, h3, blanksBefore, decimal]
  split_ifs <;> rfl

/-- A three-digit number or a shorter one leaves a blank for the sign. -/
theorem blanksBefore_pos {m : Nat} (hm : m < 1000) : 0 < blanksBefore m := by
  unfold blanksBefore decimal
  split_ifs <;> simp

/-- A nonnegative integer in range: blanks, then its digits (R85). -/
theorem formatInt_nonneg {m : Nat} (hm : m < 10000) :
    formatInt m = List.replicate (blanksBefore m) 0x20 ++ decimal m := by
  rw [formatInt, if_neg (by omega), if_neg (by omega), if_neg (by omega), Int.natAbs_natCast, formatDigits_four]

/-- A negative integer in range: blanks, the sign, then the digits of its magnitude (R85). -/
theorem formatInt_neg {m : Nat} (h0 : 0 < m) (hm : m < 1000) :
    formatInt (-m) = List.replicate (blanksBefore m - 1) 0x20 ++ 0x2D :: decimal m := by
  obtain ⟨k, hk⟩ := Nat.exists_eq_succ_of_ne_zero (blanksBefore_pos hm).ne'
  rw [formatInt, if_neg (by omega), if_neg (by omega), if_pos (by omega), Int.natAbs_neg, Int.natAbs_natCast,
    formatDigits_four, hk, Nat.succ_sub_one, List.replicate_succ', List.append_assoc]
  simp [List.set_append_right]

/-! ### Reading it back -/

theorem digitChar_toNat {d : Nat} (hd : d < 10) : (digitChar d).toNat = 0x30 + d := by
  simp [digitChar]
  omega

theorem digitChar_ne {d : Nat} (hd : d < 10) {c : Byte} (hc : c.toNat < 0x30) : digitChar d ≠ c := by
  rintro rfl
  rw [digitChar_toNat hd] at hc
  omega

theorem readDigits_nil (acc : Nat) : readDigits acc [] = some acc := rfl

theorem readDigits_digitChar {d : Nat} (hd : d < 10) (acc : Nat) (cs : List Byte) :
    readDigits acc (digitChar d :: cs) = readDigits (acc * 10 + d) cs := by
  rw [readDigits, digitChar_toNat hd, if_pos (by omega), Nat.add_sub_cancel_left]

/-- A number of several digits is read when the first is not zero. -/
theorem readNat_digitChar {d : Nat} (hd : d < 10) (h0 : d ≠ 0) (c : Byte) (cs : List Byte) :
    readNat (digitChar d :: c :: cs) = readDigits 0 (digitChar d :: c :: cs) := by
  refine if_neg fun h => h0 ?_
  have hval := congrArg BitVec.toNat h
  rw [digitChar_toNat hd] at hval
  exact Nat.add_left_cancel hval

theorem readDigits_decimal {m : Nat} (hm : m < 10000) : readDigits 0 (decimal m) = some m := by
  have hmod : ∀ k, k % 10 < 10 := fun k => Nat.mod_lt k (by decide)
  unfold decimal
  split_ifs <;> simp only [readDigits_digitChar (hmod _), readDigits_nil] <;> exact congrArg some (by omega)

/-- The digits of a number have no leading zero, and read back as the number. -/
theorem readNat_decimal {m : Nat} (hm : m < 10000) : readNat (decimal m) = some m := by
  rw [← readDigits_decimal hm]
  have hmod : ∀ k, k % 10 < 10 := fun k => Nat.mod_lt k (by decide)
  unfold decimal
  split_ifs
  · rfl
  all_goals exact readNat_digitChar (hmod _) (by omega) _ _

/-- Blanks before an integer are passed over. -/
theorem readInteger_blanks (k : Nat) (cs : List Byte) : readInteger (List.replicate k 0x20 ++ cs) = readInteger cs := by
  induction k with
  | zero => rfl
  | succ k ih => exact ih

/-- Where a digit comes first, what follows is read as a number. -/
theorem readInteger_digitChar {d : Nat} (hd : d < 10) (cs : List Byte) :
    readInteger (digitChar d :: cs) = (readNat (digitChar d :: cs)).map Int.ofNat := by
  rw [readInteger, if_neg (digitChar_ne hd (by decide)), if_neg (digitChar_ne hd (by decide))]

theorem readInteger_decimal {m : Nat} (hm : m < 10000) : readInteger (decimal m) = some (m : Int) := by
  have hhead : ∃ d cs, d < 10 ∧ decimal m = digitChar d :: cs := by
    unfold decimal
    split_ifs <;> exact ⟨_, _, Nat.mod_lt _ (by decide), rfl⟩
  obtain ⟨d, cs, hd, he⟩ := hhead
  rw [he, readInteger_digitChar hd, ← he, readNat_decimal hm]
  rfl

theorem readInteger_minus {m : Nat} {cs : List Byte} (h0 : 0 < m) (hcs : readNat cs = some m) :
    readInteger (0x2D :: cs) = some (-(m : Int)) := by
  obtain ⟨k, rfl⟩ := Nat.exists_eq_succ_of_ne_zero h0.ne'
  rw [readInteger, if_neg (by decide), if_pos rfl, hcs]
  rfl

/-! ### FormatInt -/

/-- A formatted integer reads back as it (R85): blanks, a sign, and the digits of its magnitude. -/
theorem readInteger_formatInt {n : Int} (hlo : -999 ≤ n) (hhi : n ≤ 9999) : readInteger (formatInt n) = some n := by
  rcases lt_or_ge n 0 with hneg | hnonneg
  · obtain ⟨m, rfl⟩ : ∃ m : Nat, n = -m := ⟨n.natAbs, by omega⟩
    rw [formatInt_neg (by omega) (by omega), readInteger_blanks,
      readInteger_minus (by omega) (readNat_decimal (by omega))]
  · obtain ⟨m, rfl⟩ := Int.eq_ofNat_of_zero_le hnonneg
    rw [formatInt_nonneg (by omega), readInteger_blanks, readInteger_decimal (by omega)]

/-- The characters of a formatted integer in range are digits, the sign and blanks (R85). -/
theorem formatInt_chars {n : Int} (hlo : -999 ≤ n) (hhi : n ≤ 9999) :
    ∀ c ∈ formatInt n, (0x30 ≤ c.toNat ∧ c.toNat ≤ 0x39) ∨ c = 0x2D ∨ c = 0x20 := by
  have hdigits : ∀ c ∈ (formatDigits 4 n.natAbs 4 [0x20, 0x20, 0x20, 0x20]).1,
      (0x30 ≤ c.toNat ∧ c.toNat ≤ 0x39) ∨ c = 0x2D ∨ c = 0x20 := by
    refine formatDigits_forall (fun d hd => .inl ?_) 4 n.natAbs 4 (by simp)
    rw [digitChar_toNat hd]
    omega
  rw [formatInt, if_neg (by omega), if_neg (by omega)]
  intro c hc
  dsimp only at hc
  split_ifs at hc
  · rcases List.mem_or_eq_of_mem_set hc with hc | rfl
    · exact hdigits c hc
    · exact .inr (.inl rfl)
  · exact hdigits c hc

theorem formatInt_large {n : Int} (h : 9999 < n) : formatInt n = [0x45, 0x39, 0x39, 0x39] := if_pos h

theorem formatInt_small {n : Int} (h : n < -999) : formatInt n = [0x45, 0x2D, 0x39, 0x39] := by
  rw [formatInt, if_neg (by omega), if_pos h]

/-- Settles O46: in range by `readInteger_formatInt` and `formatInt_chars`, out of it by the two sentinels. -/
theorem formattedIntegerReadsBack : Obligations.FormattedIntegerReadsBack :=
  fun n => ⟨formatInt_length n, fun hlo hhi => ⟨readInteger_formatInt hlo hhi, formatInt_chars hlo hhi⟩, formatInt_large,
    formatInt_small⟩

end Sys2Proof.Machine
end

section
/-! The driver's ops but INIT with a working receiver (R86 to R98, R115): each op's body around the sequences of the wire,
and what the receiver holds and shows after it. -/

namespace Sys2Proof.Machine

/-! ### A driver op that is served -/

/-- The checks of a driver op but INIT pass, and a working receiver that does not pull the line hears it. -/
structure Served (s : State) : Prop where
  ready : s.driverReady
  wire : s.WireInv
  premise : s.workingReceiver
  drv : s.rx.drv = false

/-- Op i, begun in s, completes in t with its last byte acknowledged: the driver's registers are at en, bri and cache, the
receiver is between transactions, and there are n more events, w of them `WAIT`. The next op is served too. -/
structure Delivers (i : Instr) (s t : State) (en : Option Bool) (bri : Option (BitVec 3)) (cache : Option Byte)
    (n w : Nat) : Prop where
  exec : exec i s = .next t
  sent : SentFrom { s with cfgEn := en, cfgBri := bri, colonCache := cache } i.mnemonic.row.words true t
  between : t.rx.between
  length : t.trace.length = s.trace.length + n
  waits : t.trace.count .wait = s.trace.count .wait + w
  served : Served t

section
variable {i : Instr} {s t : State} {en : Option Bool} {bri : Option (BitVec 3)} {cache : Option Byte} {n w : Nat}

theorem Delivers.cfgEn (h : Delivers i s t en bri cache n w) : t.cfgEn = en :=
  (congrArg State.cfgEn h.sent.2).trans (advance_cfgEn ..)

theorem Delivers.cfgBri (h : Delivers i s t en bri cache n w) : t.cfgBri = bri :=
  (congrArg State.cfgBri h.sent.2).trans (advance_cfgBri ..)

theorem Delivers.colonCache (h : Delivers i s t en bri cache n w) : t.colonCache = cache :=
  (congrArg State.colonCache h.sent.2).trans (advance_colonCache ..)

theorem Delivers.launch (h : Delivers i s t en bri cache n w) : t.launch = s.launch :=
  (congrArg State.launch h.sent.2).trans (advance_launch ..)

/-- Ops that begin with a served one go on after it. -/
theorem Delivers.runOps_eq (h : Delivers i s t en bri cache n w) (is : List Instr) : runOps (i :: is) s = runOps is t := by
  obtain ⟨⟨⟨hf, -, -⟩, -, -⟩, -⟩ := h.served.ready
  exact runOps_cons h.exec hf

end

/-- The driver's registers are no part of the wire. -/
theorem Fits.registers {s : State} (h : Fits s) (en : Option Bool) (bri : Option (BitVec 3)) (cache : Option Byte) :
    Fits { s with cfgEn := en, cfgBri := bri, colonCache := cache } := by
  obtain ⟨hq, hf, hc, hd, hw, hdrv, hacks⟩ := h
  exact ⟨hq, hf, hc, hd, wireInv_of_eq hw rfl rfl rfl rfl, hdrv, hacks⟩

theorem Served.fits {s : State} (h : Served s) (en : Option Bool) (bri : Option (BitVec 3)) (cache : Option Byte) :
    Fits { s.entered with cfgEn := en, cfgBri := bri, colonCache := cache } :=
  (fits_entered h.ready.1 h.wire h.premise.1 h.drv).registers en bri cache

theorem ended_quiet (u : State) (g n : Nat) : (u.ended g n).quiet = u.quiet :=
  advance_quiet { u with busy := false, midOp := false } g n

/-- Where a driver op's sequences leave a state that fits, the next driver op is served. -/
theorem Fits.ended_served {u : State} (h : Fits u) (hinit : u.inited = true) (htime : u.launch.tMin ≤ u.launch.tDelay)
    (g n : Nat) : Served (u.ended g n) := by
  obtain ⟨hq, hf, hc, hd, hw, hdrv, hacks⟩ := h
  have hready : (u.ended g n).transportReady :=
    ⟨⟨(ended_fault ..).trans hf, advance_busy .., (ended_quiet ..).trans hq⟩, (advance_clkDir ..).trans hc,
      (advance_dioDir ..).trans hd⟩
  have hwire : (u.ended g n).WireInv := by
    refine wireInv_of_eq hw (ended_rx ..) ?_ ?_ (ended_traceRev ..) <;> cases g <;> rfl
  refine ⟨⟨hready, (advance_inited ..).trans hinit⟩, hwire, ⟨?_, ?_⟩, ?_⟩
  · rw [ended_rx, hacks]
  · rw [show (u.ended g n).launch = u.launch from advance_launch ..]
    exact htime
  · rw [ended_rx, hdrv]

/-- The op cycle around a body that sends acknowledged bytes. -/
theorem Served.delivers {i : Instr} {s : State} {body : State → State} {en : Option Bool} {bri : Option (BitVec 3)}
    {cache : Option Byte} {tr : List Event} {rx' : Rx} {n w : Nat} (h : Served s) (hm : i.mnemonic.row.family = .driver)
    (hi : i.mnemonic ≠ .INIT) (hexec : exec i s = opCycle i.mnemonic body s)
    (e : body s.entered = { s.entered with
      cfgEn := en, cfgBri := bri, colonCache := cache, clkOut := true, dioOut := true, smp := some false,
      ack := some true, midOp := true, traceRev := tr ++ s.traceRev, rx := rx' })
    (hfit : Fits (body s.entered)) (hbetween : rx'.between) (hlength : tr.length = n) (hwaits : tr.count .wait = w) :
    ∃ t, Delivers i s t en bri cache n w ∧ t.rx = rx' := by
  obtain ⟨⟨⟨hf, hb, -⟩, -, -⟩, hinit⟩ := id h.ready
  rw [e] at hfit
  have hend := opCycle_body body h.ready hm hi e hf rfl
  have hsent := sentFrom_ended (u := { s with cfgEn := en, cfgBri := bri, colonCache := cache }) i.mnemonic.row.words true
    tr rx' hb
  refine ⟨_, ⟨hexec.trans hend, hsent, ?_, ?_, ?_, hfit.ended_served hinit h.premise.2 _ _⟩, ended_rx ..⟩
  · rw [ended_rx]
    exact hbetween
  · simp only [State.trace, ended_traceRev, List.length_reverse, List.length_append]
    omega
  · simp only [State.trace, ended_traceRev, List.count_reverse, List.count_append]
    omega

/-! ### One position written -/

/-- From r to r' the receiver took pattern `pat` at the masked position, and nothing else of what it shows changed (R86,
R113). -/
structure Rx.Wrote (r r' : Rx) (pos pat : Byte) : Prop where
  dispAt : ∀ p, p < 4 → r'.dispAt p = if p = pos.toNat % 4 then some pat else r.dispAt p
  mode : r'.mode = some .autoinc
  ptr : r'.ptr = some (pos.toNat % 4 + 1)
  dctrlEn : r'.dctrlEn = r.dctrlEn
  dctrlBri : r'.dctrlBri = r.dctrlBri
  received : r'.received = r.received ++ [(0x40, true), (addrByte (maskPos pos), true), (pat, true)]

theorem dispAt_of_set {r r' : Rx} {k : Nat} {d : Option Byte} {hk : k < 4} (h : r'.disp = r.disp.set k d hk) (p : Nat) :
    r'.dispAt p = if p = k then d else r.dispAt p := by
  rw [Rx.dispAt, h, Vector.getElem?_set hk]
  by_cases hp : p = k
  · rw [if_pos hp.symm, if_pos hp, Option.join_some]
  · rw [if_neg (Ne.symm hp), if_neg hp, Rx.dispAt]

theorem Rx.Wrote.of_held {r r' : Rx} {pos pat : Byte}
    (hheld : r'.held = (some .autoinc, some ((maskPos pos).toNat + 1),
      r.disp.set (maskPos pos).toNat (some pat) (maskPos_lt pos), r.dctrlEn, r.dctrlBri))
    (hseen : r'.receivedRev =
      [(pat, true), (addrByte (maskPos pos), true), (dataAutoinc, true)] ++ r.receivedRev) : r.Wrote r' pos pat := by
  simp only [Rx.held, Prod.mk.injEq] at hheld
  obtain ⟨hmode, hptr, hdisp, hen, hbri⟩ := hheld
  refine ⟨fun p _ => ?_, hmode, ?_, hen, hbri, ?_⟩
  · rw [dispAt_of_set hdisp, maskPos_toNat]
  · rw [hptr, maskPos_toNat]
  · rw [Rx.received, hseen, List.reverse_append]
    rfl

/-- A driver op whose body writes the cache and then one position (R86). -/
theorem Served.position {i : Instr} {s : State} {body : State → State} (h : Served s)
    (hm : i.mnemonic.row.family = .driver) (hi : i.mnemonic ≠ .INIT) (hexec : exec i s = opCycle i.mnemonic body s)
    (cache : Option Byte) (pos pat : Byte)
    (hbody : body s.entered = run (dsegSeq pos pat) { s.entered with colonCache := cache }) :
    ∃ t, Delivers i s t s.cfgEn s.cfgBri cache 178 68 ∧ s.rx.Wrote t.rx pos pat := by
  obtain ⟨rx', e, hfit, hbetween, hheld, hseen, -⟩ := fits_dseg pos pat (h.fits s.cfgEn s.cfgBri cache)
  obtain ⟨t, hdone, rfl⟩ := h.delivers hm hi hexec (hbody.trans e) (hbody ▸ hfit) hbetween (dsegTrace_length ..)
    (dsegTrace_waits ..)
  exact ⟨t, hdone, .of_held hheld hseen⟩

/-- DSEG (R90). -/
theorem dseg_delivers {s : State} (pos pat : Byte) (h : Served s) :
    ∃ t, Delivers (.dseg pos pat) s t s.cfgEn s.cfgBri s.colonCache 178 68 ∧ s.rx.Wrote t.rx pos pat :=
  h.position (i := .dseg pos pat) rfl nofun rfl _ pos pat rfl

/-- DCOLON (R92). -/
theorem dcolon_delivers {s : State} (v : Bool) {cache : Byte} (h : Served s) (hcache : s.colonCache = some cache) :
    ∃ t, Delivers (.dcolon v) s t s.cfgEn s.cfgBri (some (colonSet cache v)) 178 68 ∧
      s.rx.Wrote t.rx 1 (colonSet cache v) := by
  rw [← colonValue_of hcache]
  exact h.position (i := .dcolon v) rfl nofun (exec_dcolon v s) _ 1 _ rfl

/-- DCHAR (R91) of a character with a table entry: the pattern sent is cached at operand 1 (R87). -/
theorem dchar_delivers {s : State} (pos : Byte) {c pat cache : Byte} (h : Served s) (hc : rom s.launch c = some pat)
    (hcache : s.colonCache = some cache) :
    ∃ t, Delivers (.dchar pos c) s t s.cfgEn s.cfgBri (colonAfter pos (withColon pos pat cache) (some cache)) 178 68 ∧
      s.rx.Wrote t.rx pos (withColon pos pat cache) := by
  obtain ⟨rx', e, hfit, hbetween, hheld, hseen⟩ := fits_dchar pos pat (h.fits s.cfgEn s.cfgBri s.colonCache)
  have hexec : exec (.dchar pos c) s = opCycle .DCHAR (dcharSeq pos pat) s := by
    simp only [exec, execDchar, hc]
  rw [← hcache, ← colonValue_of hcache]
  obtain ⟨t, hdone, rfl⟩ := h.delivers (i := .dchar pos c) rfl nofun hexec e hfit hbetween (dsegTrace_length ..)
    (dsegTrace_waits ..)
  exact ⟨t, hdone, .of_held hheld hseen⟩

/-- Settles O49: one `DSegSeq` in the op cycle. -/
theorem dsegWritesThePosition : Obligations.DsegWritesThePosition := by
  intro s pos pat hready hwire hpremise hdrv
  obtain ⟨t, hdone, hwrote⟩ := dseg_delivers pos pat ⟨hready, hwire, hpremise, hdrv⟩
  exact ⟨t, hdone.exec, hdone.sent, hdone.between, hwrote.dispAt, hwrote.mode, hwrote.ptr, hwrote.dctrlEn,
    hwrote.dctrlBri, hwrote.received, hdone.length, hdone.waits⟩

/-! ### Characters and the colon -/

/-- What DCHAR sends has the character's glyph, with or without the colon bit (R87). -/
theorem withColon_glyph {l : Launch} {c pat : Byte} (pos cache : Byte) (hc : rom l c = some pat) :
    withColon pos pat cache &&& 0x7F = pat := by
  by_cases hp : pos = 1
  · rw [hp]
    exact glyph_withColon cache (rom_bit7 hc)
  · rw [withColon, if_neg hp]
    exact glyph_of_bit7 (rom_bit7 hc)

/-- Settles O51: what `dchar_delivers` writes is the character's pattern, and `withColon_glyph` its glyph. -/
theorem dcharWritesTheCharacter : Obligations.DcharWritesTheCharacter := by
  intro s pos c pat cache hready hwire hpremise hdrv hc hcache
  obtain ⟨t, hdone, hwrote⟩ := dchar_delivers pos ⟨hready, hwire, hpremise, hdrv⟩ hc hcache
  have hsent := hdone.sent
  have hheld := hwrote.dispAt (pos.toNat % 4) (Nat.mod_lt _ (by decide))
  rw [if_pos rfl] at hheld
  rw [colonAfter, ← apply_ite some] at hsent
  exact ⟨t, withColon pos pat cache, hdone.exec, rfl, hsent, hdone.between, hwrote.dispAt,
    renders_of hheld hc (withColon_glyph pos cache hc), hwrote.dctrlEn, hwrote.dctrlBri, hwrote.received, hdone.length⟩

/-- What a display known to be on or off lights (R115). -/
theorem lit_known {α : Type} [DecidableEq α] {r : Rx} {on : Bool} (dark : α) (held : Option α)
    (hon : r.dctrlEn = some on) : r.lit dark held = if on = true then held else some dark := by
  cases on with
  | false => exact lit_off dark held hon
  | true => exact lit_on dark held hon

/-- The colon is dark where its bit is clear or the display is off (R115). -/
theorem colonLit_of {r : Rx} {on v : Bool} (hon : r.dctrlEn = some on) (hv : r.colonBit = some v) :
    r.colonLit = some (on && v) := by
  rw [Rx.colonLit, hv, lit_known false _ hon]
  cases on <;> rfl

/-- The colon bit of a position 1 just written. -/
theorem Rx.Wrote.colonBit {r r' : Rx} {pat : Byte} (h : r.Wrote r' 1 pat) : r'.colonBit = some (pat.getLsbD 7) := by
  rw [Rx.colonBit, h.dispAt 1 (by decide)]
  rfl

/-- Settles O52: `colonSet` is bit 7 of the operand and the cached glyph. -/
theorem dcolonSetsTheColon : Obligations.DcolonSetsTheColon := by
  intro s v cache hready hwire hpremise hdrv hcache
  obtain ⟨t, hdone, hwrote⟩ := dcolon_delivers v ⟨hready, hwire, hpremise, hdrv⟩ hcache
  have hbit : t.rx.colonBit = some v := by rw [hwrote.colonBit, colonSet_colon]
  exact ⟨t, colonSet cache v, hdone.exec, hdone.sent, fun k hk => colonSet_glyph cache v hk, colonSet_colon cache v,
    hdone.between, hwrote.dispAt, hbit, fun on hon => colonLit_of (hwrote.dctrlEn.trans hon) hbit, hwrote.dctrlEn,
    hwrote.dctrlBri, hwrote.received, hdone.length⟩

/-! ### All four positions written -/

/-- From r to r' the receiver took a pattern at each position, and its configuration stayed (R93 to R95, R113). -/
structure Rx.Filled (r r' : Rx) (p0 p1 p2 p3 : Byte) : Prop where
  disp : r'.disp = #v[some p0, some p1, some p2, some p3]
  mode : r'.mode = some .autoinc
  ptr : r'.ptr = some 4
  dctrlEn : r'.dctrlEn = r.dctrlEn
  dctrlBri : r'.dctrlBri = r.dctrlBri

theorem Rx.Filled.of_held {r r' : Rx} {p0 p1 p2 p3 : Byte}
    (hheld : r'.held = (some .autoinc, some 4, #v[some p0, some p1, some p2, some p3], r.dctrlEn, r.dctrlBri)) :
    r.Filled r' p0 p1 p2 p3 := by
  simp only [Rx.held, Prod.mk.injEq] at hheld
  obtain ⟨hmode, hptr, hdisp, hen, hbri⟩ := hheld
  exact ⟨hdisp, hmode, hptr, hen, hbri⟩

/-- The patterns of the four positions, in order, are all there are. -/
theorem Rx.Filled.dispAt {r r' : Rx} {p0 p1 p2 p3 : Byte} (h : r.Filled r' p0 p1 p2 p3) (p : Nat) :
    r'.dispAt p = [p0, p1, p2, p3][p]? := by
  rw [Rx.dispAt, h.disp]
  match p with
  | 0 | 1 | 2 | 3 | _ + 4 => rfl

/-- A sequence leaves a state that fits where it leaves the lines outputs and the receiver not pulling. -/
theorem fits_run {s : State} (ms : List Micro) (h : Fits s) (hc : (run ms s).clkDir = some .out)
    (hd : (run ms s).dioDir = some .out) (hdrv : (run ms s).rx.drv = false) : Fits (run ms s) :=
  ⟨run_quiet ms h.quiet, run_unfaulted ms h.quiet h.fault, hc, hd, run_wireInv ms h.wire, hdrv, run_acks ms h.acks⟩

/-- CLEAR (R95). -/
theorem clear_delivers {s : State} (h : Served s) :
    ∃ t, Delivers .clear s t s.cfgEn s.cfgBri s.colonCache 712 272 ∧ s.rx.Filled t.rx 0 0 0 0 := by
  have hs := h.fits s.cfgEn s.cfgBri s.colonCache
  obtain ⟨rx', e, hbetween, hheld⟩ := fits_clear hs
  obtain ⟨-, -, -, -, hdrv⟩ := id hbetween
  have hfit := fits_run _ hs ((congrArg State.clkDir e).trans hs.clk) ((congrArg State.dioDir e).trans hs.dio)
    ((congrArg (fun u : State => u.rx.drv) e).trans hdrv)
  obtain ⟨t, hdone, rfl⟩ := h.delivers (i := .clear) (n := 712) (w := 272) rfl nofun rfl e hfit hbetween
    (by simp [dsegTrace_length]) (by simp [dsegTrace_waits])
  exact ⟨t, hdone, .of_held hheld⟩

/-- Settles O55: a position that holds 0x00 lights nothing, on or off (R115). -/
theorem clearBlanksEveryPosition : Obligations.ClearBlanksEveryPosition := by
  intro s hready hwire hpremise hdrv
  obtain ⟨t, hdone, hfilled⟩ := clear_delivers ⟨hready, hwire, hpremise, hdrv⟩
  have hblank : ∀ p, p < 4 → t.rx.dispAt p = some 0x00 := fun p hp => by
    rw [hfilled.dispAt]
    match p, hp with
    | 0, _ | 1, _ | 2, _ | 3, _ => rfl
  have hbit : t.rx.colonBit = some false := by
    rw [Rx.colonBit, hblank 1 (by decide)]
    rfl
  refine ⟨t, hdone.exec, hdone.sent, hdone.between, fun p hp => ⟨hblank p hp, ?_⟩, hbit, ?_, hfilled.mode, hfilled.ptr,
    hfilled.dctrlEn, hfilled.dctrlBri, hdone.length⟩
  · rw [Rx.litSegments, hblank p hp]
    exact lit_dark t.rx 0
  · rw [Rx.colonLit, hbit, lit_dark]

/-! ### Strings and integers -/

/-- Position p has the glyph of the p-th character of cs, each position but the second with bit 7 clear, and the colon bit
of position 1 is `colon` (R87, R93, R94). -/
structure Rx.Shows (l : Launch) (r : Rx) (cs : List Byte) (colon : Bool) : Prop where
  glyph : ∀ (p : Nat) (c : Byte), cs[p]? = some c → ∃ d, r.dispAt p = some d ∧ rom l c = some (d &&& 0x7F)
  plain : ∀ p, p ≠ 1 → ∀ d, r.dispAt p = some d → d.getLsbD 7 = false
  colonBit : r.colonBit = some colon

theorem Rx.Shows.renders {l : Launch} {r : Rx} {cs : List Byte} {colon : Bool} (h : r.Shows l cs colon) {p : Nat} {c : Byte}
    (hc : cs[p]? = some c) : renders l r p c = true := by
  obtain ⟨d, hd, hrom⟩ := h.glyph p c hc
  exact renders_of hd hrom rfl

theorem rom_glyph {l : Launch} {c p : Byte} (h : rom l c = some p) : rom l c = some (p &&& 0x7F) := by
  rw [glyph_of_bit7 (rom_bit7 h), h]

/-- The patterns of four characters, the second with the cached colon bit, show the characters. -/
theorem Rx.Filled.shows {l : Launch} {r r' : Rx} {p0 p1 p2 p3 c0 c1 c2 c3 : Byte} (cache : Byte)
    (h : r.Filled r' p0 (withColon 1 p1 cache) p2 p3) (h0 : rom l c0 = some p0) (h1 : rom l c1 = some p1)
    (h2 : rom l c2 = some p2) (h3 : rom l c3 = some p3) : r'.Shows l [c0, c1, c2, c3] (cache.getLsbD 7) := by
  refine ⟨fun p c hc => ?_, fun p hp d hd => ?_, ?_⟩
  · match p, hc with
    | 0, rfl => exact ⟨_, h.dispAt 0, rom_glyph h0⟩
    | 1, rfl => exact ⟨_, h.dispAt 1, h1.trans (congrArg some (withColon_glyph 1 cache h1).symm)⟩
    | 2, rfl => exact ⟨_, h.dispAt 2, rom_glyph h2⟩
    | 3, rfl => exact ⟨_, h.dispAt 3, rom_glyph h3⟩
  · rw [h.dispAt] at hd
    match p, hp, hd with
    | 0, _, rfl => exact rom_bit7 h0
    | 2, _, rfl => exact rom_bit7 h2
    | 3, _, rfl => exact rom_bit7 h3
  · rw [Rx.colonBit, h.dispAt]
    exact congrArg some (colon_withColon cache (rom_bit7 h1))

/-- An op that shows four characters with table entries (R93, R94): its body is `DCharSeq` of each pattern, in order. -/
theorem Served.characters {i : Instr} {s : State} {cache : Byte} {cs : List Byte} (h : Served s)
    (hm : i.mnemonic.row.family = .driver) (hi : i.mnemonic ≠ .INIT)
    (hexec : ∀ pats, romAll s.launch cs = .ok pats → exec i s = opCycle i.mnemonic (dcharsFrom 0 pats) s)
    (hlength : cs.length = 4) (hcs : ∀ c ∈ cs, (rom s.launch c).isSome = true) (hcache : s.colonCache = some cache) :
    ∃ t p0 sent p2 p3, Delivers i s t s.cfgEn s.cfgBri (some sent) 712 272 ∧ s.rx.Filled t.rx p0 sent p2 p3 ∧
      t.rx.Shows s.launch cs (cache.getLsbD 7) := by
  match cs, hlength with
  | [c0, c1, c2, c3], _ =>
    simp only [List.forall_mem_cons, Option.isSome_iff_exists] at hcs
    obtain ⟨⟨p0, h0⟩, ⟨p1, h1⟩, ⟨p2, h2⟩, ⟨p3, h3⟩, -⟩ := hcs
    obtain ⟨rx', e, hfit, hbetween, hheld⟩ := fits_chars p0 p1 p2 p3 (h.fits s.cfgEn s.cfgBri s.colonCache)
    obtain ⟨t, hdone, rfl⟩ := h.delivers (n := 712) (w := 272) hm hi (hexec _ (romAll_four h0 h1 h2 h3)) e hfit hbetween
      (by simp [dsegTrace_length]) (by simp [dsegTrace_waits])
    have hfilled : s.rx.Filled t.rx p0 (withColon 1 p1 s.colonValue) p2 p3 := .of_held hheld
    rw [← colonValue_of hcache]
    exact ⟨t, p0, _, p2, p3, hdone, hfilled, hfilled.shows _ h0 h1 h2 h3⟩

/-- DSTR (R93) of characters with table entries. -/
theorem dstr_delivers {s : State} {c0 c1 c2 c3 cache : Byte} (h : Served s)
    (henc : encodable s.launch (.dstr c0 c1 c2 c3) = true) (hcache : s.colonCache = some cache) :
    ∃ t p0 sent p2 p3, Delivers (.dstr c0 c1 c2 c3) s t s.cfgEn s.cfgBri (some sent) 712 272 ∧
      s.rx.Filled t.rx p0 sent p2 p3 ∧ t.rx.Shows s.launch (padString [c0, c1, c2, c3]) (cache.getLsbD 7) :=
  h.characters (i := .dstr c0 c1 c2 c3) rfl nofun (fun pats hread => by simp only [exec, execDstr, hread]; rfl)
    (padString_length ..) (List.all_eq_true.1 henc) hcache

/-- DINT (R94) of any integer. -/
theorem dint_delivers {s : State} (n : Int) {cache : Byte} (h : Served s) (hcache : s.colonCache = some cache) :
    ∃ t p0 sent p2 p3, Delivers (.dint n) s t s.cfgEn s.cfgBri (some sent) 712 272 ∧ s.rx.Filled t.rx p0 sent p2 p3 ∧
      t.rx.Shows s.launch (formatInt n) (cache.getLsbD 7) :=
  h.characters (i := .dint n) rfl nofun (fun pats hread => by simp only [exec, execDint, hread]; rfl)
    (formatInt_length n) (formatInt_encodable s.launch n) hcache

/-- Settles O53: the characters `padString` gives are those R93 names, lane by lane. -/
theorem dstrShowsTheString : Obligations.DstrShowsTheString := by
  intro s c0 c1 c2 c3 cache hready hwire hpremise hdrv henc hcache
  obtain ⟨t, p0, sent, p2, p3, hdone, hfilled, hshows⟩ := dstr_delivers ⟨hready, hwire, hpremise, hdrv⟩ henc hcache
  rw [padString_four] at hshows
  have hcolon : sent.getLsbD 7 = cache.getLsbD 7 := by
    have hbit := hshows.colonBit
    rw [Rx.colonBit, hfilled.dispAt] at hbit
    exact Option.some.inj hbit
  exact ⟨t, sent, hdone.exec, hdone.sent, hdone.between, hshows.renders (p := 0) rfl, hshows.renders (p := 1) rfl,
    hshows.renders (p := 2) rfl, hshows.renders (p := 3) rfl, hfilled.dispAt 1, hcolon, hshows.plain, hfilled.mode,
    hfilled.ptr, hfilled.dctrlEn, hfilled.dctrlBri, hdone.length⟩

/-- Four positions that show digits, signs and blanks are read back by the inverse of the encoder (R82, R85). -/
theorem Rx.Shows.readBack {l : Launch} {r : Rx} {cs : List Byte} {colon : Bool} (h : r.Shows l cs colon)
    (hlength : cs.length = 4)
    (hcs : ∀ c ∈ cs, (0x30 ≤ c.toNat ∧ c.toNat ≤ 0x39) ∨ c = 0x2D ∨ c = 0x20) :
    ((List.range 4).mapM fun p => (r.glyphAt p).bind glyphChar) = some cs := by
  have hread : ∀ (p : Nat) (c : Byte), cs[p]? = some c → (r.glyphAt p).bind glyphChar = some c := fun p c hc => by
    obtain ⟨d, hd, hrom⟩ := h.glyph p c hc
    obtain ⟨pat, hpat, hback⟩ := rom_integerChar l (hcs c (List.mem_of_getElem? hc))
    rw [Rx.glyphAt, hd, Option.map_some, Option.bind_some, Option.some.inj (hrom.symm.trans hpat), hback]
  match cs, hlength, hread with
  | [c0, c1, c2, c3], _, hread =>
    have hrange : List.range 4 = [0, 1, 2, 3] := rfl
    rw [hrange]
    simp [hread 0 c0 rfl, hread 1 c1 rfl, hread 2 c2 rfl, hread 3 c3 rfl]

/-- Settles O54: the positions show the characters of `formatInt n`, whatever n is. -/
theorem dintShowsTheInteger : Obligations.DintShowsTheInteger := by
  intro s n cache hready hwire hpremise hdrv hcache
  obtain ⟨t, p0, sent, p2, p3, hdone, hfilled, hshows⟩ := dint_delivers n ⟨hready, hwire, hpremise, hdrv⟩ hcache
  refine ⟨t, sent, hdone.exec, hdone.sent, hdone.between, hfilled.dispAt 1, hshows.colonBit, fun hlo hhi => ?_,
    fun hlarge => ?_, fun hsmall => ?_, hfilled.mode, hfilled.ptr, hfilled.dctrlEn, hfilled.dctrlBri, hdone.length⟩
  · exact ⟨hshows.readBack (formatInt_length n) (formatInt_chars hlo hhi), readInteger_formatInt hlo hhi⟩
  · rw [formatInt_large hlarge] at hshows
    exact ⟨hshows.renders (p := 0) rfl, hshows.renders (p := 1) rfl, hshows.renders (p := 2) rfl,
      hshows.renders (p := 3) rfl⟩
  · rw [formatInt_small hsmall] at hshows
    exact ⟨hshows.renders (p := 0) rfl, hshows.renders (p := 1) rfl, hshows.renders (p := 2) rfl,
      hshows.renders (p := 3) rfl⟩

/-! ### The configuration -/

/-- From r to r' the receiver took the configuration of one byte, and what else it holds stayed (R88, R113). -/
structure Rx.Configured (r r' : Rx) (en : Bool) (bri : BitVec 3) : Prop where
  dctrlEn : r'.dctrlEn = some en
  dctrlBri : r'.dctrlBri = some bri
  mode : r'.mode = r.mode
  ptr : r'.ptr = r.ptr
  disp : r'.disp = r.disp
  received : r'.received = r.received ++ [(ctrlByte en bri, true)]

theorem Rx.Configured.of_held {r r' : Rx} {en : Bool} {bri : BitVec 3}
    (hheld : r'.held = (r.mode, r.ptr, r.disp, some en, some bri))
    (hseen : r'.receivedRev = (ctrlByte en bri, true) :: r.receivedRev) : r.Configured r' en bri := by
  simp only [Rx.held, Prod.mk.injEq] at hheld
  obtain ⟨hmode, hptr, hdisp, hen, hbri⟩ := hheld
  refine ⟨hen, hbri, hmode, hptr, hdisp, ?_⟩
  rw [Rx.received, hseen, List.reverse_cons]
  rfl

/-- A driver op whose body writes the cached configuration and sends it (R88). -/
theorem Served.configuration {i : Instr} {s : State} {body : State → State} (h : Served s)
    (hm : i.mnemonic.row.family = .driver) (hi : i.mnemonic ≠ .INIT) (hexec : exec i s = opCycle i.mnemonic body s)
    (en : Bool) (bri : BitVec 3)
    (hbody : body s.entered = ctrlSeq { s.entered with cfgEn := some en, cfgBri := some bri }) :
    ∃ t, Delivers i s t (some en) (some bri) s.colonCache 63 24 ∧ s.rx.Configured t.rx en bri := by
  have hs := h.fits (some en) (some bri) s.colonCache
  obtain ⟨rx', e, hbetween, hheld, hseen⟩ := fits_ctrl hs
  obtain ⟨-, -, hfit, -⟩ := fits_sendCmd (ctrlByte en bri) hs
  obtain ⟨t, hdone, rfl⟩ := h.delivers hm hi hexec (hbody.trans e) (hbody ▸ hfit) hbetween (cmdTrace_length _)
    (cmdTrace_waits _)
  exact ⟨t, hdone, .of_held hheld hseen⟩

/-- ENABLE (R96). -/
theorem enable_delivers {s : State} (on : Bool) {bri : BitVec 3} (h : Served s) (hbri : s.cfgBri = some bri) :
    ∃ t, Delivers (.enable on) s t (some on) s.cfgBri s.colonCache 63 24 ∧ s.rx.Configured t.rx on bri := by
  rw [hbri]
  refine h.configuration (i := .enable on) rfl nofun (exec_enable on s) on bri ?_
  rw [← hbri]
  rfl

/-- SETBRI (R97). -/
theorem setbri_delivers {s : State} (v : Int) {en : Bool} (h : Served s) (hen : s.cfgEn = some en) :
    ∃ t, Delivers (.setbri v) s t s.cfgEn (some (clamp v)) s.colonCache 63 24 ∧
      s.rx.Configured t.rx en (clamp v) := by
  rw [hen]
  refine h.configuration (i := .setbri v) rfl nofun (exec_setbri v s) en (clamp v) ?_
  rw [← hen]
  rfl

theorem dispAt_of_disp {r r' : Rx} (h : r'.disp = r.disp) (p : Nat) : r'.dispAt p = r.dispAt p := by
  rw [Rx.dispAt, h, Rx.dispAt]

theorem shownBrightness_known {r : Rx} {on : Bool} (hon : r.dctrlEn = some on) :
    r.shownBrightness = if on = true then r.dctrlBri else none := by
  rw [Rx.shownBrightness, Rx.displayOn, hon]
  cases on <;> rfl

/-- Settles O56: one configuration byte, and what a display known to be on or off lights. -/
theorem enableAndSetbriConfigure : Obligations.EnableAndSetbriConfigure := by
  intro s e0 b0 hready hwire hpremise hdrv hen hbri
  refine ⟨fun on => ?_, fun v => ?_⟩
  · obtain ⟨t, hdone, hconf⟩ := enable_delivers on ⟨hready, hwire, hpremise, hdrv⟩ hbri
    refine ⟨t, hdone.exec, hdone.sent, hdone.between, hconf.dctrlEn, hconf.dctrlBri, hconf.dctrlEn, fun p => ?_, ?_, ?_,
      hconf.mode, hconf.ptr, hconf.disp, hconf.received, hdone.length⟩
    · rw [Rx.litSegments, lit_known _ _ hconf.dctrlEn, dispAt_of_disp hconf.disp]
    · rw [Rx.colonLit, lit_known _ _ hconf.dctrlEn, Rx.colonBit, dispAt_of_disp hconf.disp, Rx.colonBit]
    · rw [shownBrightness_known hconf.dctrlEn, hconf.dctrlBri]
  · obtain ⟨t, hdone, hconf⟩ := setbri_delivers v ⟨hready, hwire, hpremise, hdrv⟩ hen
    exact ⟨t, hdone.exec, hdone.sent, hdone.between, hconf.dctrlEn, hconf.dctrlBri, hconf.mode, hconf.ptr, hconf.disp,
      hconf.received, hdone.length⟩

/-- Settles O58: each op writes its own field and sends it with the other as it is cached. -/
theorem configurationFieldsIndependent : Obligations.ConfigurationFieldsIndependent := by
  intro s e0 on b0 v hready hwire hpremise hdrv hen hbri
  have h : Served s := ⟨hready, hwire, hpremise, hdrv⟩
  obtain ⟨s1, hdone1, hconf1⟩ := enable_delivers on h hbri
  obtain ⟨t, hdone2, hconf2⟩ := setbri_delivers v hdone1.served hdone1.cfgEn
  obtain ⟨s3, hdone3, hconf3⟩ := setbri_delivers v h hen
  obtain ⟨u, hdone4, hconf4⟩ := enable_delivers on hdone3.served hdone3.cfgBri
  refine ⟨t, u, (hdone1.runOps_eq _).trans (hdone2.runOps_eq _), (hdone3.runOps_eq _).trans (hdone4.runOps_eq _),
    hdone2.cfgEn.trans hdone1.cfgEn, hdone2.cfgBri, hdone4.cfgEn, hdone4.cfgBri.trans hdone3.cfgBri, hconf2.dctrlEn,
    hconf2.dctrlBri, hconf4.dctrlEn, hconf4.dctrlBri, ?_, ?_⟩
  · rw [hconf2.received, hconf1.received, List.append_assoc]
    rfl
  · rw [hconf4.received, hconf3.received, List.append_assoc]
    rfl

/-! ### The colon across ops -/

/-- DCHAR at operand 1 (R87): the character is shown with the cached colon bit, and what is shown is cached. -/
theorem dchar_one_delivers {s : State} {c pat cache : Byte} (h : Served s) (hc : rom s.launch c = some pat)
    (hcache : s.colonCache = some cache) :
    ∃ t, Delivers (.dchar 1 c) s t s.cfgEn s.cfgBri (t.rx.dispAt 1) 178 68 ∧ t.rx.colonBit = some (cache.getLsbD 7) ∧
      renders s.launch t.rx 1 c = true := by
  obtain ⟨t, hdone, hwrote⟩ := dchar_delivers 1 h hc hcache
  have hheld : t.rx.dispAt 1 = some (withColon 1 pat cache) := hwrote.dispAt 1 (by decide)
  refine ⟨t, ?_, ?_, renders_of hheld hc (withColon_glyph 1 cache hc)⟩
  · rw [hheld]
    exact hdone
  · rw [hwrote.colonBit, colon_withColon cache (rom_bit7 hc)]

/-- Settles O59: DCHAR merges the bit DCOLON cached, and CLEAR leaves it cached. -/
theorem colonSurvivesCharacterWrites : Obligations.ColonSurvivesCharacterWrites := by
  intro s v c pat cache hready hwire hpremise hdrv hc hcache
  obtain ⟨s1, hdone1, -⟩ := dcolon_delivers v ⟨hready, hwire, hpremise, hdrv⟩ hcache
  obtain ⟨t, hdone2, hcolon2, hrenders2⟩ :=
    dchar_one_delivers hdone1.served (by rwa [hdone1.launch]) hdone1.colonCache
  obtain ⟨u, hdone3, hfilled⟩ := clear_delivers hdone1.served
  obtain ⟨w, hdone4, hcolon4, hrenders4⟩ := dchar_one_delivers hdone3.served
    (by rwa [hdone3.launch, hdone1.launch]) (hdone3.colonCache.trans hdone1.colonCache)
  rw [colonSet_colon] at hcolon2 hcolon4
  rw [hdone1.launch] at hrenders2
  rw [hdone3.launch, hdone1.launch] at hrenders4
  have hdark : u.rx.colonBit = some false := by
    rw [Rx.colonBit, hfilled.dispAt]
    rfl
  refine ⟨t, u, w, (hdone1.runOps_eq _).trans (hdone2.runOps_eq _), hcolon2, hrenders2, hdone2.colonCache,
    (hdone1.runOps_eq _).trans (hdone3.runOps_eq _), hdark, ?_,
    (hdone1.runOps_eq _).trans ((hdone3.runOps_eq _).trans (hdone4.runOps_eq _)), hcolon4, hrenders4⟩
  rw [Rx.colonLit, hdark, lit_dark]

end Sys2Proof.Machine
end

section
/-! INIT (R89): its body on the lines whatever the receiver does, and what a working receiver holds after it. -/

namespace Sys2Proof.Machine

/-! ### The body of INIT -/

/-- The state in which INIT sends the configuration (R89): its lines are outputs, and the registers it caches are
written. -/
def initSending (en : Bool) (bri : Int) (s : State) : State := initRegs en bri (run initLines s)

/-- The body of INIT. -/
def initBody (en : Bool) (bri : Int) (s : State) : State :=
  assign (fun t => { t with inited := true }) (ctrlSeq (assign (initRegs en bri) (run initLines s)))

theorem exec_init (en : Bool) (bri : Int) (s : State) : exec (.init en bri) s = opCycle .INIT (initBody en bri) s := rfl

/-- On the lines INIT's first events are the same whatever the receiver does. -/
theorem initSending_eq {s : State} (en : Bool) (bri : Int) (hq : s.quiet = true) (hf : s.fault = none) :
    ∃ rx', initSending en bri s = { s with
      clkDir := some .out, dioDir := some .out, clkOut := false, dioOut := false, midOp := true,
      colonCache := some 0x00, cfgEn := some en, cfgBri := some (clamp bri), traceRev := initTrace ++ s.traceRev,
      rx := rx' } := by
  obtain ⟨rx', e⟩ := run_initLines hq hf
  exact ⟨rx', congrArg (initRegs en bri) e⟩

/-- A transaction can follow INIT's first events. -/
theorem initSending_ready {s : State} (en : Bool) (bri : Int) (hq : s.quiet = true) (hf : s.fault = none) :
    (initSending en bri s).quiet = true ∧ (initSending en bri s).fault = none ∧
      (initSending en bri s).clkDir = some .out ∧ (initSending en bri s).dioDir = some .out := by
  obtain ⟨rx', e⟩ := initSending_eq en bri hq hf
  rw [e]
  exact ⟨hq, hf, rfl, rfl⟩

/-- Before a fault, the body of INIT sends the configuration (R88) and sets `INITED`. -/
theorem initBody_eq {s : State} (en : Bool) (bri : Int) (hq : s.quiet = true) (hf : s.fault = none) :
    initBody en bri s =
      { run (sendCmdSeq (ctrlByte en (clamp bri))) (initSending en bri s) with inited := true } := by
  obtain ⟨hq1, hf1, -, -⟩ := initSending_ready en bri hq hf
  rw [initBody, assign_clear _ (run_unfaulted initLines hq hf)]
  exact assign_clear _ (run_unfaulted _ hq1 hf1)

theorem initSending_wireInv {s : State} (en : Bool) (bri : Int) (h : s.WireInv) : (initSending en bri s).WireInv :=
  wireInv_of_eq (run_wireInv initLines h) rfl rfl rfl rfl

theorem initSending_acks {s : State} (en : Bool) (bri : Int) (h : s.rx.ackPlan = .always) :
    (initSending en bri s).rx.ackPlan = .always :=
  run_acks initLines h

/-- INIT completes from every state that passes its checks, its body ending as the receiver's answer has it. -/
theorem init_completes {s : State} (en : Bool) (bri : Int) (h : s.initReady) : ∃ a rx',
    initBody en bri s.entered = { s.entered with
      clkDir := some .out, dioDir := some .out, colonCache := some 0x00, cfgEn := some en, cfgBri := some (clamp bri),
      inited := true, clkOut := true, dioOut := true, ack := some a, smp := some (!a), midOp := true,
      traceRev := stopTrace ++ (byteTrace (ctrlByte en (clamp bri)) a ++ (startTrace ++ (initTrace ++ s.traceRev))),
      rx := rx' } ∧
    (run (sendCmdSeq (ctrlByte en (clamp bri))) (initSending en bri s.entered)).ack = some a ∧
    (run (sendCmdSeq (ctrlByte en (clamp bri))) (initSending en bri s.entered)).rx = rx' ∧
    exec (.init en bri) s = .next ((initBody en bri s.entered).ended s.cur 1) := by
  obtain ⟨⟨hf, -, hq⟩, -⟩ := id h
  obtain ⟨r, e⟩ := initSending_eq (s := s.entered) en bri hq hf
  obtain ⟨hq1, hf1, -, hd1⟩ := initSending_ready (s := s.entered) en bri hq hf
  obtain ⟨a, rx', e'⟩ := sendCmd_lines (ctrlByte en (clamp bri)) hq1 hf1 hd1
  have hbody := initBody_eq (s := s.entered) en bri hq hf
  rw [e', e] at hbody
  refine ⟨a, rx', hbody, by rw [e'], by rw [e'], ?_⟩
  rw [exec_init, opCycle_init _ h rfl] <;> rw [hbody]
  · exact hf
  · rfl

/-! ### The configuration at a receiver that may pull the line -/

/-- `SendCmdSeq` (R71) with a receiver that acknowledges every byte, whether or not it pulls the line at the beginning: the
start condition opens a frame, of which the byte is the first (R111, R113). -/
theorem run_sendCmd_interpreted {s : State} (v : Byte) (hq : s.quiet = true) (hf : s.fault = none)
    (hc : s.clkDir = some .out) (hd : s.dioDir = some .out) (hw : s.WireInv) (hacks : s.rx.ackPlan = .always) :
    ∃ r : Rx, (run (sendCmdSeq v) s).rx.sync = (r.opened.byte v true).sync ∧
      (run (sendCmdSeq v) s).rx.held = (r.opened.byte v true).held := by
  obtain ⟨r1, e1, hin, hnbyte, hcmd, hacks1, -⟩ := run_start hq hf hc hd hw
  obtain ⟨r2, e2, hlike, hphase, hbits, hdrv, hpclk, hpdio, hacks2, -, -⟩ := acked_byte v (s := { s with
    clkOut := true, dioOut := false, midOp := true, traceRev := startTrace ++ s.traceRev, rx := r1 })
    hq hf hc hd hin (hacks1.trans hacks)
  have hopened : r1.Like r1.opened := ⟨hin.sync, hin.frame, hnbyte, hcmd, rfl⟩
  obtain ⟨hsync, hframe, -, -, hheld⟩ := hlike.trans (hopened.byte v true)
  have hframeSync : r2.frame = true → r2.sync = true := by
    rw [hsync, hframe]
    exact byte_frame_sync (fun _ => rfl) v true
  obtain ⟨r3, e3, hsync3, -, -, -, -, -, hheld3, -⟩ := stop_after (s := { s with
      clkOut := false, dioOut := false, smp := some false, ack := some true, midOp := true,
      traceRev := byteTrace v true ++ (startTrace ++ s.traceRev), rx := r2 })
    hq hf hc hd rfl rfl hframeSync hphase hbits hdrv hpclk hpdio hacks2
  rw [sendCmdSeq, run_append, run_append, e1, e2, e3]
  exact ⟨r1, hsync3.trans hsync, hheld3.trans hheld⟩

/-- After a display-control byte that is acknowledged the receiver is synchronised and has the configuration, whatever it
held (R59, R113). -/
theorem run_ctrl_interpreted {s : State} (en : Bool) (bri : BitVec 3) (hq : s.quiet = true) (hf : s.fault = none)
    (hc : s.clkDir = some .out) (hd : s.dioDir = some .out) (hw : s.WireInv) (hacks : s.rx.ackPlan = .always) :
    (run (sendCmdSeq (ctrlByte en bri)) s).rx.sync = true ∧
    (run (sendCmdSeq (ctrlByte en bri)) s).rx.dctrlEn = some en ∧
    (run (sendCmdSeq (ctrlByte en bri)) s).rx.dctrlBri = some bri := by
  obtain ⟨r, hsync, hheld⟩ := run_sendCmd_interpreted (ctrlByte en bri) hq hf hc hd hw hacks
  rw [opened_ctrl] at hsync hheld
  simp only [Rx.held, Prod.mk.injEq] at hheld
  obtain ⟨-, -, -, hen, hbri⟩ := hheld
  exact ⟨hsync, hen, hbri⟩

/-! ### INIT -/

/-- Settles O47: `init_completes` names the answer; `run_sendCmd_acked` and `run_ctrl_interpreted` are what a working
receiver makes of the byte, from whatever state. -/
theorem initConfigures : Obligations.InitConfigures := by
  intro s en bri h
  obtain ⟨⟨hf, hb, hq⟩, -⟩ := id h
  obtain ⟨a, rx', e, hack, hrx, hexec⟩ := init_completes en bri h
  refine ⟨a, _, hexec, ?_, ?_, fun hw ⟨hplan, _⟩ => ?_⟩
  · have hsent := sentFrom_ended (u := { s with
      clkDir := some .out, dioDir := some .out, colonCache := some 0x00, cfgEn := some en, cfgBri := some (clamp bri),
      inited := true }) 1 a (stopTrace ++ byteTrace (ctrlByte en (clamp bri)) a ++ startTrace ++ initTrace) rx' hb
    simp only [List.append_assoc] at hsent
    rw [e]
    exact hsent
  · rw [State.trace, ended_traceRev, e]
    refine (sendCmdEvents_eq (ctrlByte en (clamp bri)) a (initTrace ++ s.traceRev)).trans ?_
    rw [List.reverse_append]
    rfl
  · obtain ⟨hq1, hf1, hc1, hd1⟩ := initSending_ready (s := s.entered) en bri hq hf
    have hw1 := initSending_wireInv en bri (entered_wireInv hw)
    have hacks := initSending_acks (s := s.entered) en bri hplan
    obtain ⟨hacked, -, hframe⟩ := run_sendCmd_acked (ctrlByte en (clamp bri)) hq1 hf1 hc1 hd1 hw1 hacks
    obtain ⟨hsync, hen, hbri⟩ := run_ctrl_interpreted en (clamp bri) hq1 hf1 hc1 hd1 hw1 hacks
    rw [hrx] at hframe hsync hen hbri
    rw [ended_rx, e]
    exact ⟨Option.some.inj (hack.symm.trans hacked), hsync, hframe, hen, hbri⟩

/-- A receiver that knows no position. -/
theorem dispAt_unknown {r : Rx} (h : r.disp = Vector.replicate 4 none) (p : Nat) : r.dispAt p = none := by
  rw [Rx.dispAt, h]
  exact dispAt_reset p

/-- Settles O48: a receiver that is not synchronised does not pull the line, so `fits_ctrl` applies: it holds the
configuration and, as before (R114), nothing else. -/
theorem initWritesNoPosition : Obligations.InitWritesNoPosition := by
  intro s en bri h hw ⟨hplan, _⟩ hsync
  obtain ⟨⟨hf, -, hq⟩, -⟩ := id h
  obtain ⟨-, -, hmode, hptr, hdisp, -, -⟩ := hw.rx.desynced hsync
  obtain ⟨hdrv, hheld0, hseen0⟩ := run_initLines_unsync (s := s.entered) hq hf (entered_wireInv hw) hsync
  obtain ⟨hq1, hf1, hc1, hd1⟩ := initSending_ready (s := s.entered) en bri hq hf
  have hfit : Fits (initSending en bri s.entered) :=
    ⟨hq1, hf1, hc1, hd1, initSending_wireInv en bri (entered_wireInv hw), hdrv, initSending_acks en bri hplan⟩
  obtain ⟨rx', e', hbetween, hheld, hseen⟩ := fits_ctrl hfit
  obtain ⟨a, r, e, -, hrx, hexec⟩ := init_completes en bri h
  obtain rfl : rx' = r := (congrArg State.rx e').symm.trans hrx
  simp only [Rx.held, Prod.mk.injEq] at hheld hheld0
  obtain ⟨hmode1, hptr1, hdisp1, -, -⟩ := hheld
  obtain ⟨hmode0, hptr0, hdisp0, -, -⟩ := hheld0
  refine ⟨_, hexec, ?_⟩
  rw [ended_rx, e]
  refine ⟨hbetween, dispAt_unknown (hdisp1.trans (hdisp0.trans hdisp)), hmode1.trans (hmode0.trans hmode),
    hptr1.trans (hptr0.trans hptr), ?_⟩
  rw [Rx.received, hseen, List.reverse_cons]
  exact congrArg (· ++ _) (received_of_receivedRev hseen0)

end Sys2Proof.Machine
end

section
/-! DSEG as the ops of its two transactions (R56, R86), whatever the receiver does. -/

namespace Sys2Proof.Machine

/-- Settles O50: the sequences of the seven ops, one after another, are `DSegSeq`, and each op moves `OPIDX` by one. -/
theorem dsegIsTwoTransactions : Obligations.DsegIsTwoTransactions := by
  intro s pos pat hready
  have h := hready.1
  obtain ⟨⟨hf, -, hq⟩, -, -⟩ := id h
  have hbyte : ∀ v, Outs (writeByteSeq v) := fun v => (writeByte_sends v).outs
  have hstart1 : Outs startSeq := start_drives.outs
  have hbyte1 : Outs (startSeq ++ writeByteSeq 0x40) := hstart1.append (hbyte _)
  have hstop1 : Outs (sendCmdSeq 0x40) := (sendCmd_sends 0x40).outs
  have hstart2 : Outs (sendCmdSeq 0x40 ++ startSeq) := hstop1.append hstart1
  have hbyte2 : Outs (sendCmdSeq 0x40 ++ startSeq ++ writeByteSeq (addrByte (maskPos pos))) := hstart2.append (hbyte _)
  have hbyte3 : Outs (sendCmdSeq 0x40 ++ startSeq ++ writeByteSeq (addrByte (maskPos pos)) ++ writeByteSeq pat) :=
    hbyte2.append (hbyte pat)
  refine ⟨(run (dsegSeq pos pat) s.entered).ended s.cur 1, opCycle_driver (m := .DSEG) hready rfl nofun, ?_⟩
  calc runOps (txn 0x40 [] ++ txn (addrByte (maskPos pos)) [pat]) s
      = runOps _ ((run startSeq s.entered).ended s.cur 1) :=
        runOps_cons (opCycle_transport (m := .START) h rfl)
          ((ended_fault ..).trans (run_unfaulted (s := s.entered) startSeq hq hf))
    _ = runOps _ ((run (startSeq ++ writeByteSeq 0x40) s.entered).ended s.cur 2) :=
        runOps_more (mn := .WRBYTE) h hstart1 (fun _ => rfl) rfl rfl rfl
    _ = runOps _ ((run (sendCmdSeq 0x40) s.entered).ended s.cur 3) :=
        runOps_more (mn := .STOP) h hbyte1 (fun _ => rfl) rfl rfl rfl
    _ = runOps _ ((run (sendCmdSeq 0x40 ++ startSeq) s.entered).ended s.cur 4) :=
        runOps_more (mn := .START) h hstop1 (fun _ => rfl) rfl rfl rfl
    _ = runOps _ ((run (sendCmdSeq 0x40 ++ startSeq ++ writeByteSeq (addrByte (maskPos pos))) s.entered).ended s.cur 5) :=
        runOps_more (mn := .WRBYTE) h hstart2 (fun _ => rfl) rfl rfl rfl
    _ = runOps [.stop] ((run (sendCmdSeq 0x40 ++ startSeq ++ writeByteSeq (addrByte (maskPos pos)) ++ writeByteSeq pat)
          s.entered).ended s.cur 6) :=
        runOps_more (mn := .WRBYTE) h hbyte2 (fun _ => rfl) rfl rfl rfl
    _ = runOps [] ((run (dsegSeq pos pat) s.entered).ended s.cur 7) :=
        runOps_more (mn := .STOP) h hbyte3 (fun _ => rfl) rfl rfl rfl
    _ = some (((run (dsegSeq pos pat) s.entered).ended s.cur 1).advance s.cur 6) :=
        congrArg some (ended_advance _ s.cur 1 6).symm

end Sys2Proof.Machine
end

section
/-! The faults of a step (R13, R27, R101, R103): one of the agent whose op runs changes nothing but `FAULT`, and one of
another agent comes from an unmasked interrupt agent while a foreground op runs. -/

namespace Sys2Proof.Machine

/-! ### Whose fault stops a turn -/

/-- From `s` to `t` the agent whose op runs has faulted with record `r`, where it stands; of all else only the mark of an
op's first event can have been cleared (R101). -/
structure OwnFault (s t : State) (r : FaultRecord) : Prop where
  agent : r.agent = s.cur
  opidx : r.opidx = s.opidxOf s.cur
  word : r.word = s.wordOf s.cur
  midOp : s.midOp = false → t.midOp = false
  frame : t = { s with midOp := t.midOp, fault := some r }

/-- From `s` to `t` an interrupt agent has faulted with record `r` while a foreground op ran unmasked (R103). -/
structure OthersFault (s t : State) (r : FaultRecord) : Prop where
  agent : r.agent ≠ 0
  cur : t.cur = s.cur
  foreground : s.cur = 0
  unmasked : s.launch.irqMasked = false

/-- A fault raised by the agent whose op runs is its own. -/
theorem raise_ownFault {s : State} {c : FaultCode} {w : Word} {r : FaultRecord}
    (hr : (s.raise c w s.cur s.busy).fault = some r) : OwnFault s (s.raise c w s.cur s.busy) r := by
  obtain rfl := Option.some.inj hr
  exact ⟨rfl, rfl, rfl, id, rfl⟩

/-- A fault in an op that runs is its agent's own, before its first event, or another agent's, after it. -/
theorem exec_fault_cases {i : Instr} {s t : State} {r : FaultRecord} (hf : s.fault = none) (h : exec i s = .next t)
    (hr : t.fault = some r) : OwnFault s t r ∨ OthersFault s t r := by
  obtain ⟨c, rfl⟩ | ⟨c, rfl⟩ | ⟨c, -, rfl⟩ | ⟨hi, -, u, hu, rfl⟩ := exec_cases h
  · exact .inl (raise_ownFault hr)
  · obtain rfl := Option.some.inj hr
    exact .inl ⟨rfl, rfl, rfl, fun _ => rfl, rfl⟩
  · cases hp : rom s.launch c with
    | none =>
      rw [encodeBy_unencodable s.cur hp] at hr ⊢
      exact .inl (raise_ownFault hr)
    | some p => simp [encodeBy, hp, hf] at hr
  · obtain ⟨-, hc⟩ | ⟨hclear, b, hc, -, -⟩ := complete_cases i.mnemonic u hi
    · rw [hc] at hr ⊢
      obtain hnone | ⟨r', hr', -, hagent, hcur, hmask⟩ := hu.fault ((enter_fault ..).trans hf)
      · simp [hnone] at hr
      · obtain rfl := Option.some.inj (hr'.symm.trans hr)
        rw [enter_cur] at hcur
        rw [enter_launch] at hmask
        exact .inr ⟨hagent, hu.cur.trans (enter_cur ..), hcur, hmask⟩
    · simp [hc, hclear] at hr

theorem stepAgent_fault_cases {s t : State} {r : FaultRecord} (hf : s.fault = none) (h : stepAgent s = .next t)
    (hr : t.fault = some r) : OwnFault s t r ∨ OthersFault s t r := by
  obtain ⟨w, rfl⟩ | ⟨w, rfl⟩ | ⟨i, ws, -, he⟩ := stepAgent_cases h
  · exact .inl (raise_ownFault hr)
  · exact .inl (raise_ownFault hr)
  · exact exec_fault_cases hf he hr

/-! ### Faults of a step -/

/-- Whether an agent has a next op depends on that agent alone. -/
theorem hasNext_congr {s t : State} {g h : Nat} (e : t.agent? h = s.agent? g) : t.hasNext h = s.hasNext g := by
  unfold State.hasNext State.wordsOf
  rw [e]

theorem dispatched_hasNext (s : State) (g : Nat) (rest : List Turn) (h : Nat) :
    (s.dispatched g rest).hasNext h = s.hasNext h :=
  hasNext_congr (dispatched_agent? ..)

/-- The fault of an agent that has a next op is recorded at the word its `OPIDX` points to (R13, R101). -/
theorem OwnFault.place {s t : State} {r : FaultRecord} (h : OwnFault s t r) (hnext : s.hasNext s.cur = true) :
    ∃ a, s.agent? r.agent = some a ∧ r.opidx = a.opidx ∧ a.stream[r.opidx]? = some r.word := by
  obtain ⟨a, ha, hlt⟩ := (hasNext_iff s s.cur).1 hnext
  have hopidx : r.opidx = a.opidx := by rw [h.opidx, State.opidxOf, ha]
  refine ⟨a, by rw [h.agent, ha], hopidx, ?_⟩
  rw [hopidx, h.word]
  exact wordOf_eq ha hlt

/-- Settles O9: a fault another agent raises while an op runs is not that of the agent whose op it is. -/
theorem faultsArePrecise : Obligations.FaultsArePrecise := by
  intro s t r hmid h hr hagent
  obtain ⟨hf, g, rest, -, hnext, hturn⟩ := step_cases h
  obtain hown | hother := stepAgent_fault_cases (s := s.dispatched g rest) hf hturn hr
  · constructor
    · have hmid' : t.midOp = s.midOp := (hown.midOp hmid).trans hmid.symm
      rw [hown.frame, hmid']
      rfl
    · obtain ⟨a, ha, hplace⟩ := hown.place ((dispatched_hasNext ..).trans hnext)
      exact ⟨a, (dispatched_agent? ..).symm.trans ha, hplace⟩
  · exact absurd (hagent.trans (hother.cur.trans hother.foreground)) hother.agent

/-- Settles O13: where the interrupt agents are masked, no fault is another agent's. -/
theorem maskedStepFaultsOnlyForItself : Obligations.MaskedStepFaultsOnlyForItself := by
  intro s t r hmask h hr
  obtain ⟨hf, g, rest, -, -, hturn⟩ := step_cases h
  obtain hown | hother := stepAgent_fault_cases (s := s.dispatched g rest) hf hturn hr
  · rw [hown.agent, hown.frame]
  · have hunmasked : s.launch.irqMasked = false := hother.unmasked
    simp [hmask] at hunmasked

end Sys2Proof.Machine
end

section
/-! How a run ends (R27, R105): every step moves an agent on or stops the machine, so the words not yet passed bound the
run, and the machine answers `ended` exactly where no agent has a next op. -/

namespace Sys2Proof.Machine

/-! ### The words left -/

theorem sum_left_modify_lt {l : List Agent} {k n : Nat} {a : Agent} (h : l[k]? = some a) (hleft : 0 < a.left)
    (hn : 0 < n) : ((l.modify k (·.advance n)).map Agent.left).sum < (l.map Agent.left).sum := by
  induction l generalizing k with
  | nil => simp at h
  | cons b l ih =>
    cases k with
    | zero =>
      obtain rfl : b = a := by simpa using h
      have hlt : (b.advance n).left < b.left := by
        simp only [Agent.left, Agent.advance] at hleft ⊢
        omega
      simpa using hlt
    | succ k =>
      have hlt := ih (by simpa using h)
      simpa using hlt

/-- An agent with a next op that moves on has fewer words left, and the others as many (R13). -/
theorem wordsLeft_advance_lt {s : State} {g n : Nat} (hnext : s.hasNext g = true) (hn : 0 < n) :
    (s.advance g n).wordsLeft < s.wordsLeft := by
  obtain ⟨a, ha, hlt⟩ := (hasNext_iff s g).1 hnext
  have hleft : 0 < a.left := Nat.sub_pos_of_lt hlt
  cases g with
  | zero =>
    obtain rfl := Option.some.inj ha
    simp only [advance_zero, State.wordsLeft, Agent.left, Agent.advance] at hleft ⊢
    omega
  | succ k =>
    have hsum := sum_left_modify_lt ha hleft hn
    simp only [advance_succ, State.wordsLeft]
    omega

/-- Where an agent has a next op there are words left. -/
theorem wordsLeft_pos {s : State} {g : Nat} (hnext : s.hasNext g = true) : 0 < s.wordsLeft :=
  (Nat.zero_le _).trans_lt (wordsLeft_advance_lt hnext Nat.one_pos)

/-- While an op is underway agents only move on. -/
theorem Underway.wordsLeft_le {s u : State} (hu : Underway s u) : u.wordsLeft ≤ s.wordsLeft := by
  unfold State.wordsLeft
  rw [hu.fg]
  exact Nat.add_le_add_left hu.irqs.left _

theorem row_words_pos (m : Mnemonic) : 0 < m.row.words := by
  rw [row_words]
  split <;> decide

/-- An op that runs ends in a fault or with fewer words left. -/
theorem exec_wordsLeft_lt {i : Instr} {s t : State} (hnext : s.hasNext s.cur = true) (h : exec i s = .next t) :
    t.fault.isSome = true ∨ t.wordsLeft < s.wordsLeft := by
  obtain ⟨c, rfl⟩ | ⟨c, rfl⟩ | ⟨c, -, rfl⟩ | ⟨hi, -, u, hu, rfl⟩ := exec_cases h
  · exact .inl rfl
  · exact .inl rfl
  · cases hp : rom s.launch c with
    | none =>
      rw [encodeBy_unencodable s.cur hp]
      exact .inl rfl
    | some p =>
      have hlt : (State.advance { s with pat := some p } s.cur 1).wordsLeft < s.wordsLeft :=
        wordsLeft_advance_lt (s := { s with pat := some p }) (hnext ▸ hasNext_congr (agent?_congr rfl rfl _)) Nat.one_pos
      simp only [encodeBy, hp]
      exact .inr hlt
  · obtain ⟨hstopped, hc⟩ | ⟨-, b, hc, -, -⟩ := complete_cases i.mnemonic u hi
    · rw [hc]
      exact .inl hstopped
    · obtain ⟨-, -, ecur, efg, eirqs, -⟩ := enter_same i.mnemonic s
      have hrunner : u.agent? u.cur = s.agent? s.cur := by
        rw [hu.cur, hu.runner, ecur, agent?_congr efg eirqs]
      have hnext' : State.hasNext { u with busy := b, midOp := false } u.cur = true :=
        (hasNext_congr ((agent?_congr rfl rfl _).trans hrunner)).trans hnext
      have hle : u.wordsLeft ≤ s.wordsLeft := by
        refine hu.wordsLeft_le.trans_eq ?_
        rw [State.wordsLeft, efg, eirqs, State.wordsLeft]
      rw [hc]
      exact .inr ((wordsLeft_advance_lt hnext' (row_words_pos _)).trans_le hle)

/-- A step that is taken finds words left, and ends in a fault or with fewer of them. -/
theorem step_wordsLeft_lt {s t : State} (h : step s = .next t) :
    0 < s.wordsLeft ∧ (t.fault.isSome = true ∨ t.wordsLeft < s.wordsLeft) := by
  obtain ⟨-, g, rest, -, hnext, hturn⟩ := step_cases h
  refine ⟨wordsLeft_pos hnext, ?_⟩
  obtain ⟨w, rfl⟩ | ⟨w, rfl⟩ | ⟨i, ws, -, he⟩ := stepAgent_cases hturn
  · exact .inl rfl
  · exact .inl rfl
  · exact exec_wordsLeft_lt (s := s.dispatched g rest) ((dispatched_hasNext ..).trans hnext) he

/-! ### The end of a run -/

/-- An agent that has a next op takes its turn. -/
theorem stepAgent_next {s : State} (hnext : s.hasNext s.cur = true) : ∃ t, stepAgent s = .next t := by
  unfold stepAgent
  split
  · next hd => exact absurd ((decode_empty_iff _).1 hd) ((hasNext_wordsOf s s.cur).1 hnext)
  · exact ⟨_, rfl⟩
  · exact ⟨_, rfl⟩
  · exact exec_next _ s

/-- A machine that no fault has stopped takes a step or, where no agent has a next op, has ended. -/
theorem step_running {s : State} (hf : s.fault = none) :
    (∃ g, s.hasNext g = true ∧ ∃ t, step s = .next t) ∨ ((∀ g, s.hasNext g = false) ∧ step s = .fault .ended) := by
  cases hp : pick s with
  | none =>
    refine .inr ⟨(pick_none_iff s).1 hp, ?_⟩
    simp only [step, hf, hp]
  | some chosen =>
    obtain ⟨g, rest⟩ := chosen
    have hnext := pick_hasNext hp
    obtain ⟨t, ht⟩ := stepAgent_next (s := s.dispatched g rest) ((dispatched_hasNext ..).trans hnext)
    exact .inl ⟨g, hnext, t, (step_pick hf hp).trans ht⟩

/-- Settles O14: a step that is taken leaves fewer words or stops the machine, so the bound is by induction on the words
left. -/
theorem runsAreFinite : Obligations.RunsAreFinite := by
  intro s
  induction hn : s.wordsLeft using Nat.strong_induction_on generalizing s with
  | _ n ih =>
    cases hf : s.fault with
    | some r => exact ⟨1, _, by omega, core_run_fault 0 (step_stopped hf)⟩
    | none =>
      obtain ⟨-, -, t, ht⟩ | ⟨-, hended⟩ := step_running hf
      · obtain ⟨hpos, hfault | hlt⟩ := step_wordsLeft_lt ht
        · obtain ⟨r, hr⟩ := Option.isSome_iff_exists.1 hfault
          exact ⟨2, _, by omega, (core_run_next 1 ht).trans (core_run_fault 0 (step_stopped hr))⟩
        · obtain ⟨k, f, hk, hrun⟩ := ih t.wordsLeft (hn ▸ hlt) t rfl
          exact ⟨k + 1, f, by omega, (core_run_next k ht).trans hrun⟩
      · exact ⟨1, _, by omega, core_run_fault 0 hended⟩

/-- An agent has finished where it has no next op (R105). -/
theorem done_iff (a : Agent) : a.done = true ↔ ¬ a.opidx < a.stream.length := by
  simp [Agent.done]

/-- The successful end of a run: no fault, and no agent has a next op (R105). -/
theorem succeeded_iff (s : State) : s.succeeded = true ↔ s.fault = none ∧ ∀ g, s.hasNext g = false := by
  have hagents : (∀ g, s.hasNext g = false) ↔ s.fg.done = true ∧ ∀ a ∈ s.irqs, a.done = true := by
    have hagent : ∀ g, s.hasNext g = false ↔ ∀ a, s.agent? g = some a → a.done = true := by
      intro g
      simp only [← Bool.not_eq_true, hasNext_iff, done_iff, not_exists, not_and]
    constructor
    · intro h
      refine ⟨(hagent 0).1 (h 0) s.fg rfl, fun a ha => ?_⟩
      obtain ⟨k, hk⟩ := List.mem_iff_getElem?.1 ha
      exact (hagent (k + 1)).1 (h (k + 1)) a hk
    · rintro ⟨hfg, hirqs⟩ g
      refine (hagent g).2 fun a ha => ?_
      cases g with
      | zero => exact Option.some.inj ha ▸ hfg
      | succ k => exact hirqs a (List.mem_of_getElem? ha)
  rw [hagents]
  simp only [State.succeeded, isFaulted_eq, Bool.and_eq_true, List.all_eq_true, Bool.not_eq_true',
    Option.isSome_eq_false_iff, Option.isNone_iff_eq_none]
  tauto

/-- Settles O15: a stopped machine answers its fault, and a running one ends where no agent has a next op. -/
theorem runEndsWhenAllStreamsEnd : Obligations.RunEndsWhenAllStreamsEnd := by
  intro s
  rw [succeeded_iff]
  cases hf : s.fault with
  | some r => simp [step_stopped hf]
  | none =>
    obtain ⟨g, hnext, t, ht⟩ | ⟨hall, hended⟩ := step_running hf
    · refine ⟨fun h => ?_, fun h => ?_⟩
      · simp [ht] at h
      · simp [h.2 g] at hnext
    · exact ⟨fun _ => ⟨rfl, hall⟩, fun _ => hended⟩

end Sys2Proof.Machine
end

section
/-! What an interrupt agent's op does at a point between two micro-steps of a foreground op (R61, R81, R103). -/

namespace Sys2Proof.Machine

/-! ### The op that starts there -/

theorem preemptingOp_illegal {s : State} {g : Nat} {w : Word} (h : decode (s.wordsOf g) = .error (.illegal w)) :
    preemptingOp g s = s.raise .illegalOp w g s.busy := by
  simp only [preemptingOp, h]

theorem preemptingOp_truncated {s : State} {g : Nat} {w : Word} (h : decode (s.wordsOf g) = .error (.truncated w)) :
    preemptingOp g s = s.raise .truncated w g s.busy := by
  simp only [preemptingOp, h]

theorem preemptingOp_encode {s : State} {g : Nat} {c : Byte} {ws : List Word}
    (h : decode (s.wordsOf g) = .ok (.encode c, ws)) : preemptingOp g s = encodeBy g c s := by
  simp only [preemptingOp, h]

/-- Every op but ENCODE finds `BUSY` 1 (R61). -/
theorem preemptingOp_other {s : State} {g : Nat} {i : Instr} {ws : List Word} (h : decode (s.wordsOf g) = .ok (i, ws))
    (hi : i.mnemonic ≠ .ENCODE) : preemptingOp g s = s.raise .reentrant (s.wordOf g) g s.busy := by
  unfold preemptingOp
  rw [h]
  cases i
  case encode => exact absurd rfl hi
  all_goals rfl

/-! ### The point between two micro-steps -/

/-- The scheduler's next decision at a point between two micro-steps of a foreground op is interrupt agent k + 1, which is
`a` and has the words `w :: ws` before it. -/
structure Preempts (s : State) (k : Nat) (a : Agent) (w : Word) (ws : List Word) (rest : List Turn) : Prop where
  foreground : s.cur = 0
  unmasked : s.launch.irqMasked = false
  agent : s.irqs[k]? = some a
  words : a.stream.drop a.opidx = w :: ws
  sched : s.sched = .agent (k + 1) :: rest

section

variable {s : State} {k : Nat} {a : Agent} {w : Word} {ws : List Word} {rest : List Turn}

theorem Preempts.wordsOf (h : Preempts s k a w ws rest) : s.wordsOf (k + 1) = w :: ws := by
  simp only [State.wordsOf, agent?_succ, h.agent, h.words]

theorem Preempts.opidxOf (h : Preempts s k a w ws rest) : s.opidxOf (k + 1) = a.opidx := by
  simp only [State.opidxOf, agent?_succ, h.agent]

theorem Preempts.gap_eq (h : Preempts s k a w ws rest) :
    gap s = if (preemptingOp (k + 1) s).isFaulted then { preemptingOp (k + 1) s with sched := rest }
      else runGap rest (preemptingOp (k + 1) s) :=
  gap_preempted h.foreground h.unmasked ((hasNext_wordsOf ..).2 (by simp [h.wordsOf])) h.sched

/-- An interrupt agent's op that faults there changes only `FAULT`, beside the scheduler's record (R101). -/
theorem Preempts.gap_fault (h : Preempts s k a w ws rest) {c : FaultCode} {info : Word}
    (hop : preemptingOp (k + 1) s = s.raise c info (k + 1) s.busy) :
    gap s = { s with fault := some ⟨c, k + 1, a.opidx, w, info⟩, sched := rest } := by
  rw [h.gap_eq, hop, raise_isFaulted, if_pos rfl]
  simp only [State.raise, h.opidxOf, wordOf_cons h.wordsOf]

/-- An ENCODE that completes there, after which the scheduler goes on (R81). -/
theorem Preempts.gap_encode {rest' : List Turn} (h : Preempts s k a w ws (.proceed :: rest')) {c p : Byte}
    (hf : s.fault = none) (hop : preemptingOp (k + 1) s = encodeBy (k + 1) c s) (hp : rom s.launch c = some p) :
    gap s = { s with pat := some p, irqs := s.irqs.modify k (·.advance 1), sched := rest' } := by
  rw [h.gap_eq, hop]
  simp only [encodeBy, hp, advance_succ, isFaulted_eq, hf, Option.isSome_none, Bool.false_eq_true, if_false, runGap]

end

/-- Settles O11: each clause names the op that starts at the point; only an ENCODE with a table entry does not fault. -/
theorem interruptAgentAtAGap : Obligations.InterruptAgentAtAGap := by
  intro s k a w ws rest hf _ hcur hmask hagent hwords
  have hpre : ∀ {l}, s.sched = .agent (k + 1) :: l → Preempts s k a w ws l := fun hs =>
    ⟨hcur, hmask, hagent, hwords, hs⟩
  refine ⟨fun c p rest' hd hp hs => ?_, fun hs => ⟨fun c hd hp => ?_, fun i left hd hi => ?_, fun hnone => ?_, ?_⟩⟩
  · have h := hpre hs
    exact h.gap_encode hf (preemptingOp_encode ((congrArg decode h.wordsOf).trans hd)) hp
  · have h := hpre hs
    refine h.gap_fault ((preemptingOp_encode ((congrArg decode h.wordsOf).trans hd)).trans ?_)
    exact encodeBy_unencodable _ hp
  · have h := hpre hs
    refine h.gap_fault ((preemptingOp_other ((congrArg decode h.wordsOf).trans hd) hi).trans ?_)
    rw [wordOf_cons h.wordsOf]
  · have h := hpre hs
    exact h.gap_fault (preemptingOp_illegal ((congrArg decode h.wordsOf).trans (decode_illegal ws hnone)))
  · rintro rfl rfl
    have h := hpre hs
    exact h.gap_fault (preemptingOp_truncated
      ((congrArg decode h.wordsOf).trans (decode_truncated (m := .DSTR) rfl rfl)))

end Sys2Proof.Machine
end

section
/-! A receiver in a frame, one clock or data edge at a time (R111, R112): what `Rx.see` does on each, and the raw edges that
SETDIO and SETCLK make. -/

namespace Sys2Proof.Machine

/-! ### Start and stop conditions -/

/-- The stop condition (R111): a synchronised receiver that does not pull sees the data line rise under a high clock. -/
theorem see_stop {rx : Rx} (hi : rx.Inv) (hs : rx.sync = true) (hd : rx.drv = false) (hc : rx.pclk = .bit true)
    (hp : rx.pdio = .bit false) (ext : Bool) :
    rx.see (.bit true) (some .out) true ext =
      { rx with
        frame := false, phase := .data, bits := 0, pdio := .bit true, steps := rx.steps + 1,
        logRev := (rx.steps + 1, .stop) :: rx.logRev } := by
  cases hf : rx.frame with
  | true => simp [Rx.see, Rx.levels, Rx.edges, Rx.stop, dioLevel, Rx.note, hs, hd, hc, hp, hf]
  | false =>
    have hphase := hi.phase_data hf
    have hbits := hi.noFrame_bits hf
    simp [Rx.see, Rx.levels, Rx.edges, Rx.stop, dioLevel, Rx.note, hs, hd, hc, hp, hf, hphase, hbits]

/-- A receiver that is not synchronised only notes that the data line has risen (R111). -/
theorem see_rise_unsync {rx : Rx} (hs : rx.sync = false) (hd : rx.drv = false) (hc : rx.pclk = .bit true)
    (hp : rx.pdio = .bit false) (ext : Bool) : rx.see (.bit true) (some .out) true ext =
      { rx with pdio := .bit true, steps := rx.steps + 1 } := by
  simp [Rx.see, Rx.levels, dioLevel, hs, hd, hc, hp]

/-- The levels that the receiver has on record, of two lines that are outputs and a data line it does not pull. -/
theorem recorded_of_wireInv {s : State} (hw : s.WireInv) (hc : s.clkDir = some .out) (hd : s.dioDir = some .out)
    (hdrv : s.rx.drv = false) : s.rx.pclk = .bit s.clkOut ∧ s.rx.pdio = .bit s.dioOut := by
  constructor
  · rw [hw.pclk, clkBus_eq, if_pos hc]
  · rw [hw.pdio, dioBus_out hd, hdrv, if_neg (by decide)]

/-- Settles O25: the line falls (`see_start`), rises (`see_stop`, `see_rise_unsync`) or keeps its level (`see_idle`). -/
theorem rawDataEdgesFrameTheReceiver : Obligations.RawDataEdgesFrameTheReceiver := by
  intro s h hw hc hd hclk hdrv
  obtain ⟨hpclk, hpdio⟩ := recorded_of_wireInv hw hc hd hdrv
  rw [hclk] at hpclk
  have hbus : clkLevel s.clkDir s.clkOut = .bit true := by rw [hc, hclk]; rfl
  have hset : ∀ v, ∃ t, exec (.setdio v) s = .next t ∧
      t.rx = s.rx.see (.bit true) (some .out) v s.launch.extPullup := by
    intro v
    refine ⟨_, exec_setdio v h, ?_⟩
    rw [advance_rx, ← hbus, ← hd]
  refine ⟨fun hhigh => ?_, fun hlow hsync => ?_, fun hlow hsync => ?_, ?_⟩
  · obtain ⟨t, ht, hrx⟩ := hset false
    exact ⟨t, ht, by simp only [hrx, see_start hdrv hpclk (hhigh ▸ hpdio), hdrv]⟩
  · obtain ⟨t, ht, hrx⟩ := hset true
    exact ⟨t, ht, hrx.trans (see_stop hw.rx hsync hdrv hpclk (hlow ▸ hpdio) _)⟩
  · obtain ⟨t, ht, hrx⟩ := hset true
    exact ⟨t, ht, hrx.trans (see_rise_unsync hsync hdrv hpclk (hlow ▸ hpdio) _)⟩
  · obtain ⟨hsame, hlog⟩ := see_idle hw
    have hlog := hlog (by rw [clkBus_eq, if_pos hc]; nofun)
    refine ⟨_, exec_setdio s.dioOut h, ?_⟩
    rw [advance_rx]
    exact hsame.trans (by rw [hlog])

/-! ### The bits of a byte -/

/-- A bit of the byte being received is the one set, or as it was (R112). -/
theorem getLsbD_setShiftBit (sh : Byte) {k j : Nat} (v : Bool) (hk : k < 8) (hj : j < 8) :
    (setShiftBit sh k v).getLsbD j = if j = k then v else sh.getLsbD j := by
  simp only [setShiftBit, BitVec.getLsbD_or, BitVec.getLsbD_and, BitVec.getLsbD_not, BitVec.getLsbD_shiftLeft, hj,
    decide_true, Bool.true_and]
  obtain hlt | rfl | hgt := Nat.lt_trichotomy j k
  · simp [hlt, hlt.ne]
  · simp
  · have hpast : j - k ≠ 0 := by omega
    simp [hgt.ne', hpast, BitVec.getLsbD_one]

/-- A data bit (R112), taken at the rising clock edge as bit k. -/
theorem see_dataBit {rx : Rx} {k : Nat} {d : Bool} (h : rx.InData k false d) (hk : k < 8) (ext : Bool) :
    rx.see (.bit true) (some .out) d ext =
      { rx with
        shift := setShiftBit rx.shift k d, bits := k + 1, pclk := .bit true, steps := rx.steps + 1 } := by
  obtain ⟨hsync, hframe, hphase, rfl, hdrv, hpclk, hpdio⟩ := h
  simp [Rx.see, Rx.levels, Rx.edges, Rx.rise, dioLevel, hsync, hframe, hphase, hk, hdrv, hpclk, hpdio]

/-- The falling clock edge after the eighth bit (R112): the receiver pulls the line exactly when it acknowledges. -/
theorem see_ackBegin {rx : Rx} {d : Bool} (h : rx.InData 8 true d) (out ext : Bool) :
    rx.see (.bit false) (some .out) out ext =
      { rx with
        acked := rx.ackDraw, drv := rx.ackDraw, phase := .ack, ackPlan := rx.ackPlan.rest,
        ackDraws := rx.ackDraws + 1, pclk := .bit false, pdio := dioLevel (some .out) out rx.ackDraw ext,
        steps := rx.steps + 1 } := by
  obtain ⟨hsync, hframe, hphase, hbits, hdrv, hpclk, hpdio⟩ := h
  simp [Rx.see, Rx.levels, Rx.edges, Rx.fall, Rx.ackDraw, hsync, hframe, hphase, hbits, hpclk]

/-- The receiver as the acknowledge bit ends (R112): the line is released and the byte noted, before it is interpreted. -/
def Rx.ackEnded (rx : Rx) : Rx :=
  Rx.note { rx with drv := false, bits := 0, phase := .data, steps := rx.steps + 1 } (.byte rx.shift rx.acked)

/-- The falling clock edge of the ninth clock (R112): the byte is interpreted. -/
theorem see_ackEnd {rx : Rx} (hs : rx.sync = true) (hf : rx.frame = true) (hph : rx.phase = .ack)
    (hc : rx.pclk = .bit true) (dir : Option Dir) (out ext : Bool) :
    rx.see (.bit false) dir out ext =
      { rx.ackEnded.byte rx.shift rx.acked with
        pclk := .bit false, pdio := dioLevel dir out false ext } := by
  simp [Rx.see, Rx.levels, Rx.edges, Rx.fall, Rx.ackEnded, Rx.note, hs, hf, hph, hc]

/-- In the data bits of a frame whose lines are outputs the receiver pulls nothing and has the host's levels on record. -/
theorem inData_of_wireInv {s : State} {k : Nat} (hw : s.WireInv) (hc : s.clkDir = some .out) (hd : s.dioDir = some .out)
    (hframe : s.rx.frame = true) (hphase : s.rx.phase = .data) (hbits : s.rx.bits = k) :
    s.rx.InData k s.clkOut s.dioOut := by
  have hdrv : s.rx.drv = false := by
    by_contra hpull
    obtain ⟨-, hack, -⟩ := hw.rx.drv_ack (by simpa using hpull)
    simp [hphase] at hack
  obtain ⟨hpclk, hpdio⟩ := recorded_of_wireInv hw hc hd hdrv
  exact ⟨hw.rx.frame_sync hframe, hframe, hphase, hbits, hdrv, hpclk, hpdio⟩

/-- Settles O26: the three edges are those of `see_dataBit`, `see_ackBegin` and `see_ackEnd`. -/
theorem rawClockEdgesClockBits : Obligations.RawClockEdgesClockBits := by
  intro s h hw hc hd hframe
  have hset : ∀ v, ∃ t, exec (.setclk v) s = .next t ∧
      t.rx = s.rx.see (.bit v) (some .out) s.dioOut s.launch.extPullup := by
    intro v
    refine ⟨_, exec_setclk v h, ?_⟩
    rw [advance_rx, hc, hd]
    rfl
  refine ⟨fun hclk hphase hbits => ?_, fun hclk hphase hbits => ?_, fun hclk hphase => ?_⟩
  · have hin := inData_of_wireInv hw hc hd hframe hphase rfl
    rw [hclk] at hin
    obtain ⟨t, ht, hrx⟩ := hset true
    rw [see_dataBit hin hbits] at hrx
    refine ⟨t, ht, by rw [hrx], fun k hk => ?_⟩
    rw [hrx]
    exact getLsbD_setShiftBit _ _ hbits hk
  · have hin := inData_of_wireInv hw hc hd hframe hphase hbits
    rw [hclk] at hin
    obtain ⟨t, ht, hrx⟩ := hset false
    rw [see_ackBegin hin] at hrx
    refine ⟨s.rx.ackDraw, t, ht, ?_⟩
    rw [hrx]
    exact ⟨rfl, rfl, rfl, rfl, rfl, ackDraw_always⟩
  · have hpclk : s.rx.pclk = .bit true := by rw [hw.pclk, clkBus_eq, if_pos hc, hclk]
    obtain ⟨t, ht, hrx⟩ := hset false
    rw [see_ackEnd (hw.rx.frame_sync hframe) hframe hphase hpclk] at hrx
    refine ⟨t, ht, ?_⟩
    rw [hrx]
    refine ⟨byte_drv rfl _ _, byte_phase rfl _ _, byte_bits rfl _ _, ?_, fun hrefused => ?_⟩
    · exact (congrArg List.reverse (byte_receivedRev s.rx.ackEnded s.rx.shift s.rx.acked)).trans List.reverse_cons
    · rw [hrefused]
      exact ⟨rfl, rfl⟩

end Sys2Proof.Machine
end

section
/-! One byte of a frame (R112 to R114): WRBYTE between bytes of a frame, with the answer named, and how the command byte and
the data bytes are interpreted. -/

namespace Sys2Proof.Machine

/-! ### Desynchronisation -/

/-- Settles O28: `Rx.desync` and `Rx.start` are R114's and R111's own writes. -/
theorem desynchronisedReceiver : Obligations.DesynchronisedReceiver :=
  fun _ => ⟨rfl, rfl, rfl, rfl, rfl, rfl, fun _ => rfl⟩

/-- The fields in which receivers that agree on a byte agree. -/
theorem Rx.Like.fields {r r' : Rx} (h : r.Like r') :
    r.sync = r'.sync ∧ r.nbyte = r'.nbyte ∧ r.cmd = r'.cmd ∧ r.mode = r'.mode ∧ r.ptr = r'.ptr ∧ r.disp = r'.disp ∧
    r.dctrlEn = r'.dctrlEn ∧ r.dctrlBri = r'.dctrlBri := by
  obtain ⟨hsync, -, hnbyte, hcmd, hheld⟩ := h
  simp only [Rx.held, Prod.mk.injEq] at hheld
  exact ⟨hsync, hnbyte, hcmd, hheld⟩

/-- A receiver that agrees with a desynchronised one holds nothing (R114). -/
theorem Rx.Like.desynced {r rx : Rx} (h : r.Like rx.desync) :
    r.sync = false ∧ (∀ p, r.dispAt p = none) ∧ r.dctrlEn = none ∧ r.dctrlBri = none := by
  obtain ⟨hsync, -, -, -, -, hdisp, hen, hbri⟩ := h.fields
  exact ⟨hsync, dispAt_unknown hdisp, hen, hbri⟩

/-! ### WRBYTE in a frame -/

/-- WRBYTE between bytes of a frame (R70, R112): the answer is in `ACK` and `SMP`, and the receiver has seen and interpreted
the byte (R113). -/
theorem wrbyte_inFrame {s : State} (v : Byte) (h : s.transportReady) (hw : s.WireInv) (hframe : s.rx.frame = true)
    (hphase : s.rx.phase = .data) (hbits : s.rx.bits = 0) :
    ∃ t, exec (.wrbyte v) s = .next t ∧ t.ack = some s.rx.ackDraw ∧ t.smp = some (!s.rx.ackDraw) ∧ t.fault = none ∧
      t.rx.Like (s.rx.byte v s.rx.ackDraw) ∧ t.rx.received = s.rx.received ++ [(v, s.rx.ackDraw)] ∧
      t.rx.drv = false ∧ t.rx.phase = .data ∧ t.rx.bits = 0 := by
  obtain ⟨⟨hf, -, hq⟩, hc, hd⟩ := id h
  obtain ⟨rx', e, hlike, hphase', hbits', hdrv', -, -, -, hseen, -⟩ :=
    run_writeByte (s := s.entered) v hq hf hc hd (inData_of_wireInv (s := s) hw hc hd hframe hphase hbits)
  refine ⟨_, transport_completes (m := .WRBYTE) h rfl e, advance_ack .., advance_smp .., (advance_fault ..).trans hf, ?_⟩
  rw [advance_rx]
  refine ⟨hlike, ?_, hdrv', hphase', hbits'⟩
  rw [Rx.received, hseen, List.reverse_cons]
  rfl

/-- Settles O32: what `wrbyte_inFrame` gives, and that a byte without an acknowledge desynchronises (R113). -/
theorem wrbyteReachesTheReceiver : Obligations.WrbyteReachesTheReceiver := by
  intro s v h hw hframe hphase hbits
  obtain ⟨t, ht, hack, hsmp, hfault, hlike, hseen, hdrv, hphase', hbits'⟩ := wrbyte_inFrame v h hw hframe hphase hbits
  refine ⟨s.rx.ackDraw, t, ht, hack, hsmp, hfault, hseen, hdrv, hphase', hbits', ackDraw_always, fun hrefused => ?_⟩
  rw [hrefused] at hlike
  exact hlike.desynced

/-- WRBYTE between bytes of a frame with a receiver that acknowledges every byte. -/
theorem wrbyte_acked {s : State} (v : Byte) (h : s.transportReady) (hw : s.WireInv) (hacks : s.rx.ackPlan = .always)
    (hframe : s.rx.frame = true) (hphase : s.rx.phase = .data) (hbits : s.rx.bits = 0) :
    ∃ t, exec (.wrbyte v) s = .next t ∧ t.ack = some true ∧ t.rx.Like (s.rx.byte v true) := by
  obtain ⟨t, ht, hack, -, -, hlike, -⟩ := wrbyte_inFrame v h hw hframe hphase hbits
  rw [ackDraw_always hacks] at hack hlike
  exact ⟨t, ht, hack, hlike⟩

/-! ### The command byte -/

/-- The first byte of a frame does what it does in a frame just opened: no byte and no command came before it (R113). -/
theorem first_byte_opened {rx : Rx} (v : Byte) (hsync : rx.sync = true) (hframe : rx.frame = true)
    (hfirst : rx.nbyte = 0) : (rx.byte v true).Like (rx.opened.byte v true) := by
  simp only [Rx.byte, hfirst, Rx.opened, if_true, Rx.commandByte]
  repeat' split
  all_goals simp [Rx.Like, Rx.held, Rx.desync, hsync, hframe]

/-- The bytes 0xC0 to 0xC7 are the address commands, and 0x80 to 0x8F the display-control commands (R58, R59). -/
theorem command_masks : ∀ v : Byte,
    (v &&& 0xF8 = 0xC0 ↔ 0xC0 ≤ v.toNat ∧ v.toNat ≤ 0xC7) ∧
    (v &&& 0xF8 = 0xC0 → v ≠ 0x40 ∧ v ≠ 0x44 ∧ (v &&& 0x07).toNat = v.toNat - 0xC0) ∧
    (v &&& 0xF0 = 0x80 → v = ctrlByte (v.getLsbD 3) (v.extractLsb' 0 3)) := by
  decide

/-- An address command where the address mode is known (R113). -/
theorem opened_address {rx : Rx} {v : Byte} (hlo : 0xC0 ≤ v.toNat) (hhi : v.toNat ≤ 0xC7) (hmode : rx.mode ≠ none) :
    rx.opened.byte v true = { rx.opened with ptr := some (v.toNat - 0xC0), cmd := .addr, nbyte := 1 } := by
  obtain ⟨hmask, haddr, -⟩ := command_masks v
  obtain ⟨h40, h44, hptr⟩ := haddr (hmask.2 ⟨hlo, hhi⟩)
  obtain ⟨m, hm⟩ := Option.ne_none_iff_exists'.1 hmode
  simp only [Rx.byte, Rx.opened, Rx.commandByte, h40, h44, hmask.2 ⟨hlo, hhi⟩, hm, hptr, if_true, if_false]

/-- Every other byte desynchronises, and so does an address command where the mode is not known (R113). -/
theorem opened_unknown {rx : Rx} {v : Byte} (h40 : v ≠ 0x40) (h44 : v ≠ 0x44)
    (haddr : v.toNat < 0xC0 ∨ 0xC7 < v.toNat ∨ rx.mode = none) (hctrl : ∀ e b, v ≠ ctrlByte e b) :
    rx.opened.byte v true = rx.opened.desync := by
  obtain ⟨hmask, -, hmaskCtrl⟩ := command_masks v
  have hnoCtrl : v &&& 0xF0 ≠ 0x80 := fun hm => hctrl _ _ (hmaskCtrl hm)
  simp only [Rx.byte, Rx.opened, Rx.commandByte, h40, h44, hnoCtrl, if_true, if_false]
  split
  · next hm =>
    obtain ⟨hlo, hhi⟩ := hmask.1 hm
    have hmode := (haddr.resolve_left (by omega)).resolve_left (by omega)
    simp only [hmode]
  · rfl

/-- Settles O34: the byte is interpreted as the first of a frame just opened, by one rule for each kind of command. -/
theorem commandByteInterpreted : Obligations.CommandByteInterpreted := by
  intro s v h hw ⟨hacks, _⟩ hframe hphase hbits hfirst
  obtain ⟨t, ht, hack, hlike⟩ := wrbyte_acked v h hw hacks hframe hphase hbits
  have hlike := hlike.trans (first_byte_opened v (hw.rx.frame_sync hframe) hframe hfirst)
  refine ⟨t, ht, hack, fun hv => ?_, fun hlo hhi hmode => ?_, fun e b hv => ?_, fun ⟨h40, h44, haddr, hctrl⟩ => ?_⟩
  · have hdata : s.rx.opened.byte v true =
        { s.rx.opened with mode := some (if v = 0x40 then .autoinc else .fixed), cmd := .data, nbyte := 1 } := by
      obtain rfl | rfl := hv <;> rfl
    rw [hdata] at hlike
    obtain ⟨hsync, hnbyte, hcmd, hmode, hptr, hdisp, hen, hbri⟩ := hlike.fields
    exact ⟨hsync, hcmd, hnbyte, hmode, hptr, hdisp, hen, hbri⟩
  · rw [opened_address hlo hhi hmode] at hlike
    obtain ⟨hsync, hnbyte, hcmd, hmode, hptr, hdisp, hen, hbri⟩ := hlike.fields
    exact ⟨hsync, hcmd, hnbyte, hptr, hmode, hdisp, hen, hbri⟩
  · rw [hv, opened_ctrl] at hlike
    obtain ⟨hsync, hnbyte, hcmd, hmode, hptr, hdisp, hen, hbri⟩ := hlike.fields
    exact ⟨hsync, hcmd, hnbyte, hen, hbri, hmode, hptr, hdisp⟩
  · rw [opened_unknown h40 h44 haddr hctrl] at hlike
    exact hlike.desynced

/-! ### Data bytes -/

/-- A data byte at a position (R113, R115). -/
theorem dataByte_position {rx : Rx} {p : Nat} (v : Byte) (hcmd : rx.cmd = .addr) (hptr : rx.ptr = some p) (hp : p < 4) :
    rx.dataByte v = { rx with
      disp := rx.disp.set p (some v), ptr := some (rx.nextPtr p), nbyte := rx.nbyte + 1 } := by
  simp only [Rx.dataByte, hcmd, hptr, hp, if_true, dite_true]

/-- A data byte at an address that shows nothing (R113). -/
theorem dataByte_blank {rx : Rx} {p : Nat} (v : Byte) (hcmd : rx.cmd = .addr) (hptr : rx.ptr = some p) (hlo : ¬ p < 4)
    (hhi : p ≤ 5) : rx.dataByte v = { rx with ptr := some (rx.nextPtr p), nbyte := rx.nbyte + 1 } := by
  simp only [Rx.dataByte, hcmd, hptr, hlo, hhi, if_true, dite_false]

/-- A data byte beyond the addresses, or after no address command, desynchronises (R113). -/
theorem dataByte_refused {rx : Rx} (v : Byte) (h : rx.cmd ≠ .addr ∨ ∃ p, rx.ptr = some p ∧ 6 ≤ p) :
    rx.dataByte v = rx.desync := by
  unfold Rx.dataByte
  obtain hcmd | ⟨p, hptr, hp⟩ := h
  · rw [if_neg hcmd]
  · have h4 : ¬ p < 4 := by omega
    have h5 : ¬ p ≤ 5 := by omega
    simp only [hptr, h4, h5, dite_false, if_false, ite_self]

/-- Settles O35: an acknowledged byte after the first is a data byte, by one rule for each range of the pointer. -/
theorem dataByteInterpreted : Obligations.DataByteInterpreted := by
  intro s v h hw ⟨hacks, _⟩ hframe hphase hbits hlater
  obtain ⟨t, ht, hack, hlike⟩ := wrbyte_acked v h hw hacks hframe hphase hbits
  have hsync := hw.rx.frame_sync hframe
  have hdata : s.rx.byte v true = s.rx.dataByte v := by simp only [Rx.byte, hlater, if_true, if_false]
  rw [hdata] at hlike
  refine ⟨t, ht, hack, fun p hcmd hptr hp => ?_, fun hrefused => ?_⟩
  · by_cases hshown : p < 4
    · rw [dataByte_position v hcmd hptr hshown] at hlike
      obtain ⟨hsync', hnbyte', hcmd', hmode', hptr', hdisp', hen', hbri'⟩ := hlike.fields
      exact ⟨hsync'.trans hsync, hnbyte', hcmd'.trans hcmd, hmode', hptr', fun q _ => dispAt_of_set (hk := hshown) hdisp' q,
        hen', hbri'⟩
    · rw [dataByte_blank v hcmd hptr hshown hp] at hlike
      obtain ⟨hsync', hnbyte', hcmd', hmode', hptr', hdisp', hen', hbri'⟩ := hlike.fields
      refine ⟨hsync'.trans hsync, hnbyte', hcmd'.trans hcmd, hmode', hptr', fun q hq => ?_, hen', hbri'⟩
      rw [if_neg (by omega), dispAt_of_disp (r := s.rx) hdisp']
  · rw [dataByte_refused v hrefused] at hlike
    exact hlike.desynced

end Sys2Proof.Machine
end

section
/-! A foreground op that an interrupt agent's op stops (R101, R103, R123): the first point at which the interrupt agent can
start one is after the op's first event, its op finds `BUSY` 1, and what is left of the foreground op does nothing. -/

namespace Sys2Proof.Machine

/-! ### The first event and the fault before the second -/

/-- The micro-steps that are one primitive event each. -/
def Micro.isEvent : Micro → Bool
  | .lat _ _ => true
  | .dir _ _ => true
  | .wait => true
  | .sample => true
  | .holdLow => false
  | .setAck => false

/-- An event, before a fault, is all that happens at its micro-step but for what other agents do before it. -/
theorem microStep_isEvent {m : Micro} (hm : m.isEvent = true) :
    ∃ f : State → State, (∀ u, u.fault = none → microStep m u = event f u) ∧
      ∀ u, SameButWire u (f u) ∧ (f u).midOp = u.midOp ∧ ∃ e, (f u).traceRev = e :: u.traceRev := by
  cases m with
  | lat l v =>
    refine ⟨setLatch l v, fun u hu => by simp [microStep, hu], fun u => ?_⟩
    cases l <;> exact ⟨rfl, rfl, _, rfl⟩
  | dir l d =>
    refine ⟨setDir l d, fun u hu => by simp [microStep, hu], fun u => ?_⟩
    cases l <;> exact ⟨rfl, rfl, _, rfl⟩
  | wait => exact ⟨waitEvent, fun u hu => by simp [microStep, hu], fun u => ⟨rfl, rfl, _, rfl⟩⟩
  | sample =>
    refine ⟨sampleEvent, fun u hu => by simp [microStep, hu], fun u => ?_⟩
    simp only [sampleEvent, State.useDraw]
    cases u.dioBus <;> exact ⟨rfl, rfl, _, rfl⟩
  | holdLow => cases hm
  | setAck => cases hm

/-- The first event of an op, before a fault, is recorded whatever the scheduler decides. -/
theorem microStep_first {m : Micro} {u : State} (hm : m.isEvent = true) (hf : u.fault = none) (hmid : u.midOp = false) :
    SameButWire u (microStep m u) ∧ (microStep m u).midOp = true ∧
      ∃ e, (microStep m u).traceRev = e :: u.traceRev := by
  obtain ⟨f, hmicro, hevent⟩ := microStep_isEvent hm
  obtain ⟨hsame, hmid', e, htrace⟩ := hevent { u with midOp := true }
  rw [hmicro u hf, event_first f hmid hf]
  exact ⟨by rw [hsame]; rfl, hmid', e, htrace⟩

/-- A later event does not happen when a fault arises at the point before it. -/
theorem microStep_gap_faulted {m : Micro} {u : State} (hm : m.isEvent = true) (hf : u.fault = none)
    (hmid : u.midOp = true) (hgap : (gap u).isFaulted = true) : microStep m u = gap u := by
  obtain ⟨f, hmicro, -⟩ := microStep_isEvent hm
  rw [hmicro u hf, event, if_pos hmid, if_pos hgap]

/-! ### An op that begins and is stopped -/

/-- A foreground op has begun in `u` and recorded no event yet, and the scheduler's next decision is interrupt agent k + 1,
whose next op is not an ENCODE. -/
structure ReentrantNext (u : State) (k : Nat) (a : Agent) (w : Word) (ws : List Word) (rest : List Turn) : Prop where
  preempts : Preempts u k a w ws rest
  op : ∃ j left, decode (w :: ws) = .ok (j, left) ∧ j.mnemonic ≠ .ENCODE
  unfaulted : u.fault = none
  begun : u.midOp = false

/-- From `u` to `v` the running op has recorded one event, and a fault with record r has stopped the machine; no agent has
moved on, and the op has neither ended nor set `INITED`. -/
structure StoppedAfterOne (u v : State) (r : FaultRecord) : Prop where
  fault : v.fault = some r
  busy : v.busy = u.busy
  trace : ∃ e, v.traceRev = e :: u.traceRev
  fg : v.fg = u.fg
  irqs : v.irqs = u.irqs
  inited : v.inited = u.inited

theorem StoppedAfterOne.isFaulted {u v : State} {r : FaultRecord} (h : StoppedAfterOne u v r) : v.isFaulted = true := by
  rw [isFaulted_eq, h.fault]
  rfl

/-- Only the agents, the scheduler's decisions, the parameters and the op cycle's own record matter. -/
theorem Preempts.of_sameButWire {u v : State} {k : Nat} {a : Agent} {w : Word} {ws : List Word} {rest : List Turn}
    (h : Preempts u k a w ws rest) (hsame : SameButWire u v) : Preempts v k a w ws rest := by
  obtain ⟨hcur, hmask, hagent, hwords, hsched⟩ := h
  rw [hsame]
  exact ⟨hcur, hmask, hagent, hwords, hsched⟩

/-- An op of any family but the encoder's that starts at a point between two micro-steps faults `REENTRANT` (R61, R103). -/
theorem Preempts.gap_reentrant {u : State} {k : Nat} {a : Agent} {w : Word} {ws left : List Word} {rest : List Turn}
    {j : Instr} (h : Preempts u k a w ws rest) (hd : decode (w :: ws) = .ok (j, left)) (hj : j.mnemonic ≠ .ENCODE) :
    gap u = { u with fault := some ⟨.reentrant, k + 1, a.opidx, w, w⟩, sched := rest } := by
  refine h.gap_fault ((preemptingOp_other ((congrArg decode h.wordsOf).trans hd) hj).trans ?_)
  rw [wordOf_cons h.wordsOf]

section

variable {u : State} {k : Nat} {a : Agent} {w : Word} {ws : List Word} {rest : List Turn}

/-- A sequence that begins with two events is stopped between them. -/
theorem ReentrantNext.run_stops (h : ReentrantNext u k a w ws rest) {m m' : Micro} {ms : List Micro}
    (hm : m.isEvent = true) (hm' : m'.isEvent = true) :
    StoppedAfterOne u (run (m :: m' :: ms) u) ⟨.reentrant, k + 1, a.opidx, w, w⟩ := by
  obtain ⟨hpre, ⟨j, left, hd, hj⟩, hf, hmid⟩ := h
  obtain ⟨hsame, hmid', e, htrace⟩ := microStep_first hm hf hmid
  have hgap := (hpre.of_sameButWire hsame).gap_reentrant hd hj
  have hfaulted : (gap (microStep m u)).isFaulted = true := by
    rw [hgap]
    rfl
  have hstop : run (m :: m' :: ms) u = gap (microStep m u) := by
    rw [run_cons, run_cons, microStep_gap_faulted hm' (hsame.fault.trans hf) hmid' hfaulted, run_faulted ms hfaulted]
  rw [hstop, hgap]
  refine ⟨rfl, ?_, ⟨e, htrace⟩, ?_, ?_, ?_⟩ <;> rw [hsame]

/-- So is one the op runs after it has written the driver's registers. -/
theorem ReentrantNext.run_stops_registers (h : ReentrantNext u k a w ws rest) (en : Option Bool)
    (bri : Option (BitVec 3)) (cache : Option Byte) {m m' : Micro} {ms : List Micro} (hm : m.isEvent = true)
    (hm' : m'.isEvent = true) :
    StoppedAfterOne u (run (m :: m' :: ms) { u with cfgEn := en, cfgBri := bri, colonCache := cache })
      ⟨.reentrant, k + 1, a.opidx, w, w⟩ := by
  obtain ⟨⟨hcur, hmask, hagent, hwords, hsched⟩, hop, hf, hmid⟩ := h
  have hnext : ReentrantNext { u with cfgEn := en, cfgBri := bri, colonCache := cache } k a w ws rest :=
    ⟨⟨hcur, hmask, hagent, hwords, hsched⟩, hop, hf, hmid⟩
  obtain ⟨hfault, hbusy, htrace, hfg, hirqs, hinited⟩ := hnext.run_stops (ms := ms) hm hm'
  exact ⟨hfault, hbusy, htrace, hfg, hirqs, hinited⟩

/-- A character's sequence that is stopped on the way writes no cache (R87, R101). -/
theorem dcharSeq_faulted {s : State} (pos pat : Byte)
    (h : (run (dsegSeq pos (withColon pos pat s.colonValue)) s).isFaulted = true) :
    dcharSeq pos pat s = run (dsegSeq pos (withColon pos pat s.colonValue)) s := by
  simp only [dcharSeq, assign_faulted _ h, ite_self]

theorem dcharsFrom_faulted {s : State} (k : Nat) (ps : List Byte) (h : s.isFaulted = true) : dcharsFrom k ps s = s := by
  induction ps generalizing k with
  | nil => rfl
  | cons p ps ih =>
    have hrun : ∀ ms, run ms s = s := fun ms => run_faulted ms h
    rw [dcharsFrom, dcharSeq_faulted _ _ (by rwa [hrun]), hrun, ih]

theorem ReentrantNext.dcharSeq_stops (h : ReentrantNext u k a w ws rest) (pos pat : Byte) :
    StoppedAfterOne u (dcharSeq pos pat u) ⟨.reentrant, k + 1, a.opidx, w, w⟩ := by
  have hstop : StoppedAfterOne u (run (dsegSeq pos (withColon pos pat u.colonValue)) u) _ :=
    h.run_stops rfl rfl
  rw [dcharSeq_faulted pos pat hstop.isFaulted]
  exact hstop

theorem ReentrantNext.dcharsFrom_stops (h : ReentrantNext u k a w ws rest) (p : Byte) (ps : List Byte) :
    StoppedAfterOne u (dcharsFrom 0 (p :: ps) u) ⟨.reentrant, k + 1, a.opidx, w, w⟩ := by
  have hstop := h.dcharSeq_stops (BitVec.ofNat 8 0) p
  rw [dcharsFrom, dcharsFrom_faulted _ ps hstop.isFaulted]
  exact hstop

theorem ReentrantNext.initBody_stops (h : ReentrantNext u k a w ws rest) (en : Bool) (bri : Int) :
    StoppedAfterOne u (initBody en bri u) ⟨.reentrant, k + 1, a.opidx, w, w⟩ := by
  have hstop : StoppedAfterOne u (run initLines u) _ := h.run_stops rfl rfl
  have hf := hstop.isFaulted
  rw [initBody, assign_faulted _ hf, ctrlSeq, run_faulted _ hf, assign_faulted _ hf]
  exact hstop

end

/-! ### Each op -/

/-- Every op of the transport and driver families whose characters have table entries has a body that an interrupt agent's
op stops after its first event. -/
theorem exec_body_stops {i : Instr} (s : State)
    (hm : i.mnemonic.row.family = .transport ∨ i.mnemonic.row.family = .driver) (henc : encodable s.launch i = true) :
    ∃ body, exec i s = opCycle i.mnemonic body s ∧ ∀ {u k a w ws rest}, ReentrantNext u k a w ws rest →
      StoppedAfterOne u (body u) ⟨.reentrant, k + 1, a.opidx, w, w⟩ := by
  cases i
  case start => exact ⟨_, rfl, fun h => h.run_stops rfl rfl⟩
  case stop => exact ⟨_, rfl, fun h => h.run_stops rfl rfl⟩
  case wrbyte b => exact ⟨_, rfl, fun h => h.run_stops rfl rfl⟩
  case sendcmd b => exact ⟨_, rfl, fun h => h.run_stops rfl rfl⟩
  case init en bri => exact ⟨_, exec_init en bri s, fun h => h.initBody_stops en bri⟩
  case dseg pos pat => exact ⟨_, rfl, fun h => h.run_stops rfl rfl⟩
  case dchar pos c =>
    obtain ⟨pat, hc⟩ := Option.isSome_iff_exists.1 henc
    exact ⟨_, by simp only [exec, execDchar, hc]; rfl, fun h => h.dcharSeq_stops pos pat⟩
  case dcolon v => exact ⟨_, exec_dcolon v s, fun h => h.run_stops_registers _ _ _ rfl rfl⟩
  case dstr c0 c1 c2 c3 =>
    obtain ⟨p0, p1, p2, p3, hread, -⟩ := romAll_encodable (padString_length c0 c1 c2 c3) (List.all_eq_true.1 henc)
    exact ⟨_, by simp only [exec, execDstr, hread]; rfl, fun h => h.dcharsFrom_stops p0 _⟩
  case dint n =>
    obtain ⟨p0, p1, p2, p3, hread, -⟩ := romAll_encodable (formatInt_length n) (formatInt_encodable s.launch n)
    exact ⟨_, by simp only [exec, execDint, hread]; rfl, fun h => h.dcharsFrom_stops p0 _⟩
  case clear => exact ⟨_, rfl, fun h => h.run_stops rfl rfl⟩
  case enable on => exact ⟨_, exec_enable on s, fun h => h.run_stops_registers _ _ _ rfl rfl⟩
  case setbri v => exact ⟨_, exec_setbri v s, fun h => h.run_stops_registers _ _ _ rfl rfl⟩
  all_goals rcases hm with hm | hm <;> cases hm

/-- The checks of R61 pass: no op running, and the lines and `INITED` as the op wants them. -/
theorem entryFault_passes {m : Mnemonic} {s : State} (hm : m.row.family = .transport ∨ m.row.family = .driver)
    (hb : s.busy = false)
    (h : if m = .INIT then s.inited = false
      else s.clkDir = some .out ∧ s.dioDir = some .out ∧ (m.row.family = .driver → s.inited = true)) :
    entryFault m s = none := by
  split at h
  · next hinit =>
    subst hinit
    exact entryFault_init hb h
  · next hinit =>
    obtain ⟨hc, hd, hn⟩ := h
    rcases hm with hm | hm
    · exact entryFault_transport hm hb hc hd
    · exact entryFault_driver hm hinit hb (hn hm) hc hd

/-- Settles O12: the op passes its checks and begins; its body is stopped by `exec_body_stops`, and so it does not
complete. -/
theorem preemptedOpStops : Obligations.PreemptedOpStops := by
  intro i j s k a w ws rest hf hb hcur hmask hm henc hready hagent hd hj hw hsched
  obtain ⟨hlt, hget⟩ := List.getElem?_eq_some_iff.1 hw
  have hwords : a.stream.drop a.opidx = w :: a.stream.drop (a.opidx + 1) := by
    rw [List.drop_eq_getElem_cons hlt, hget]
  obtain ⟨body, hexec, hbody⟩ := exec_body_stops s hm henc
  have hstop := hbody (u := s.entered)
    ⟨⟨hcur, hmask, hagent, hwords, hsched⟩, ⟨j, ws, hwords ▸ hd, hj⟩, hf, rfl⟩
  have hnext : exec i s = .next (body s.entered) := by
    rw [hexec, opCycle_run body (entryFault_passes hm hb hready), enter_eq_busy hm]
    exact congrArg _ (complete_faulted hstop.isFaulted)
  obtain ⟨e, htrace⟩ := hstop.trace
  exact ⟨e, _, hnext, hstop.fault, hstop.busy, htrace, hstop.fg, hstop.irqs, hstop.inited⟩

end Sys2Proof.Machine
end

section
/-! The boot sequence (R120, R121): from power-on INIT leaves a state in which the driver's other ops are served, and two of
them bring the display to a known state. -/

namespace Sys2Proof.Machine

/-! ### Power-on to the first driver op -/

theorem quiet_of_noSched {s : State} (h : s.sched = []) : s.quiet = true := by
  rw [State.quiet, h]
  rfl

/-- At power-on INIT passes its checks where the scheduler lets no other agent act, with nothing traced yet and a receiver
that has seen no start condition (R29). -/
theorem atPowerOn_initReady {s : State} (h : s.atPowerOn) (hsched : s.sched = []) :
    s.initReady ∧ s.trace = [] ∧ s.rx.sync = false := by
  have hs := h.1
  refine ⟨⟨⟨?_, ?_, quiet_of_noSched hsched⟩, ?_⟩, ?_, ?_⟩ <;> rw [hs] <;> rfl

/-- After INIT's first events a transaction with a working receiver can follow, if the receiver was not synchronised: it
does not pull the line. -/
theorem initSending_fits {s : State} (en : Bool) (bri : Int) (hq : s.quiet = true) (hf : s.fault = none) (hw : s.WireInv)
    (hacks : s.rx.ackPlan = .always) (hsync : s.rx.sync = false) : Fits (initSending en bri s) := by
  obtain ⟨hdrv, -, -⟩ := run_initLines_unsync hq hf hw hsync
  obtain ⟨hq1, hf1, hc1, hd1⟩ := initSending_ready en bri hq hf
  exact ⟨hq1, hf1, hc1, hd1, initSending_wireInv en bri hw, hdrv, initSending_acks en bri hacks⟩

/-- `INITED` is no part of the wire. -/
theorem Fits.initialised {s : State} (h : Fits s) (b : Bool) : Fits { s with inited := b } := by
  obtain ⟨hq, hf, hc, hd, hw, hdrv, hacks⟩ := h
  exact ⟨hq, hf, hc, hd, wireInv_of_eq hw rfl rfl rfl rfl, hdrv, hacks⟩

/-- INIT (R89) with a working receiver that is not synchronised: the configuration is cached and at the receiver, the colon
is cleared, and the next driver op is served. -/
theorem init_delivers {s : State} (en : Bool) (bri : Int) (h : s.initReady) (hw : s.WireInv) (hpremise : s.workingReceiver)
    (hsync : s.rx.sync = false) :
    ∃ t, exec (.init en bri) s = .next t ∧ Served t ∧ t.cfgEn = some en ∧ t.cfgBri = some (clamp bri) ∧
      t.colonCache = some 0x00 ∧ t.rx.dctrlEn = some en ∧ t.rx.dctrlBri = some (clamp bri) ∧
      t.trace.length = s.trace.length + 67 := by
  obtain ⟨⟨hf, -, hq⟩, -⟩ := id h
  obtain ⟨a, t, hexec, ⟨-, hsent⟩, htrace, hheard⟩ := initConfigures s en bri h
  obtain ⟨rfl, -, -, hen, hbri⟩ := hheard hw hpremise
  have hserved : Served t := by
    have hfit := initSending_fits en bri (s := s.entered) hq hf (entered_wireInv hw) hpremise.1 hsync
    obtain ⟨-, -, hfit', -⟩ := fits_sendCmd (ctrlByte en (clamp bri)) hfit
    have hbody : Fits (initBody en bri s.entered) := by
      rw [initBody_eq (s := s.entered) en bri hq hf]
      exact hfit'.initialised true
    obtain ⟨_, _, e, -, -, hexec'⟩ := init_completes en bri h
    obtain rfl : (initBody en bri s.entered).ended s.cur 1 = t := by
      simpa using hexec'.symm.trans hexec
    refine hbody.ended_served ?_ ?_ _ _ <;> rw [e]
    exact hpremise.2
  refine ⟨t, hexec, hserved, (congrArg State.cfgEn hsent).trans (advance_cfgEn ..),
    (congrArg State.cfgBri hsent).trans (advance_cfgBri ..),
    (congrArg State.colonCache hsent).trans (advance_colonCache ..), hen, hbri, ?_⟩
  rw [htrace]
  simp [startEvents, dataEvents, ackEvents, stopEvents]

/-! ### After a driver op -/

/-- A driver op leaves the lines idle (R69). -/
theorem Delivers.linesIdle {i : Instr} {s t : State} {en : Option Bool} {bri : Option (BitVec 3)} {cache : Option Byte}
    {n w : Nat} (h : Delivers i s t en bri cache n w) : t.linesIdle := by
  obtain ⟨⟨-, hc, hd⟩, -⟩ := h.served.ready
  exact ⟨hc, hd, (congrArg State.clkOut h.sent.2).trans (advance_clkOut ..),
    (congrArg State.dioOut h.sent.2).trans (advance_dioOut ..)⟩

/-- Settles O60: INIT from power-on serves DCOLON, which caches the colon that DINT shows beside the integer. -/
theorem bootReachesAKnownDisplay : Obligations.BootReachesAKnownDisplay := by
  intro s en v bri n hpower hpremise hsched hlo hhi
  obtain ⟨hready, hempty, hsync⟩ := atPowerOn_initReady hpower hsched
  obtain ⟨s1, hexec1, hserved1, hcfgEn1, hcfgBri1, hcache1, hen1, hbri1, hlength1⟩ :=
    init_delivers en bri hready (atPowerOn_wireInv hpower) hpremise hsync
  obtain ⟨s2, hdone2, hwrote2⟩ := dcolon_delivers v hserved1 hcache1
  obtain ⟨t, _, _, _, _, hdone, hfilled, hshows⟩ := dint_delivers n hdone2.served hdone2.colonCache
  have hf1 : s1.fault = none := hserved1.ready.1.1.1
  have hruns : runOps [.init en bri, .dcolon v, .dint n] s = some t :=
    (runOps_cons hexec1 hf1).trans ((hdone2.runOps_eq _).trans (hdone.runOps_eq _))
  have hen : t.rx.dctrlEn = some en := hfilled.dctrlEn.trans (hwrote2.dctrlEn.trans hen1)
  have hbri : t.rx.dctrlBri = some (clamp bri) := hfilled.dctrlBri.trans (hwrote2.dctrlBri.trans hbri1)
  have hcolon : t.rx.colonBit = some v := by rw [hshows.colonBit, colonSet_colon]
  refine ⟨t, hruns, hdone.linesIdle, hdone.served.ready.2, hdone.cfgEn.trans (hdone2.cfgEn.trans hcfgEn1),
    hdone.cfgBri.trans (hdone2.cfgBri.trans hcfgBri1), hen, hbri, hcolon, colonLit_of hen hcolon,
    hshows.readBack (formatInt_length n) (formatInt_chars hlo hhi), readInteger_formatInt hlo hhi, ?_⟩
  rw [hdone.length, hdone2.length, hlength1, hempty]
  rfl

end Sys2Proof.Machine
end
